-- ==== Sys2Proof/Word.lean ====
section
/-! DEFINITION. The two word types of the FCE: a byte of a buffer or a stream, and the 32-bit word of every register (00_scope.md R7, R9). -/

namespace Sys2Proof

/-- A byte of IBUF, of OBUF or of a stream (20_memory.md R60). -/
abbrev Byte := BitVec 8

/-- A register's contents, `XLEN = 32` bits (00_scope.md R7; the constant is `Config.xlen`, and `word_width` says the two agree). -/
abbrev Word := BitVec 32

end Sys2Proof
end

