-- ==== Sys2Proof/Config.lean ====
section
/-! DEFINITION. What an instance fixes: the constants of 00_scope.md R6 and R7, the two open capacities, and the free values of the host reads whose value the spec leaves unspecified. -/

namespace Sys2Proof

/-- The two OPEN parameters of an instance (00_scope.md R7, 93_implementation_defined.md U7). They travel with the state so that
every statement about a state holds of every instance. -/
structure Caps where
  /-- `IBUF_CAP`, in bytes -/
  ibufCap : Nat
  /-- `OBUF_CAP`, in bytes -/
  obufCap : Nat
  deriving DecidableEq, Repr

/-- The range of R7: `1 <= IBUF_CAP <= 2^28` and `1 <= OBUF_CAP <= 2^28`. -/
abbrev Caps.InRange (c : Caps) : Prop :=
  1 ≤ c.ibufCap ∧ c.ibufCap ≤ 2 ^ 28 ∧ 1 ≤ c.obufCap ∧ c.obufCap ≤ 2 ^ 28

/-- The port through which the host reads (20_memory.md R66 to R68). -/
inductive Port where
  | reg
  | ibuf
  | obuf
  deriving DecidableEq, Repr

/-- The byte order of a multi-byte field of a stream (20_memory.md R61). -/
inductive ByteOrder where
  /-- most significant byte first -/
  | big
  /-- least significant byte first; no field of the FCE has it -/
  | little
  deriving DecidableEq, Repr

namespace Config

/-- `XLEN` (R7, D4): the width of every register, which is the width of `Word`. -/
def xlen : Nat := 32

/-- ID register (10_state.md R37). -/
def idValue : Word := 0x46434507#32

/-- `BITS_MAX` (R6). -/
def bitsMax : Nat := 32

/-- `CRC_POLY` (R6). -/
def crcPoly : Word := 0xEDB88320#32
/-- `CRC_INIT` (R6). -/
def crcInit : Word := 0xFFFFFFFF#32
/-- `CRC_XOROUT` (R6). -/
def crcXorOut : Word := 0xFFFFFFFF#32

/-- `HUFF_SYMS` (R6). -/
def huffSyms : Nat := 256
/-- `HUFF_SENTINEL` (R6). -/
def huffSentinel : List Byte := [0xFF#8, 0xFF#8, 0xFF#8, 0xFF#8, 0xFF#8]
/-- `HUFF_LEFT_BIT` is 0: the code bit of a step to the left child (R7, D22). -/
def huffLeftBit : Bool := false
/-- `HUFF_FREQ_ORDER` is big-endian: the byte order of a frequency in the Huffman header (R7, D20). -/
def huffFreqOrder : ByteOrder := .big

/-- `LZ_WINDOW` (R6). -/
def lzWindow : Nat := 4096
/-- `LZ_LOOKAHEAD` (R6). -/
def lzLookahead : Nat := 18
/-- `LZ_MIN` (R6). -/
def lzMin : Nat := 3
/-- `LZ_SHORT_MAXOFF` (R6). -/
def lzShortMaxOff : Nat := 255
/-- `LZ_SHORT_MAXLEN` (R6). -/
def lzShortMaxLen : Nat := 18
/-- `LZ_ESCAPE` (R6). -/
def lzEscape : Byte := 0x80#8
/-- `LZ_LONG` (R6). -/
def lzLong : Byte := 0xFF#8
/-- `LZ_FLAG` (R7, D27). -/
def lzFlag : Byte := 0x01#8
/-- `LZ_SHORT_BASE` (R7, D28). -/
def lzShortBase : Byte := 0xC0#8
/-- `LZ_LONG_LEN_BIAS`: LONG's length byte holds the length less this (R7, D29). -/
def lzLongLenBias : Nat := 0

/-- `MTF_SYMS` (R6). -/
def mtfSyms : Nat := 256

/-- `HC_MAGIC`, tag bytes 0 to 2 (R6). -/
def hcMagic : List Byte := [0xAD#8, 0xEF#8, 0x01#8]
/-- `HC_STAGE_HUFF` (R7, D43). -/
def hcStageHuff : Byte := 1#8
/-- `HC_STAGE_BMH` (R7, D43). -/
def hcStageBmh : Byte := 2#8
/-- `HC_STAGE_RC` (R7, D43). -/
def hcStageRc : Byte := 3#8
/-- `HC_REP_PCT` (R6). -/
def hcRepPct : Nat := 30
/-- `HC_TEXT_PCT` (R6). -/
def hcTextPct : Nat := 80

/-- `RC_LIMIT(n)` (R6). -/
def rcLimit (n : Nat) : Nat := n + n / 5 + 1024
/-- `RC_PROB_BITS` (R7, D37). -/
def rcProbBits : Nat := 11
/-- `RC_MOVE_BITS` (R7, D37). -/
def rcMoveBits : Nat := 5
/-- `RC_TOP` (R7, D37). -/
def rcTop : Nat := 2 ^ 24
/-- `RC_PROB_INIT` (R7, D37). -/
def rcProbInit : Nat := 1024

/-- FREE VALUE (93 U3): what a host read of a register returns when the spec leaves it unspecified, for the epoch and the
register number. No body: no proof can see a value of it (notes/assumptions/5.md). -/
opaque freeWord : Nat → Nat → Word

/-- FREE VALUE (93 U2, U3, U4): what a host read of a buffer byte returns when the spec leaves it unspecified, for the epoch, the
port and the index (notes/assumptions/5.md). -/
opaque freeByte : Nat → Port → Nat → Byte

end Config
end Sys2Proof
end

