-- ==== Sys2Proof/Syntax.lean ====
section
/-! DEFINITION. The instructions: one constructor for each row of spec/opcode_table.json. The 33 commands carry no operand (30_encoding.md
R90: operands are in registers and buffers); the four LZ77 tokens and the three Hardcore tags are the rows of the data streams
(R99 to R102, R108). -/

namespace Sys2Proof

/-- One row of the opcode table each, in the table's order. -/
inductive Instr where
  /-- NOP (R131) -/
  | nop
  /-- XFER (R132) -/
  | xfer
  /-- BR_CREATE (R142) -/
  | brCreate
  /-- BR_READ_BIT (R143) -/
  | brReadBit
  /-- BR_READ_BITS (R144) -/
  | brReadBits
  /-- BR_READ_BYTE (R145) -/
  | brReadByte
  /-- BR_SKIP_BITS (R147) -/
  | brSkipBits
  /-- BR_ALIGN (R148) -/
  | brAlign
  /-- BR_SEEK (R149) -/
  | brSeek
  /-- BW_CREATE (R152) -/
  | bwCreate
  /-- BW_WRITE_BIT (R153) -/
  | bwWriteBit
  /-- BW_WRITE_BITS (R154) -/
  | bwWriteBits
  /-- BW_FLUSH (R155) -/
  | bwFlush
  /-- CRC_CALC (R173) -/
  | crcCalc
  /-- CRC_VERIFY (R174) -/
  | crcVerify
  /-- CRC_CREATE (R175) -/
  | crcCreate
  /-- CRC_UPDATE (R176) -/
  | crcUpdate
  /-- CRC_FINALIZE (R177) -/
  | crcFinalize
  /-- CRC_DESTROY (R178) -/
  | crcDestroy
  /-- HUFF_COMPRESS (R198) -/
  | huffCompress
  /-- HUFF_DECOMPRESS (R201) -/
  | huffDecompress
  /-- LZ77_COMPRESS (R225) -/
  | lz77Compress
  /-- LZ77_DECOMPRESS (R229) -/
  | lz77Decompress
  /-- BWT_FWD (R253) -/
  | bwtFwd
  /-- BWT_INV (R256) -/
  | bwtInv
  /-- MTF_ENC (R259) -/
  | mtfEnc
  /-- MTF_DEC (R261) -/
  | mtfDec
  /-- BMH_COMPRESS (R264) -/
  | bmhCompress
  /-- BMH_DECOMPRESS (R266) -/
  | bmhDecompress
  /-- RC_COMPRESS (R290) -/
  | rcCompress
  /-- RC_DECOMPRESS (R293) -/
  | rcDecompress
  /-- HC_COMPRESS (R314) -/
  | hcCompress
  /-- HC_DECOMPRESS (R317) -/
  | hcDecompress
  /-- LZ77.LIT (R99): the literal byte, below 0x80 -/
  | lz77Lit (b : Byte)
  /-- LZ77.ESC (R100): the literal byte, any -/
  | lz77Esc (b : Byte)
  /-- LZ77.SHORT (R101): the match length, 3 to 18, and the offset byte -/
  | lz77Short (len : Nat) (off : Byte)
  /-- LZ77.LONG (R102): the length byte and the 16-bit offset -/
  | lz77Long (len : Byte) (off : BitVec 16)
  /-- HC.TAG_HUFF (R108) -/
  | hcTagHuff
  /-- HC.TAG_BMH (R108) -/
  | hcTagBmh
  /-- HC.TAG_RC (R108) -/
  | hcTagRc
  deriving DecidableEq, Repr

end Sys2Proof
end

