-- ==== Sys2Proof/WellFormed.lean ====
section
/-! DEFINITION. Which instructions have an encoding: the operand ranges of the token rows (30_encoding.md R99, R101). -/

namespace Sys2Proof

/-- LIT encodes only bytes `0x00` to `0x7F` (R99). -/
def litInRange (b : Byte) : Bool := decide (b.toNat < 0x80)

/-- SHORT's 4-bit field encodes only lengths 3 to 18 (R101). -/
def shortLenInRange (len : Nat) : Bool := decide (Config.lzMin ≤ len ∧ len ≤ Config.lzShortMaxLen)

/-- An instruction some code stands for. The commands and the tags carry no operand; ESC and LONG encode every value of their
fields (a LONG length or an offset outside R220's ranges is an error of the token when it runs, 44_lz77.md R227). -/
def Instr.wellFormed : Instr → Bool
  | .nop | .xfer => true
  | .brCreate | .brReadBit | .brReadBits | .brReadByte | .brSkipBits | .brAlign | .brSeek => true
  | .bwCreate | .bwWriteBit | .bwWriteBits | .bwFlush => true
  | .crcCalc | .crcVerify | .crcCreate | .crcUpdate | .crcFinalize | .crcDestroy => true
  | .huffCompress | .huffDecompress | .lz77Compress | .lz77Decompress => true
  | .bwtFwd | .bwtInv | .mtfEnc | .mtfDec | .bmhCompress | .bmhDecompress => true
  | .rcCompress | .rcDecompress | .hcCompress | .hcDecompress => true
  | .lz77Lit b => litInRange b
  | .lz77Esc _ => true
  | .lz77Short len _ => shortLenInRange len
  | .lz77Long _ _ => true
  | .hcTagHuff | .hcTagBmh | .hcTagRc => true

end Sys2Proof
end

