-- ==== Sys2Proof/Decode.lean ====
section
/-! DEFINITION. The byte-order helpers, the decoder of the three formats of the opcode table (command words, LZ77 tokens, Hardcore
tags) and the encoder, each written from the encoding rules of 30_encoding.md. -/

namespace Sys2Proof

/-! ## Multi-byte fields (00_scope.md R11; every one is big-endian, 20_memory.md R61) -/

/-- `BE32(v)`: the four bytes of a value below 2^32, most significant first (R11). -/
def be32 (v : Nat) : List Byte :=
  [BitVec.ofNat 8 (v / 2 ^ 24), BitVec.ofNat 8 (v / 2 ^ 16), BitVec.ofNat 8 (v / 2 ^ 8), BitVec.ofNat 8 v]

/-- `UBE32` of the four bytes given (R11). -/
def ube32 (b0 b1 b2 b3 : Byte) : Nat :=
  b0.toNat * 2 ^ 24 + b1.toNat * 2 ^ 16 + b2.toNat * 2 ^ 8 + b3.toNat

/-- The four bytes of a 32-bit field in the byte order given. -/
def field32 (o : ByteOrder) (v : Nat) : List Byte :=
  match o with
  | .big => be32 v
  | .little => (be32 v).reverse

/-- The value of a 32-bit field whose bytes in stream order are given. -/
def ufield32 (o : ByteOrder) (b0 b1 b2 b3 : Byte) : Nat :=
  match o with
  | .big => ube32 b0 b1 b2 b3
  | .little => ube32 b3 b2 b1 b0

/-- `BE16(v)` of a 16-bit field (R11). -/
def be16 (v : BitVec 16) : List Byte :=
  [v.extractLsb' 8 8, v.extractLsb' 0 8]

/-- `UBE16` of the two bytes given, as the 16-bit field (R11). -/
def ube16 (hi lo : Byte) : BitVec 16 := hi ++ lo

/-! ## Decoding -/

/-- Why a code is no instruction. -/
inductive DecodeError where
  /-- bits 31:8 of a command word are not 0 (R93) -/
  | reservedBits
  /-- the opcode byte is not one of the 33 of R92 (R93) -/
  | unknownOpcode
  /-- a token's first byte is in 0x81 to 0xBF or 0xD0 to 0xFE (R103) -/
  | reservedToken
  /-- the stream ends inside a token or a tag (44 R227, 47 R315) -/
  | cutShort
  /-- the first three bytes are not AD EF 01 (47 R316) -/
  | badMagic
  /-- the stage byte is not 1, 2 or 3 (47 R316) -/
  | unknownStage
  deriving DecidableEq, Repr

/-- The command table, opcode byte by opcode byte (R92). -/
def commandTable : List (Byte × Instr) :=
  [ (0x00#8, .nop), (0x01#8, .xfer),
    (0x10#8, .brCreate), (0x11#8, .brReadBit), (0x12#8, .brReadBits), (0x13#8, .brReadByte),
    (0x14#8, .brSkipBits), (0x15#8, .brAlign), (0x16#8, .brSeek),
    (0x18#8, .bwCreate), (0x19#8, .bwWriteBit), (0x1A#8, .bwWriteBits), (0x1C#8, .bwFlush),
    (0x20#8, .crcCalc), (0x21#8, .crcVerify), (0x22#8, .crcCreate), (0x23#8, .crcUpdate),
    (0x24#8, .crcFinalize), (0x25#8, .crcDestroy),
    (0x30#8, .huffCompress), (0x31#8, .huffDecompress),
    (0x40#8, .lz77Compress), (0x41#8, .lz77Decompress),
    (0x50#8, .bwtFwd), (0x51#8, .bwtInv), (0x52#8, .mtfEnc), (0x53#8, .mtfDec),
    (0x54#8, .bmhCompress), (0x55#8, .bmhDecompress),
    (0x60#8, .rcCompress), (0x61#8, .rcDecompress),
    (0x70#8, .hcCompress), (0x71#8, .hcDecompress) ]

/-- The first entry of a table under a key. -/
def lookupByte {α : Type} (k : Byte) : List (Byte × α) → Option α
  | [] => none
  | (k', v) :: rest => if k = k' then some v else lookupByte k rest

/-- OPCODE, bits 7:0 of the command word (R90). -/
def opcodeField (w : Word) : Byte := w.extractLsb' 0 8

/-- RSV, bits 31:8 of the command word (R90). -/
def rsvField (w : Word) : BitVec 24 := w.extractLsb' 8 24

/-- The command a word written to CMD names (R92, R93). -/
def decodeCommand (w : Word) : Except DecodeError Instr :=
  if rsvField w ≠ 0#24 then .error .reservedBits
  else
    match lookupByte (opcodeField w) commandTable with
    | some i => .ok i
    | none => .error .unknownOpcode

/-- Whether a token's first byte is SHORT's: the base of R7 plus a length it can carry, less `LZ_MIN` (R101). -/
def isShortByte (t : Byte) : Bool :=
  decide (Config.lzShortBase.toNat ≤ t.toNat ∧ t.toNat ≤ Config.lzShortBase.toNat + (Config.lzShortMaxLen - Config.lzMin))

/-- SHORT's first byte for a length (R7 `LZ_SHORT_BASE`, R101). -/
def shortByte (len : Nat) : Byte := Config.lzShortBase + BitVec.ofNat 8 (len - Config.lzMin)

/-- The length SHORT's first byte carries (R101). -/
def shortLen (t : Byte) : Nat := t.toNat - Config.lzShortBase.toNat + Config.lzMin

/-- The token at the front of an LZ77 token stream and the bytes after it (R99 to R104). -/
def decodeToken : List Byte → Except DecodeError (Instr × List Byte)
  | [] => .error .cutShort
  | t :: rest =>
    if t.toNat < 0x80 then .ok (.lz77Lit t, rest)
    else if t = Config.lzEscape then
      match rest with
      | b :: rest' => .ok (.lz77Esc b, rest')
      | _ => .error .cutShort
    else if isShortByte t then
      match rest with
      | o :: rest' => .ok (.lz77Short (shortLen t) o, rest')
      | _ => .error .cutShort
    else if t = Config.lzLong then
      match rest with
      | l :: hh :: oo :: rest' => .ok (.lz77Long l (ube16 hh oo), rest')
      | _ => .error .cutShort
    else .error .reservedToken

/-- The tag instruction of a stage byte (R108). -/
def decodeStage (b : Byte) : Except DecodeError Instr :=
  if b = Config.hcStageHuff then .ok .hcTagHuff
  else if b = Config.hcStageBmh then .ok .hcTagBmh
  else if b = Config.hcStageRc then .ok .hcTagRc
  else .error .unknownStage

/-- The Hardcore tag at the front of a stream (R107, R108; the magic is checked before the stage, 47 R316). -/
def decodeTag : List Byte → Except DecodeError Instr
  | m0 :: m1 :: m2 :: st :: _ =>
    if [m0, m1, m2] = Config.hcMagic then decodeStage st else .error .badMagic
  | _ => .error .cutShort

/-- A code in one of the table's three formats. -/
inductive Code where
  /-- format CMD: the word in register CMD -/
  | cmd (w : Word)
  /-- format LZ77TOK: bytes of the token stream, in stream order -/
  | token (bs : List Byte)
  /-- format HCTAG: bytes of the Hardcore stream, in stream order -/
  | tag (bs : List Byte)
  deriving DecidableEq, Repr

/-- The instruction a code stands for; total, and a code that is none is rejected by name. -/
def decode : Code → Except DecodeError Instr
  | .cmd w => decodeCommand w
  | .token bs => (decodeToken bs).map Prod.fst
  | .tag bs => decodeTag bs

/-! ## Encoding -/

/-- The opcode byte of a command (R92); the stream rows have none. -/
def opcodeOf : Instr → Option Byte
  | .nop => some 0x00#8
  | .xfer => some 0x01#8
  | .brCreate => some 0x10#8
  | .brReadBit => some 0x11#8
  | .brReadBits => some 0x12#8
  | .brReadByte => some 0x13#8
  | .brSkipBits => some 0x14#8
  | .brAlign => some 0x15#8
  | .brSeek => some 0x16#8
  | .bwCreate => some 0x18#8
  | .bwWriteBit => some 0x19#8
  | .bwWriteBits => some 0x1A#8
  | .bwFlush => some 0x1C#8
  | .crcCalc => some 0x20#8
  | .crcVerify => some 0x21#8
  | .crcCreate => some 0x22#8
  | .crcUpdate => some 0x23#8
  | .crcFinalize => some 0x24#8
  | .crcDestroy => some 0x25#8
  | .huffCompress => some 0x30#8
  | .huffDecompress => some 0x31#8
  | .lz77Compress => some 0x40#8
  | .lz77Decompress => some 0x41#8
  | .bwtFwd => some 0x50#8
  | .bwtInv => some 0x51#8
  | .mtfEnc => some 0x52#8
  | .mtfDec => some 0x53#8
  | .bmhCompress => some 0x54#8
  | .bmhDecompress => some 0x55#8
  | .rcCompress => some 0x60#8
  | .rcDecompress => some 0x61#8
  | .hcCompress => some 0x70#8
  | .hcDecompress => some 0x71#8
  | .lz77Lit _ | .lz77Esc _ | .lz77Short _ _ | .lz77Long _ _ => none
  | .hcTagHuff | .hcTagBmh | .hcTagRc => none

/-- The bytes of a token row in stream order (R99 to R102); no byte for the other rows. -/
def tokenBytes : Instr → List Byte
  | .lz77Lit b => [b]
  | .lz77Esc b => [Config.lzEscape, b]
  | .lz77Short len off => [shortByte len, off]
  | .lz77Long len off => [Config.lzLong, len] ++ be16 off
  | _ => []

/-- The stage byte of a tag row (R108). -/
def stageByte : Instr → Option Byte
  | .hcTagHuff => some Config.hcStageHuff
  | .hcTagBmh => some Config.hcStageBmh
  | .hcTagRc => some Config.hcStageRc
  | _ => none

/-- The code of an instruction, in its row's format. -/
def encode (i : Instr) : Code :=
  match opcodeOf i with
  | some op => .cmd (op.setWidth 32)
  | none =>
    match stageByte i with
    | some st => .tag (Config.hcMagic ++ [st])
    | none => .token (tokenBytes i)

/-! ## The opcode table's own numbering -/

/-- The four bytes of a 32-bit number as a stream stores a big-endian word (R108: "As a 32-bit big-endian word the three tags are …"). -/
def tagBytesOfNat (w : Nat) : List Byte := be32 w

/-- Bytes of a token row from the table's number: the first byte is bits 7:0, the second bits 15:8 and so on, up to the longest
token (four bytes), every bit above `nbits` 0. -/
def tokenBytesOfNat (nbits w : Nat) : List Byte :=
  let v := w % 2 ^ nbits
  [BitVec.ofNat 8 v, BitVec.ofNat 8 (v / 2 ^ 8), BitVec.ofNat 8 (v / 2 ^ 16), BitVec.ofNat 8 (v / 2 ^ 24)]

/-- The code a table number stands for (notes/assumptions/11.md): a 32-bit number is a Hardcore tag where its big-endian bytes are
one, the token LONG where its first byte is `0xFF` (no opcode of R92 is), and a command word otherwise; a number of 8, 16 or 24 bits is
a token. -/
def codeOfTableWord (nbits w : Nat) : Option Code :=
  if nbits = Config.xlen then
    match decodeTag (tagBytesOfNat w) with
    | .ok _ => some (.tag (tagBytesOfNat w))
    | .error _ =>
      if w % 2 ^ 8 = 0xFF then some (.token (tokenBytesOfNat nbits w)) else some (.cmd (BitVec.ofNat 32 w))
  else if nbits = 8 ∨ nbits = 16 ∨ nbits = 24 then some (.token (tokenBytesOfNat nbits w))
  else none

/-- The instruction the decoder reads from a row's bits, numbered as spec/opcode_table.json numbers them. -/
def decodeTableWord (nbits w : Nat) : Option Instr :=
  match codeOfTableWord nbits w with
  | none => none
  | some c =>
    match decode c with
    | .ok i => some i
    | .error _ => none

end Sys2Proof
end

