-- ==== Sys2Proof/Machine/State.lean ====
section
/-! DEFINITION. The state of one FCE instance as plain data (10_state.md R20, R21), the error kinds (60_exceptions.md R331), the reasons a
step can stop, and the state after reset (70_reset_and_hazards.md R360, R361). -/

namespace Sys2Proof.Machine

/-- The twelve error kinds of R331. The engine raises seven of them (R332); the other five belong to the host's software and are kept
for their codes. An error is not a stop of the model: the failing command completes (R330). -/
inductive ErrKind where
  | invalidParameter
  | outOfMemory
  | invalidMagic
  | unsupportedVersion
  | corruptedHeader
  | truncatedData
  | invalidAlgorithm
  | compressionFailed
  | decompressionFailed
  | sizeMismatch
  | checksumFailed
  | ioError
  deriving DecidableEq, Repr

/-- Faults of the machine: none. "Nothing in the FCE is stuck" (93_implementation_defined.md section 1); an error completes the command. -/
inductive Fault where
  deriving DecidableEq, Repr

/-- Where the spec itself gives a step no effect. -/
inductive Refusal where
  /-- An instruction without a meaning; raised by exec's arms only. Safe: the model goes no further. -/
  | notModelled (mnemonic : String)
  /-- A command whose input range holds a byte never written since reset (20_memory.md R69, 93 U1: "a model refuses such a command").
  Raised by the commands that read IBUF (and, in states no run reaches, OBUF). Safe: the hardware goes on with unspecified results. -/
  | unwrittenInput
  deriving DecidableEq, Repr

/-- A byte buffer: the bytes whose written mark is set (20_memory.md R69), by index. Canonical form: indices strictly rising. An index
that is not listed has no value (notes/assumptions/17.md). -/
abbrev Memory := List Host.Cell

/-- One access of the host (20_memory.md R66 to R68), or the reset event (70 R360). -/
inductive HostAction where
  /-- the reset event -/
  | reset
  /-- `HostWriteReg(r, v)` -/
  | writeReg (r : Nat) (v : Word)
  /-- `HostReadReg(r)` -/
  | readReg (r : Nat)
  /-- `HostWriteIBUF(i, b)` -/
  | writeIbuf (i : Nat) (b : Byte)
  /-- `HostReadIBUF(i)` -/
  | readIbuf (i : Nat)
  /-- `HostReadOBUF(i)` -/
  | readObuf (i : Nat)
  deriving DecidableEq, Repr

/-- Whose step comes next (10 R20: two agents; 93 U6: any finite number of host steps before the engine's). -/
inductive Turn where
  /-- the host makes one access -/
  | host (a : HostAction)
  /-- the engine performs the pending command, if there is one -/
  | engine
  deriving DecidableEq, Repr

/-- Which decoder the engine's turn goes through (notes/assumptions/9.md). A run from reset only ever uses `command`. -/
inductive FetchSource where
  /-- the word in CMD (70 R366) -/
  | command
  /-- the Hardcore tag at the front of `IBUF[0..ILEN)` (47 R315) -/
  | hcTag
  /-- the LZ77 token at the replay's cursor in `IBUF[0..ILEN)` (44 R227) -/
  | lzToken
  deriving DecidableEq, Repr

/-- The scratch of an LZ77 token replay (44 R227; 10 R44: gone when the command completes). -/
structure LzReplay where
  /-- `N`, the declared size -/
  declared : Nat
  /-- index in the stream of the next token's first byte -/
  pos : Nat
  /-- `out`, most recent byte first -/
  outRev : List Byte
  deriving DecidableEq, Repr

/-- No replay in progress. -/
def LzReplay.empty : LzReplay := { declared := 0, pos := 0, outRev := [] }

/-- One FCE instance. The seventeen registers of R21 hold their whole 32-bit words; their fields are read and built in Flags.lean and
Operands.lean. -/
structure State where
  /-- the instance's capacities (00 R7); no step changes them (10 R47) -/
  caps : Caps
  /-- register 0, CMD (R25) -/
  cmd : Word
  /-- register 1, STATUS (R26) -/
  status : Word
  /-- register 2, ERRCODE (R27) -/
  errcode : Word
  /-- register 3, ARG0 (R22) -/
  arg0 : Word
  /-- register 4, ARG1 (R22) -/
  arg1 : Word
  /-- register 5, RES0 (R22) -/
  res0 : Word
  /-- register 6, RES1 (R22) -/
  res1 : Word
  /-- register 7, ILEN (R28) -/
  ilen : Word
  /-- register 8, OLEN (R29) -/
  olen : Word
  /-- register 9, BR_CTRL (R30) -/
  brCtrl : Word
  /-- register 10, BR_LEN (R31) -/
  brLen : Word
  /-- register 11, BR_BITS (R32) -/
  brBits : Word
  /-- register 12, BR_BYTES (R33) -/
  brBytes : Word
  /-- register 13, BW_CTRL (R34) -/
  bwCtrl : Word
  /-- register 14, CRC_CTRL (R35) -/
  crcCtrl : Word
  /-- register 15, CRC_ACC (R36) -/
  crcAcc : Word
  /-- register 16, ID (R37) -/
  ident : Word
  /-- IBUF (R38): its written bytes -/
  ibuf : Memory
  /-- OBUF (R39): its valid bytes -/
  obuf : Memory
  /-- the model's own: which decoder the engine's turn goes through -/
  fetch : FetchSource
  /-- the model's own: the scratch of a token replay -/
  lz : LzReplay
  /-- the model's own: the turns to come -/
  schedule : List Turn
  /-- the model's own: the values the host's reads returned, newest first (a byte in bits 7:0) -/
  hostReads : List Word
  /-- the model's own: counts the writes, completions and resets, between which an unspecified read keeps its value (20 R65) -/
  epoch : Nat
  deriving DecidableEq, Repr

/-- The state after reset of an instance with the capacities given: every register at the reset column of R21, no written byte
(R46, R360, R361). -/
def State.resetOf (c : Caps) : State where
  caps := c
  cmd := 0
  status := 0
  errcode := 0
  arg0 := 0
  arg1 := 0
  res0 := 0
  res1 := 0
  ilen := 0
  olen := 0
  brCtrl := 0
  brLen := 0
  brBits := 0
  brBytes := 0
  bwCtrl := 0
  crcCtrl := 0
  crcAcc := 0
  ident := Config.idValue
  ibuf := []
  obuf := []
  fetch := .command
  lz := LzReplay.empty
  schedule := []
  hostReads := []
  epoch := 0

/-- The capacities of the instance that `State.reset` stands for: the one the spec's vectors assume (95_test_vectors.md). DESIGN
CHOICE (unsafe): notes/assumptions/1.md. -/
def resetCaps : Caps := { ibufCap := 65536, obufCap := 65536 }

/-- The machine right after reset. -/
def State.reset : State := State.resetOf resetCaps

end Sys2Proof.Machine
end

