-- ==== Sys2Proof/Machine/Flags.lean ====
section
/-! DEFINITION. STATUS and ERRCODE: the flags, the numeric code of each error kind, and the two flag updates the machine makes, starting a
command and completing one (10_state.md R26, R27; 60_exceptions.md R331; 70_reset_and_hazards.md R365). -/

namespace Sys2Proof.Machine

/-- STATUS with the four flags given and bits 31:4 zero (R26). -/
def statusWord (busy done err haz : Bool) : Word :=
  (if busy then 1#32 else 0#32) ||| (if done then 2#32 else 0#32) ||| (if err then 4#32 else 0#32) ||| (if haz then 8#32 else 0#32)

/-- `STATUS.BUSY`, bit 0. -/
def State.busy (s : State) : Bool := s.status.getLsbD 0
/-- `STATUS.DONE`, bit 1. -/
def State.done (s : State) : Bool := s.status.getLsbD 1
/-- `STATUS.ERR`, bit 2. -/
def State.err (s : State) : Bool := s.status.getLsbD 2
/-- `STATUS.HAZ`, bit 3. -/
def State.haz (s : State) : Bool := s.status.getLsbD 3

/-- The numeric code of an error kind (R331). -/
def ErrKind.code : ErrKind → Word
  | .invalidParameter => 1#32
  | .outOfMemory => 2#32
  | .invalidMagic => 3#32
  | .unsupportedVersion => 4#32
  | .corruptedHeader => 5#32
  | .truncatedData => 6#32
  | .invalidAlgorithm => 7#32
  | .compressionFailed => 8#32
  | .decompressionFailed => 9#32
  | .sizeMismatch => 10#32
  | .checksumFailed => 11#32
  | .ioError => 12#32

/-- The kinds the engine raises (R331, column "raised by the FCE"). -/
def ErrKind.raised : ErrKind → Bool
  | .invalidParameter | .invalidMagic | .truncatedData | .invalidAlgorithm => true
  | .compressionFailed | .decompressionFailed | .sizeMismatch => true
  | .outOfMemory | .unsupportedVersion | .corruptedHeader | .checksumFailed | .ioError => false

/-- STATUS when a command starts: BUSY set, DONE and ERR cleared, HAZ kept (R365). -/
def statusStart (s : State) : Word := statusWord true false false s.haz

/-- STATUS when a command completes: BUSY cleared, DONE set, ERR as the outcome says, HAZ kept (40 R130 "Complete"). -/
def statusComplete (s : State) (err : Bool) : Word := statusWord false true err s.haz

/-- STATUS when the host's write was dropped: HAZ set, the other flags kept (R368). -/
def statusHazard (s : State) : Word := statusWord s.busy s.done s.err true

end Sys2Proof.Machine
end

