-- ==== Sys2Proof/Machine/Operands.lean ====
section
/-! DEFINITION. The operand forms: the one-bit operand of ARG0 (30_encoding.md R91), the fields of BR_CTRL, BW_CTRL and CRC_CTRL
(10_state.md R30, R34, R35), and the bit order of streams (20_memory.md R62). -/

namespace Sys2Proof.Machine

/-! ## ARG0 -/

/-- `ARG0[0]`: the kind of BR_CREATE, the bit of BW_WRITE_BIT, the source of the CRC commands (R91). -/
def State.arg0Bit (s : State) : Bool := s.arg0.getLsbD 0

/-! ## Bit order (R62) -/

/-- Bit `p mod 8` in stream order of a byte: bit 7 - (p mod 8) of the byte. -/
def bitOfByte (b : Byte) (p : Nat) : Bool := b.getLsbD (7 - p % 8)

/-- `bit_at(s, p)` of R62; false beyond the end, where R62 does not define it and no rule reads it. -/
def bitAt (s : List Byte) (p : Nat) : Bool := bitOfByte (s.getD (p / 8) 0#8) p

/-- The eight bits of a byte in stream order. -/
def bitsOfByte (b : Byte) : List Bool := (List.range 8).map (bitOfByte b)

/-- The bit stream of a byte sequence. -/
def bitsOf (s : List Byte) : List Bool := s.flatMap bitsOfByte

/-- The value of bits read most significant first (R62). -/
def bitsValue (bs : List Bool) : Nat := bs.foldl (fun v b => 2 * v + b.toNat) 0

/-- The byte whose bits in stream order are the ones given, zero bits after them where there are fewer than eight. -/
def byteOfBits (bs : List Bool) : Byte := BitVec.ofNat 8 (bitsValue ((bs ++ List.replicate (8 - bs.length) false).take 8))

/-- The bytes of a bit stream, the last one padded with 0 bits (30 R95, 43 R196). -/
def packBits : List Bool → List Byte
  | [] => []
  | b0 :: b1 :: b2 :: b3 :: b4 :: b5 :: b6 :: b7 :: rest => byteOfBits [b0, b1, b2, b3, b4, b5, b6, b7] :: packBits rest
  | bs => [byteOfBits bs]

/-! ## The bit reader's registers (R30 to R33) -/

/-- `BR_CTRL.VALID`, bit 0. -/
def State.brValid (s : State) : Bool := s.brCtrl.getLsbD 0
/-- `BR_CTRL.KIND`, bit 1: true for file-backed. -/
def State.brKind (s : State) : Bool := s.brCtrl.getLsbD 1

/-- BR_CTRL with its two fields and bits 31:2 zero. -/
def brCtrlWord (valid kind : Bool) : Word := (if valid then 1#32 else 0#32) ||| (if kind then 2#32 else 0#32)

/-- BR_CTRL with `VALID = 0` and KIND kept (70 R370). -/
def brInvalidated (s : State) : Word := s.brCtrl &&& 0xFFFFFFFE#32

/-- `avail = 8*L - p`, the bits left (41 R141). -/
def State.brAvail (s : State) : Nat := 8 * s.brLen.toNat - s.brBits.toNat

/-- `ceil8(p)` (00 R9). -/
def ceil8 (p : Nat) : Nat := (p + 7) / 8 * 8

/-! ## The bit writer's registers (R34) -/

/-- `BW_CTRL.VALID`, bit 0. -/
def State.bwValid (s : State) : Bool := s.bwCtrl.getLsbD 0
/-- `BW_CTRL.NBITS`, bits 10:8. -/
def State.bwNbits (s : State) : Nat := (s.bwCtrl.extractLsb' 8 3).toNat
/-- `BW_CTRL.ACC`, bits 23:16. -/
def State.bwAcc (s : State) : Byte := s.bwCtrl.extractLsb' 16 8

/-- BW_CTRL of a valid writer: VALID = 1, NBITS, ACC, all other bits zero. -/
def bwCtrlWord (nbits : Nat) (acc : Byte) : Word :=
  BitVec.ofNat 32 (1 + nbits % 8 * 2 ^ 8 + acc.toNat * 2 ^ 16)

/-! ## The CRC context's register (R35) -/

/-- `CRC_CTRL.STATE`, bits 1:0. -/
def State.crcState (s : State) : BitVec 2 := s.crcCtrl.extractLsb' 0 2

/-- STATE NONE. -/
def crcNone : BitVec 2 := 0#2
/-- STATE ACTIVE. -/
def crcActive : BitVec 2 := 1#2
/-- STATE FINAL. -/
def crcFinal : BitVec 2 := 2#2

/-- CRC_CTRL with its field and bits 31:2 zero. -/
def crcCtrlWord (st : BitVec 2) : Word := st.setWidth 32

end Sys2Proof.Machine
end

