-- ==== Sys2Proof/Machine/Ops.lean ====
section
/-! DEFINITION. The shared operations: the buffers (20_memory.md R60, R64, R69), starting and completing a command, with success or with an
error (40_control.md R130, 60_exceptions.md R333), and the input checks and output step every codec command shares. -/

namespace Sys2Proof.Machine

/-- What a step or a meaning answers. -/
abbrev Result := Host.Outcome State Fault Refusal

/-! ## Buffers -/

/-- The canonical form: indices strictly rising. -/
def Memory.wf : Memory → Bool
  | [] => true
  | [_] => true
  | (a, _) :: (b, c) :: m => decide (a < b) && Memory.wf ((b, c) :: m)

/-- The byte at an index, if its written mark is set (R69). -/
def Memory.read : Memory → Nat → Option Byte
  | [], _ => none
  | (k, b) :: m, a => if k = a then some b else Memory.read m a

/-- Store one byte and set its mark; keeps the canonical form. -/
def Memory.write : Memory → Nat → Byte → Memory
  | [], a, b => [(a, b)]
  | (k, c) :: m, a, b =>
    if a < k then (a, b) :: (k, c) :: m
    else if a = k then (a, b) :: m
    else (k, c) :: Memory.write m a b

/-- `MemRead(a, n)`: `n` single-byte reads in increasing order (R64); none where one of the bytes has no mark. -/
def Memory.readRange (m : Memory) (a : Nat) : Nat → Option (List Byte)
  | 0 => some []
  | n + 1 =>
    match m.read a with
    | none => none
    | some b => (Memory.readRange m (a + 1) n).map (b :: ·)

/-- `MemWrite(a, n, v)`: single-byte writes in increasing order (R64). -/
def Memory.writeBytes (m : Memory) (a : Nat) : List Byte → Memory
  | [] => m
  | b :: bs => Memory.writeBytes (m.write a b) (a + 1) bs

/-! ## Starting and completing a command -/

/-- A host write to CMD while the engine is idle (70 R365). -/
def startCommand (s : State) (w : Word) : State :=
  { s with cmd := w, status := statusStart s, errcode := 0, fetch := .command, lz := LzReplay.empty }

/-- "Complete" with success (40 R130): the results, ERRCODE 0, ERR and BUSY cleared, DONE set. The scratch is gone (10 R44). -/
def completeOk (s : State) (r0 r1 : Word) : State :=
  { s with res0 := r0, res1 := r1, errcode := 0, status := statusComplete s false,
           fetch := .command, lz := LzReplay.empty, epoch := s.epoch + 1 }

/-- "Complete with error K" (60 R333): ERRCODE, ERR and DONE set, BUSY cleared, `RES0 = RES1 = 0`. This is the machine's one way of taking
an error: nothing is saved and control goes nowhere (R340); the next write to CMD clears it (`startCommand`, R341). -/
def completeErr (s : State) (k : ErrKind) : State :=
  { s with res0 := 0, res1 := 0, errcode := k.code, status := statusComplete s true,
           fetch := .command, lz := LzReplay.empty, epoch := s.epoch + 1 }

/-- A command that ends with an error. -/
def failWith (s : State) (k : ErrKind) : Result := .next (completeErr s k)

/-- A command that succeeds. -/
def succeed (s : State) (r0 r1 : Word) : Result := .next (completeOk s r0 r1)

/-! ## Inputs -/

/-- Frame step 2 of the transform commands (40 R130, 70 R371): the bit writer is gone, OLEN is 0, no byte of OBUF is valid. -/
def takeOver (s : State) : State := { s with bwCtrl := 0, olen := 0, obuf := [] }

/-- The first `n` bytes of a buffer; an unwritten byte among them refuses the command (R69, U1). -/
def writtenRange (m : Memory) (n : Nat) (onInput : List Byte → Result) : Result :=
  match m.readRange 0 n with
  | none => .refused .unwrittenInput
  | some x => onInput x

/-- The bytes of `IBUF[0..ILEN)` (notes/assumptions/6.md). -/
def readInput (s : State) (onInput : List Byte → Result) : Result := writtenRange s.ibuf s.ilen.toNat onInput

/-- `IBUF[0..ILEN)` after frame step 3 (40 R130): CRC_CALC, CRC_VERIFY and CRC_UPDATE with `src = 0`. -/
def ibufRange (s : State) (onInput : List Byte → Result) : Result :=
  if s.caps.ibufCap < s.ilen.toNat then failWith s .invalidParameter else readInput s onInput

/-- `OBUF[0..OLEN)` (30 R91, `src = 1`; XFER; notes/assumptions/19.md). -/
def obufRange (s : State) (onInput : List Byte → Result) : Result := writtenRange s.obuf s.olen.toNat onInput

/-- The range `src = ARG0[0]` selects (30 R91): 0 for `IBUF[0..ILEN)`, 1 for `OBUF[0..OLEN)`. -/
def sourceRange (s : State) (onInput : List Byte → Result) : Result :=
  if s.arg0Bit then obufRange s onInput else ibufRange s onInput

/-- Frame steps 3 and 4 of a transform command, on a state that step 2 has made: the non-empty input `IN`, or how the command ends
without it (40 R130). -/
def transformBytes (s : State) : Except Result (List Byte) :=
  if s.caps.ibufCap < s.ilen.toNat then .error (failWith s .invalidParameter)
  else if s.ilen = 0 then .error (failWith s .invalidParameter)
  else
    match s.ibuf.readRange 0 s.ilen.toNat with
    | none => .error (.refused .unwrittenInput)
    | some x => .ok x

/-! ## Outputs -/

/-- The end of a transform command: an error, or the output checked against `OBUF_CAP`, stored from index 0, its length in OLEN and
RES0 (30 R94) and the second result in RES1. `full` is the kind raised when the output does not fit (92 D19). -/
def deliver (s : State) (full : ErrKind) (r : Except ErrKind (List Byte × Word)) : Result :=
  match r with
  | .error k => failWith s k
  | .ok (y, r1) =>
    if s.caps.obufCap < y.length then failWith s full
    else
      succeed { s with obuf := Memory.writeBytes s.obuf 0 y, olen := BitVec.ofNat 32 y.length } (BitVec.ofNat 32 y.length) r1

/-- A transform command (opcode 0x30 and above): frame steps 2 to 6 around its function of `IN`. -/
def transform (s : State) (full : ErrKind) (f : List Byte → Except ErrKind (List Byte × Word)) : Result :=
  match transformBytes (takeOver s) with
  | .error r => r
  | .ok x => deliver (takeOver s) full (f x)

/-- A function whose command returns no second result. -/
def withNoRes1 (r : Except ErrKind (List Byte)) : Except ErrKind (List Byte × Word) :=
  match r with
  | .error k => .error k
  | .ok y => .ok (y, 0)

end Sys2Proof.Machine
end

