-- ==== Sys2Proof/Machine/BitReader.lean ====
section
/-! DEFINITION. The bit reader commands (41_bitio.md R140 to R150). -/

namespace Sys2Proof.Machine

/-- `src = MemRead(IBUF+0, L)` (R141), the whole source of a reading command, which for a valid reader is `IBUF[0..ILEN)` (10 R40); an
unwritten byte among them refuses the command (20 R69, U1; notes/assumptions/7.md). -/
def readerSource (s : State) (onSource : List Byte → Result) : Result := writtenRange s.ibuf s.brLen.toNat onSource

/-- `peek(n)` with the cursor at bit `p`: the `n` bits from `p`, most significant first (R141). -/
def peek (src : List Byte) (p n : Nat) : Nat := bitsValue ((List.range n).map fun i => bitAt src (p + i))

/-- The cursor at bit `p`: BR_BITS, and BR_BYTES with it (R32, R33, R141 `advance`). -/
def readerAt (s : State) (p : Nat) : State :=
  { s with brBits := BitVec.ofNat 32 p, brBytes := BitVec.ofNat 32 ((p + 7) / 8) }

/-- `fail_eof` (R141, R150): the reader becomes invalid, its other registers stay. -/
def failEof (s : State) : Result := failWith { s with brCtrl := brInvalidated s } .truncatedData

/-- The first check of every BR_* command but BR_CREATE (R140). -/
def withReader (s : State) (body : Result) : Result :=
  if s.brValid then body else failWith s .invalidParameter

/-- Read `n` bits of the source at the cursor (R141 to R145): RES0 is their value. -/
def readBits (s : State) (src : List Byte) (n : Nat) : Result :=
  if s.brAvail < n then failEof s
  else succeed (readerAt s (s.brBits.toNat + n)) (BitVec.ofNat 32 (peek src s.brBits.toNat n)) 0

/-- BR_CREATE (R142). It reads ILEN and no byte of IBUF (notes/assumptions/26.md). -/
def execBrCreate (s : State) : Result :=
  if s.caps.ibufCap < s.ilen.toNat then failWith s .invalidParameter
  else
    succeed { s with brLen := s.ilen, brBits := 0, brBytes := 0, brCtrl := brCtrlWord true s.arg0Bit } 0 0

/-- BR_READ_BIT (R143). -/
def execBrReadBit (s : State) : Result := withReader s (readerSource s fun src => readBits s src 1)

/-- BR_READ_BITS (R144): `n = ARG0`, 1 to 32. -/
def execBrReadBits (s : State) : Result :=
  withReader s
    (readerSource s fun src =>
      if s.arg0.toNat < 1 ∨ Config.bitsMax < s.arg0.toNat then failWith s .invalidParameter
      else readBits s src s.arg0.toNat)

/-- BR_READ_BYTE (R145): eight bits whatever ARG0 holds, at any cursor (R146). -/
def execBrReadByte (s : State) : Result := withReader s (readerSource s fun src => readBits s src 8)

/-- BR_SKIP_BITS (R147): `n = ARG0`, all 32 bits. -/
def execBrSkipBits (s : State) : Result :=
  withReader s
    (if s.brAvail < s.arg0.toNat then failEof s
     else succeed (readerAt s (s.brBits.toNat + s.arg0.toNat)) 0 0)

/-- BR_ALIGN (R148). -/
def execBrAlign (s : State) : Result :=
  withReader s (succeed (readerAt s (ceil8 s.brBits.toNat)) 0 0)

/-- BR_SEEK (R149): only a file-backed reader may seek, to any position up to the end. -/
def execBrSeek (s : State) : Result :=
  withReader s
    (if s.brKind then
       if 8 * s.brLen.toNat < s.arg0.toNat then failEof s
       else succeed (readerAt s s.arg0.toNat) 0 0
     else failWith s .invalidParameter)

end Sys2Proof.Machine
end

