-- ==== Sys2Proof/Machine/BitWriter.lean ====
section
/-! DEFINITION. The bit writer commands (41_bitio.md R151 to R156). -/

namespace Sys2Proof.Machine

/-- The writer's incomplete byte, `a = ACC` and `k = NBITS`, and the bytes completed so far, in order (R151). -/
structure BitSink where
  bytes : List Byte
  acc : Byte
  k : Nat
  deriving DecidableEq, Repr

/-- `put(b)` (R151). -/
def putBit (w : BitSink) (b : Bool) : BitSink :=
  let a := w.acc ||| (if b then 1#8 <<< (7 - w.k) else 0#8)
  if w.k + 1 = 8 then { bytes := w.bytes ++ [a], acc := 0, k := 0 }
  else { bytes := w.bytes, acc := a, k := w.k + 1 }

/-- `put` of several bits, the first one first. -/
def putBits (w : BitSink) (bs : List Bool) : BitSink := bs.foldl putBit w

/-- Bits `n-1` down to 0 of a word, most significant of the `n` first (R154). -/
def lowBits (n : Nat) (v : Word) : List Bool := (List.range n).map fun i => v.getLsbD (n - 1 - i)

/-- The sink that BW_CTRL holds, nothing completed yet. -/
def sinkOf (s : State) : BitSink := { bytes := [], acc := s.bwAcc, k := s.bwNbits }

/-- The state after the sink: its completed bytes appended at OLEN, the rest in BW_CTRL (R151). -/
def storeSink (s : State) (w : BitSink) : State :=
  { s with obuf := Memory.writeBytes s.obuf s.olen.toNat w.bytes,
           olen := BitVec.ofNat 32 (s.olen.toNat + w.bytes.length),
           bwCtrl := bwCtrlWord w.k w.acc }

/-- The length of the written stream in bits, `8*OLEN + NBITS` (R94). -/
def streamBits (s : State) : Word := BitVec.ofNat 32 (8 * s.olen.toNat + s.bwNbits)

/-- `writer_overflow` (R156): the writer is gone, OBUF and OLEN stay. -/
def writerOverflow (s : State) : Result := failWith { s with bwCtrl := 0 } .compressionFailed

/-- The first check of every BW_* command but BW_CREATE (R151). -/
def withWriter (s : State) (body : Result) : Result :=
  if s.bwValid then body else failWith s .invalidParameter

/-- Write the bits given and answer the stream's length (R153, R154). -/
def writeBits (s : State) (bs : List Bool) : Result :=
  let t := storeSink s (putBits (sinkOf s) bs)
  succeed t (streamBits t) 0

/-- BW_CREATE (R152): OLEN 0, a writer with nothing pending; no byte of OBUF is valid (20 R68). -/
def execBwCreate (s : State) : Result :=
  succeed { s with olen := 0, obuf := [], bwCtrl := bwCtrlWord 0 0 } 0 0

/-- BW_WRITE_BIT (R153): the bit is `ARG0[0]`. -/
def execBwWriteBit (s : State) : Result :=
  withWriter s
    (if s.bwNbits = 7 ∧ s.olen.toNat = s.caps.obufCap then writerOverflow s
     else writeBits s [s.arg0Bit])

/-- BW_WRITE_BITS (R154): the low `n = ARG0` bits of ARG1, 1 to 32. -/
def execBwWriteBits (s : State) : Result :=
  withWriter s
    (if s.arg0.toNat < 1 ∨ Config.bitsMax < s.arg0.toNat then failWith s .invalidParameter
     else if s.caps.obufCap < s.olen.toNat + (s.bwNbits + s.arg0.toNat) / 8 then writerOverflow s
     else writeBits s (lowBits s.arg0.toNat s.arg1))

/-- BW_FLUSH (R155): the pending bits, zero-padded, become a byte. -/
def execBwFlush (s : State) : Result :=
  withWriter s
    (if 0 < s.bwNbits then
       if s.olen.toNat = s.caps.obufCap then writerOverflow s
       else
         let t := storeSink s { bytes := [s.bwAcc], acc := 0, k := 0 }
         succeed t (BitVec.ofNat 32 (8 * t.olen.toNat)) 0
     else succeed s (BitVec.ofNat 32 (8 * s.olen.toNat)) 0)

end Sys2Proof.Machine
end

