-- ==== Sys2Proof/Machine/Control.lean ====
section
/-! DEFINITION. The housekeeping commands NOP and XFER (40_control.md R131, R132). -/

namespace Sys2Proof.Machine

/-- NOP (R131): completes with both results 0. -/
def execNop (s : State) : Result := succeed s 0 0

/-- XFER (R132): copies `OBUF[0..OLEN)` to IBUF, sets ILEN and invalidates the bit reader (70 R370). RES0 is OLEN as R132
writes it, although R94 gives 0 where R92's row names no result. DEDUCED: notes/assumptions/30.md. -/
def execXfer (s : State) : Result :=
  if s.caps.ibufCap < s.olen.toNat then failWith s .invalidParameter
  else
    obufRange s fun y =>
      succeed { s with ibuf := Memory.writeBytes s.ibuf 0 y, ilen := s.olen, brCtrl := brInvalidated s } s.olen 0

end Sys2Proof.Machine
end

