-- ==== Sys2Proof/Machine/Crc.lean ====
section
/-! DEFINITION. The CRC-32 function and its commands (42_crc32.md R170 to R178). -/

namespace Sys2Proof.Machine

/-- One step of the table loop: shift right, XOR the polynomial when the bit shifted out is 1 (R171). -/
def crcShift (c : Word) : Word :=
  if c.getLsbD 0 then (c >>> 1) ^^^ Config.crcPoly else c >>> 1

/-- `T[i]` (R171): eight steps from `i`. The table is a constant, not state (10 R47). -/
def crcTable (i : Byte) : Word := (List.range 8).foldl (fun c _ => crcShift c) (i.setWidth 32)

/-- `crc_step(acc, b)` (R172). -/
def crcStep (acc : Word) (b : Byte) : Word := crcTable (acc.extractLsb' 0 8 ^^^ b) ^^^ (acc >>> 8)

/-- `crc_run(acc, s)` (R172). -/
def crcRun (acc : Word) (s : List Byte) : Word := s.foldl crcStep acc

/-- `crc32(s)` (R172). -/
def crc32 (s : List Byte) : Word := crcRun Config.crcInit s ^^^ Config.crcXorOut

/-- CRC_CALC (R173): the streaming context is untouched. -/
def execCrcCalc (s : State) : Result :=
  sourceRange s fun x => succeed s (crc32 x) 0

/-- CRC_VERIFY (R174): a mismatch is a result, not an error. -/
def execCrcVerify (s : State) : Result :=
  sourceRange s fun x => succeed s (if crc32 x = s.arg1 then 1 else 0) (crc32 x)

/-- CRC_CREATE (R175): succeeds in every state. -/
def execCrcCreate (s : State) : Result :=
  succeed { s with crcAcc := Config.crcInit, crcCtrl := crcCtrlWord crcActive } 0 0

/-- CRC_UPDATE (R176): advances an ACTIVE context over the selected range. RES0 is its length as R176 writes it, although R94 gives 0
where R92's row names no result. DEDUCED: notes/assumptions/30.md. -/
def execCrcUpdate (s : State) : Result :=
  sourceRange s fun x =>
    if s.crcState = crcActive then
      succeed { s with crcAcc := crcRun s.crcAcc x } (BitVec.ofNat 32 x.length) 0
    else failWith s .invalidParameter

/-- CRC_FINALIZE (R177): ACTIVE to FINAL, the accumulator kept. -/
def execCrcFinalize (s : State) : Result :=
  if s.crcState = crcActive then
    succeed { s with crcCtrl := crcCtrlWord crcFinal } (s.crcAcc ^^^ Config.crcXorOut) 0
  else failWith s .invalidParameter

/-- CRC_DESTROY (R178): any context is gone. -/
def execCrcDestroy (s : State) : Result :=
  if s.crcState = crcNone then failWith s .invalidParameter
  else succeed { s with crcCtrl := crcCtrlWord crcNone, crcAcc := 0 } 0 0

end Sys2Proof.Machine
end

