-- ==== Sys2Proof/Machine/Huffman.lean ====
section
/-! DEFINITION. The Huffman encoder and decoder (43_huffman.md R190 to R203; the stream format is 30_encoding.md R95 to R97). -/

namespace Sys2Proof.Machine

/-! ## The tree (R191 to R193) -/

/-- `Leaf(sym)` or `Node(left, right)` (R192). -/
inductive HuffTree where
  | leaf (sym : Byte)
  | node (left right : HuffTree)
  deriving DecidableEq, Repr

/-- A member of the queue: a node with its weight `w` and its sequence number `q` (R192). -/
structure QNode where
  w : Nat
  q : Nat
  tree : HuffTree
  deriving DecidableEq, Repr

/-- The 256 byte values in increasing order. -/
def allBytes : List Byte := (List.range Config.huffSyms).map (BitVec.ofNat 8)

/-- `F` of an input (R191): how often each byte value occurs. -/
def freqOf (x : List Byte) (v : Byte) : Nat := x.count v

/-- Insert a node into a queue kept in increasing order of `(w, q)`; the node inserted has the greatest `q` so far, so it stands after
every node of its weight (R192). -/
def queueInsert (n : QNode) : List QNode → List QNode
  | [] => [n]
  | m :: rest => if n.w < m.w then n :: m :: rest else m :: queueInsert n rest

/-- The leaves, in increasing order of symbol, into the queue (R192); the next sequence number with it. -/
def leafQueue (F : Byte → Nat) : List QNode × Nat :=
  allBytes.foldl
    (fun (acc : List QNode × Nat) v =>
      if 0 < F v then (queueInsert { w := F v, q := acc.2, tree := .leaf v } acc.1, acc.2 + 1) else acc)
    ([], 0)

/-- The loop of R192: join the two least nodes, the first extracted as left child, until one is left. `fuel` is at least the queue's
length. -/
def joinNodes : Nat → List QNode → Nat → Option HuffTree
  | _, [], _ => none
  | _, [n], _ => some n.tree
  | 0, _ :: _ :: _, _ => none
  | fuel + 1, a :: b :: rest, qNext =>
    joinNodes fuel (queueInsert { w := a.w + b.w, q := qNext, tree := .node a.tree b.tree } rest) (qNext + 1)

/-- `build_tree(F)` (R192); none where every frequency is zero. -/
def buildTree (F : Byte → Nat) : Option HuffTree :=
  let lq := leafQueue F
  joinNodes lq.1.length lq.1 lq.2

/-- The edge labels from a node to each of its leaves (R193): `HUFF_LEFT_BIT` for a step to the left. -/
def pathsOf : HuffTree → List (Byte × List Bool)
  | .leaf v => [(v, [])]
  | .node l r =>
    (pathsOf l).map (fun p => (p.1, Config.huffLeftBit :: p.2)) ++ (pathsOf r).map (fun p => (p.1, (!Config.huffLeftBit) :: p.2))

/-- `codes(root)` (R193): a single leaf has the one-bit code 0. -/
def codesOf : HuffTree → List (Byte × List Bool)
  | .leaf v => [(v, [false])]
  | .node l r => pathsOf (.node l r)

/-- `code(v)`; empty for a symbol without one, which no encoder step asks for (R193). -/
def codeOf (t : HuffTree) (v : Byte) : List Bool := (lookupByte v (codesOf t)).getD []

/-! ## The header (R194, R195) -/

/-- `huff_header(F)` (R194): an entry for each non-zero frequency in increasing symbol order, then the sentinel. -/
def huffHeader (F : Byte → Nat) : List Byte :=
  (allBytes.flatMap fun v => if 0 < F v then v :: field32 Config.huffFreqOrder (F v) else []) ++ Config.huffSentinel

/-- The groups of a header up to the sentinel, in order, and the bytes after it (R195); TruncatedData where no sentinel comes. -/
def parseEntries : List Byte → Except ErrKind (List (Byte × Nat) × List Byte)
  | v :: f0 :: f1 :: f2 :: f3 :: rest =>
    if [v, f0, f1, f2, f3] = Config.huffSentinel then .ok ([], rest)
    else
      match parseEntries rest with
      | .error k => .error k
      | .ok (es, code) => .ok ((v, ufield32 Config.huffFreqOrder f0 f1 f2 f3) :: es, code)
  | _ => .error .truncatedData

/-- `F` of a parsed header (R195). -/
def freqOfEntries (es : List (Byte × Nat)) (v : Byte) : Nat := (lookupByte v es).getD 0

/-- Whether some symbol is listed twice (R195). -/
def hasDuplicate : List (Byte × Nat) → Bool
  | [] => false
  | (v, _) :: es => es.any (fun e => e.1 = v) || hasDuplicate es

/-- `total`, the sum of the frequencies (R195). -/
def totalOf (es : List (Byte × Nat)) : Nat := (es.map Prod.snd).sum

/-- `huff_parse(s)` (R195): the entries, and the code bytes after the sentinel. A missing sentinel comes before a duplicate symbol,
that before an all-zero table. -/
def huffParse (s : List Byte) : Except ErrKind (List (Byte × Nat) × List Byte) :=
  match parseEntries s with
  | .error k => .error k
  | .ok (es, code) =>
    if hasDuplicate es then .error .decompressionFailed
    else if totalOf es = 0 then .error .decompressionFailed
    else .ok (es, code)

/-! ## Encoder (R196) -/

/-- The code bits of an input under a tree (R196). -/
def encodeBits (t : HuffTree) (x : List Byte) : List Bool := x.flatMap (codeOf t)

/-- `huff_compress(x)` (R196); the all-zero table, of the empty input only, is CompressionFailed. -/
def huffCompress (x : List Byte) : Except ErrKind (List Byte) :=
  match buildTree (freqOf x) with
  | none => .error .compressionFailed
  | some t => .ok (huffHeader (freqOf x) ++ packBits (encodeBits t x))

/-! ## Decoder (R199, R200) -/

/-- Walk from a node to a leaf, one bit a step (R200). -/
def walkTree : HuffTree → List Bool → Except ErrKind (Byte × List Bool)
  | .leaf v, bs => .ok (v, bs)
  | .node _ _, [] => .error .truncatedData
  | .node l r, b :: bs => if b = Config.huffLeftBit then walkTree l bs else walkTree r bs

/-- One symbol (R200): under a single-leaf tree one bit, which must be 0. -/
def decodeSymbol : HuffTree → List Bool → Except ErrKind (Byte × List Bool)
  | .leaf _, [] => .error .truncatedData
  | .leaf v, b :: bs => if b then .error .decompressionFailed else .ok (v, bs)
  | .node l r, bs => walkTree (.node l r) bs

/-- `total` symbols (R200). The bits after the last one are not read. -/
def decodeSymbols (t : HuffTree) : Nat → List Bool → Except ErrKind (List Byte)
  | 0, _ => .ok []
  | n + 1, bs =>
    match decodeSymbol t bs with
    | .error k => .error k
    | .ok (v, rest) =>
      match decodeSymbols t n rest with
      | .error k => .error k
      | .ok vs => .ok (v :: vs)

/-- `huff_decompress(s, cap)` (R199). -/
def huffDecompress (s : List Byte) (cap : Nat) : Except ErrKind (List Byte) :=
  match huffParse s with
  | .error k => .error k
  | .ok (es, code) =>
    if cap < totalOf es then .error .decompressionFailed
    else
      match buildTree (freqOfEntries es) with
      | none => .error .decompressionFailed
      | some t => decodeSymbols t (totalOf es) (bitsOf code)

/-! ## Commands -/

/-- HUFF_COMPRESS (R198). -/
def execHuffCompress (s : State) : Result :=
  transform s .compressionFailed fun x => withNoRes1 (huffCompress x)

/-- HUFF_DECOMPRESS (R201). -/
def execHuffDecompress (s : State) : Result :=
  transform s .decompressionFailed fun x => withNoRes1 (huffDecompress x s.caps.obufCap)

end Sys2Proof.Machine
end

