-- ==== Sys2Proof/Machine/Bwt.lean ====
section
/-! DEFINITION. The Burrows-Wheeler transform, the move-to-front coder, and the BMH pipeline (45_bwt_mtf.md R250 to R267). -/

namespace Sys2Proof.Machine

/-! ## Forward transform (R250, R251) -/

/-- Rotation `idx` of the input: `bytes[k] = x[(idx + k) mod n]` (R250). -/
structure Rotation where
  idx : Nat
  bytes : List Byte
  deriving DecidableEq, Repr

/-- The rotations in order of index (R250). -/
def rotations (x : List Byte) : List Rotation :=
  (List.range x.length).map fun i => { idx := i, bytes := x.drop i ++ x.take i }

/-- Lexicographic comparison, byte by byte as unsigned values (R250). -/
def lexCompare : List Byte → List Byte → Ordering
  | [], [] => .eq
  | [], _ :: _ => .lt
  | _ :: _, [] => .gt
  | a :: as, b :: bs => if a.toNat < b.toNat then .lt else if b.toNat < a.toNat then .gt else lexCompare as bs

/-- The order of the rotations: by their bytes, equal ones by index (R250). -/
def rotationLe (a b : Rotation) : Bool :=
  match lexCompare a.bytes b.bytes with
  | .lt => true
  | .eq => decide (a.idx ≤ b.idx)
  | .gt => false

/-- Insert a rotation into a sorted list. -/
def insertRotation (r : Rotation) : List Rotation → List Rotation
  | [] => [r]
  | a :: rest => if rotationLe r a then r :: a :: rest else a :: insertRotation r rest

/-- The rotations sorted (the order is total, so the result does not depend on the method, R250, R252). -/
def sortRotations (rs : List Rotation) : List Rotation := rs.foldr insertRotation []

/-- `SA` (R250). -/
def suffixOrder (x : List Byte) : List Nat := (sortRotations (rotations x)).map Rotation.idx

/-- `L`, the last column: `L[k] = x[(SA[k] + n - 1) mod n]` (R251). -/
def lastColumn (x : List Byte) : List Byte :=
  (suffixOrder x).map fun i => x.getD ((i + x.length - 1) % x.length) 0#8

/-- `P`, the position of rotation 0 in `SA` (R251). -/
def primaryIndex (x : List Byte) : Nat := (suffixOrder x).idxOf 0

/-- `bwt_forward(x) = (L, P)` (R251). -/
def bwtForward (x : List Byte) : List Byte × Nat := (lastColumn x, primaryIndex x)

/-! ## Inverse transform (R254, R255) -/

/-- `C[c]`, the number of `k` with `L[k] < c` (R254). -/
def cumulative (L : List Byte) (c : Byte) : Nat := L.countP fun b => decide (b.toNat < c.toNat)

/-- `rank[k]`, the number of `j < k` with `L[j] = L[k]` (R254). -/
def rankAt (L : List Byte) (k : Nat) : Nat := (L.take k).count (L.getD k 0#8)

/-- `LF[k] = C[L[k]] + rank[k]` (R254). -/
def lfMap (L : List Byte) (k : Nat) : Nat := cumulative L (L.getD k 0#8) + rankAt L k

/-- The walk of R255 from position `k` for `i` more bytes, the bytes found so far after them. -/
def bwtWalk (L : List Byte) : Nat → Nat → List Byte → List Byte
  | 0, _, out => out
  | i + 1, k, out => bwtWalk L i (lfMap L k) (L.getD k 0#8 :: out)

/-- `bwt_inverse(L, P)` (R255). -/
def bwtInverse (L : List Byte) (P : Nat) : List Byte := bwtWalk L L.length P []

/-! ## Move-to-front (R257 to R260) -/

/-- The identity list (R257). -/
def mtfIdentity : List Byte := (List.range Config.mtfSyms).map (BitVec.ofNat 8)

/-- `move_to_front(M, r)` (R257). -/
def moveToFront (M : List Byte) (r : Nat) : List Byte :=
  match M[r]? with
  | some b => b :: M.eraseIdx r
  | none => M

/-- `mtf_encode` from a list (R258). -/
def mtfEncodeFrom (M : List Byte) : List Byte → List Byte
  | [] => []
  | b :: rest => BitVec.ofNat 8 (M.idxOf b) :: mtfEncodeFrom (moveToFront M (M.idxOf b)) rest

/-- `mtf_encode(x)` (R258). -/
def mtfEncode (x : List Byte) : List Byte := mtfEncodeFrom mtfIdentity x

/-- `mtf_decode` from a list (R260). -/
def mtfDecodeFrom (M : List Byte) : List Byte → List Byte
  | [] => []
  | r :: rest => M.getD r.toNat 0#8 :: mtfDecodeFrom (moveToFront M r.toNat) rest

/-- `mtf_decode(y)` (R260). -/
def mtfDecode (y : List Byte) : List Byte := mtfDecodeFrom mtfIdentity y

/-! ## The BMH pipeline (R262, R265) -/

/-- `bmh_compress(x)` (R262): the index and the MTF ranks of the last column, Huffman-coded together. -/
def bmhCompress (x : List Byte) : Except ErrKind (List Byte) :=
  huffCompress (be32 (bwtForward x).2 ++ mtfEncode (bwtForward x).1)

/-- The content of a BMH stream once Huffman-decoded (R265): its two checks and the inverses. -/
def bmhContent (D : List Byte) : Except ErrKind (List Byte) :=
  match D with
  | p0 :: p1 :: p2 :: p3 :: m :: M =>
    if (m :: M).length ≤ ube32 p0 p1 p2 p3 then .error .decompressionFailed
    else .ok (bwtInverse (mtfDecode (m :: M)) (ube32 p0 p1 p2 p3))
  | _ => .error .decompressionFailed

/-- `bmh_decompress(s, cap)` (R265): the Huffman stage may produce `cap + 4` bytes. -/
def bmhDecompress (s : List Byte) (cap : Nat) : Except ErrKind (List Byte) :=
  match huffDecompress s (cap + 4) with
  | .error k => .error k
  | .ok D => bmhContent D

/-! ## Commands -/

/-- BWT_FWD (R253): the primary index is RES1. -/
def execBwtFwd (s : State) : Result :=
  transform s .compressionFailed fun x => .ok ((bwtForward x).1, BitVec.ofNat 32 (bwtForward x).2)

/-- BWT_INV (R256): the primary index is ARG0. -/
def execBwtInv (s : State) : Result :=
  transform s .decompressionFailed fun x =>
    if s.ilen.toNat ≤ s.arg0.toNat then .error .decompressionFailed else .ok (bwtInverse x s.arg0.toNat, 0)

/-- MTF_ENC (R259). -/
def execMtfEnc (s : State) : Result :=
  transform s .compressionFailed fun x => .ok (mtfEncode x, 0)

/-- MTF_DEC (R261). -/
def execMtfDec (s : State) : Result :=
  transform s .decompressionFailed fun x => .ok (mtfDecode x, 0)

/-- BMH_COMPRESS (R264). -/
def execBmhCompress (s : State) : Result :=
  transform s .compressionFailed fun x => withNoRes1 (bmhCompress x)

/-- BMH_DECOMPRESS (R266). -/
def execBmhDecompress (s : State) : Result :=
  transform s .decompressionFailed fun x => withNoRes1 (bmhDecompress x s.caps.obufCap)

end Sys2Proof.Machine
end

