-- ==== Sys2Proof/Machine/RangeCoder.lean ====
section
/-! DEFINITION. The range coder with its binary adaptive order-1 literal model (46_range_coder.md R280 to R294; the stream format is
30_encoding.md R106). Arithmetic is on natural numbers with the written `mod` (40_control.md R133). -/

namespace Sys2Proof.Machine

/-! ## Probability model (R281) -/

/-- `probs[ctx][m]` (R281). -/
abbrev Probs := List (List Nat)

/-- The model at the start of every rc_encode and rc_decode: every entry `RC_PROB_INIT` (R281; index 0 of a row is never used). -/
def initProbs : Probs := List.replicate 256 (List.replicate 256 Config.rcProbInit)

/-- Read `probs[c][m]`. -/
def Probs.entry (t : Probs) (c m : Nat) : Nat := (t.getD c []).getD m Config.rcProbInit

/-- Write `probs[c][m]`. -/
def Probs.update (t : Probs) (c m p : Nat) : Probs := t.set c ((t.getD c []).set m p)

/-- The update of a probability after a bit (R281). -/
def adaptProb (p : Nat) (b : Bool) : Nat :=
  if b then p - p / 2 ^ Config.rcMoveBits else p + (2 ^ Config.rcProbBits - p) / 2 ^ Config.rcMoveBits

/-- `bound = (range >> 11) * p` (R283). -/
def rcBound (range p : Nat) : Nat := range / 2 ^ Config.rcProbBits * p

/-! ## Encoder (R282 to R287) -/

/-- Encoder state (R282); `outRev` is `out`, newest byte first. -/
structure RcEnc where
  low : Nat
  range : Nat
  cache : Nat
  cacheSize : Nat
  outRev : List Byte
  deriving DecidableEq, Repr

/-- The initial state (R282). -/
def rcEncInit : RcEnc := { low := 0, range := 0xFFFFFFFF, cache := 0, cacheSize := 1, outRev := [] }

/-- `shift_low()` (R284): unless a carry may still come, write the cached byte and the `cache_size - 1` bytes 0xFF held back after it,
each plus the carry. -/
def shiftLow (e : RcEnc) : RcEnc :=
  if e.low % 2 ^ 32 < 0xFF000000 ∨ 2 ^ 32 ≤ e.low then
    let carry := e.low / 2 ^ 32
    { low := e.low % 2 ^ 24 * 2 ^ 8
      range := e.range
      cache := e.low / 2 ^ 24 % 256
      cacheSize := 1
      outRev := List.replicate (e.cacheSize - 1) (BitVec.ofNat 8 (0xFF + carry)) ++ BitVec.ofNat 8 (e.cache + carry) :: e.outRev }
  else
    { e with low := e.low % 2 ^ 24 * 2 ^ 8, cacheSize := e.cacheSize + 1 }

/-- The renormalisation of R283; one pass is enough, "so `while` and `if` are the same here" (notes/assumptions/15.md). -/
def rcNormalise (e : RcEnc) : RcEnc :=
  if e.range < Config.rcTop then shiftLow { e with range := e.range * 2 ^ 8 % 2 ^ 32 } else e

/-- The coder's part of `encode_bit` (R283) with probability `p`. -/
def encodeBit (e : RcEnc) (p : Nat) (b : Bool) : RcEnc :=
  let bound := rcBound e.range p
  rcNormalise (if b then { e with low := e.low + bound, range := e.range - bound } else { e with range := bound })

/-- The binary decisions of a byte in context `c` from tree index `m` on (R286), most significant bit first. -/
def encodeDecisions (c : Nat) : List Bool → Nat → Probs → RcEnc → Probs × RcEnc
  | [], _, t, e => (t, e)
  | b :: bs, m, t, e =>
    encodeDecisions c bs (2 * m + b.toNat) (t.update c m (adaptProb (t.entry c m) b)) (encodeBit e (t.entry c m) b)

/-- The bytes of the data, each in the context of the one before it (R286, R287). -/
def encodeBytes : List Byte → Nat → Probs → RcEnc → RcEnc
  | [], _, _, e => e
  | v :: rest, c, t, e =>
    let r := encodeDecisions c (bitsOfByte v) 1 t e
    encodeBytes rest v.toNat r.1 r.2

/-- `flush()` (R285): five calls of shift_low. -/
def rcFlush (e : RcEnc) : RcEnc := shiftLow (shiftLow (shiftLow (shiftLow (shiftLow e))))

/-- `rc_encode(x)` (R287). -/
def rcEncode (x : List Byte) : List Byte := (rcFlush (encodeBytes x 0 initProbs rcEncInit)).outRev.reverse

/-- `rc_compress(x)` (R288): the length prefix, and the limit over the whole stream. -/
def rcCompress (x : List Byte) : Except ErrKind (List Byte) :=
  let y := be32 x.length ++ rcEncode x
  if Config.rcLimit x.length < y.length then .error .compressionFailed else .ok y

/-! ## Decoder (R291, R292) -/

/-- Decoder state (R291); `rest` is `r` from the read index on. -/
structure RcDec where
  code : Nat
  range : Nat
  rest : List Byte
  deriving DecidableEq, Repr

/-- `init` (R291). -/
def rcDecInit (r : List Byte) : Except ErrKind RcDec :=
  match r with
  | r0 :: r1 :: r2 :: r3 :: r4 :: rest =>
    if r0 ≠ 0#8 then .error .decompressionFailed
    else .ok { code := ube32 r1 r2 r3 r4, range := 0xFFFFFFFF, rest := rest }
  | _ => .error .truncatedData

/-- The renormalisation of `decode_bit` with `next()` (R291); the low 8 bits of the shifted code are 0, so `|` is `+`. -/
def rcDecNormalise (d : RcDec) : Except ErrKind RcDec :=
  if d.range < Config.rcTop then
    match d.rest with
    | [] => .error .truncatedData
    | v :: rest => .ok { code := d.code * 2 ^ 8 % 2 ^ 32 + v.toNat, range := d.range * 2 ^ 8 % 2 ^ 32, rest := rest }
  else .ok d

/-- The decision of `decode_bit` (R291): 1 where the code is not below the bound. -/
def decideBit (d : RcDec) (p : Nat) : Bool := decide (rcBound d.range p ≤ d.code)

/-- The coder's part of `decode_bit` (R291) with probability `p`, for the bit it decides. -/
def decodeBit (d : RcDec) (p : Nat) : Except ErrKind RcDec :=
  let bound := rcBound d.range p
  rcDecNormalise
    (if decideBit d p then { code := d.code - bound, range := d.range - bound, rest := d.rest }
     else { code := d.code, range := bound, rest := d.rest })

/-- `n` more binary decisions of a byte in context `c` from tree index `m` on (R291 `decode_byte`); the final `m` is `0x100 | v`. -/
def decodeDecisions (c : Nat) : Nat → Nat → Probs → RcDec → Except ErrKind (Nat × Probs × RcDec)
  | 0, m, t, d => .ok (m, t, d)
  | n + 1, m, t, d =>
    match decodeBit d (t.entry c m) with
    | .error k => .error k
    | .ok d' =>
      decodeDecisions c n (2 * m + (decideBit d (t.entry c m)).toNat)
        (t.update c m (adaptProb (t.entry c m) (decideBit d (t.entry c m)))) d'

/-- `N` bytes, each in the context of the one before it (R292). -/
def decodeBytes : Nat → Nat → Probs → RcDec → Except ErrKind (List Byte)
  | 0, _, _, _ => .ok []
  | n + 1, c, t, d =>
    match decodeDecisions c 8 1 t d with
    | .error k => .error k
    | .ok (m, t', d') =>
      match decodeBytes n (m % 256) t' d' with
      | .error k => .error k
      | .ok vs => .ok (BitVec.ofNat 8 m :: vs)

/-- `rc_decompress(s, cap)` (R292). -/
def rcDecompress (s : List Byte) (cap : Nat) : Except ErrKind (List Byte) :=
  match s with
  | n0 :: n1 :: n2 :: n3 :: r =>
    if ube32 n0 n1 n2 n3 = 0 then .error .decompressionFailed
    else if cap < ube32 n0 n1 n2 n3 then .error .decompressionFailed
    else
      match rcDecInit r with
      | .error k => .error k
      | .ok d => decodeBytes (ube32 n0 n1 n2 n3) 0 initProbs d
  | _ => .error .truncatedData

/-! ## Commands -/

/-- RC_COMPRESS (R290). -/
def execRcCompress (s : State) : Result :=
  transform s .compressionFailed fun x => withNoRes1 (rcCompress x)

/-- RC_DECOMPRESS (R293). -/
def execRcDecompress (s : State) : Result :=
  transform s .decompressionFailed fun x => withNoRes1 (rcDecompress x s.caps.obufCap)

end Sys2Proof.Machine
end

