-- ==== Sys2Proof/Machine/Hardcore.lean ====
section
/-! DEFINITION. The Hardcore dispatcher (47_hardcore.md R310 to R318) and the three tag rows of the opcode table. -/

namespace Sys2Proof.Machine

/-! ## Analysis and stage selection (R311, R312) -/

/-- `eq(x)`, the adjacent equal pairs (R311). -/
def adjacentEqual : List Byte → Nat
  | a :: b :: rest => (if b = a then 1 else 0) + adjacentEqual (b :: rest)
  | _ => 0

/-- Printable or whitespace (R311). -/
def isText (b : Byte) : Bool :=
  decide (0x20 ≤ b.toNat ∧ b.toNat ≤ 0x7E) || b = 0x09#8 || b = 0x0A#8 || b = 0x0D#8

/-- `txt(x)` (R311). -/
def textBytes (x : List Byte) : Nat := x.countP isText

/-- The three inner coders (R108, R312). -/
inductive Stage where
  | huff
  | bmh
  | rc
  deriving DecidableEq, Repr

/-- `stage_id` (R108). -/
def Stage.id : Stage → Byte
  | .huff => Config.hcStageHuff
  | .bmh => Config.hcStageBmh
  | .rc => Config.hcStageRc

/-- `stage(x)` (R312): exact integer comparisons, both strict. -/
def stageOf (x : List Byte) : Stage :=
  if Config.hcRepPct * x.length < 100 * adjacentEqual x then .huff
  else if Config.hcTextPct * x.length < 100 * textBytes x then .bmh
  else .rc

/-! ## Compression (R313) -/

/-- The coder of a stage (R313). -/
def stageCompress : Stage → List Byte → Except ErrKind (List Byte)
  | .huff, x => huffCompress x
  | .bmh, x => bmhCompress x
  | .rc, x => rcCompress x

/-- `hc_compress(x)` (R313): the tagged payload and the stage. -/
def hcCompress (x : List Byte) : Except ErrKind (List Byte × Word) :=
  match stageCompress (stageOf x) x with
  | .error k => .error k
  | .ok payload => .ok (Config.hcMagic ++ (stageOf x).id :: payload, (stageOf x).id.setWidth 32)

/-! ## Decompression (R315) -/

/-- The decoder of a stage (R315). -/
def stageDecompress (cap : Nat) : Stage → List Byte → Except ErrKind (List Byte)
  | .huff, payload => huffDecompress payload cap
  | .bmh, payload => bmhDecompress payload cap
  | .rc, payload => rcDecompress payload cap

/-- The stage's output with its id as second result (R317). -/
def stageResult (cap : Nat) (st : Stage) (payload : List Byte) : Except ErrKind (List Byte × Word) :=
  match stageDecompress cap st payload with
  | .error k => .error k
  | .ok y => .ok (y, st.id.setWidth 32)

/-- The stage a tag instruction dispatches to (R315); the other instructions are no tags. -/
def stageOfTag : Instr → Option Stage
  | .hcTagHuff => some .huff
  | .hcTagBmh => some .bmh
  | .hcTagRc => some .rc
  | _ => none

/-- The error kind of bytes that are no tag (R316). -/
def tagError : DecodeError → ErrKind
  | .badMagic => .invalidMagic
  | .unknownStage => .invalidAlgorithm
  | _ => .truncatedData

/-- The tag at the front of a Hardcore stream (R315, R316): length, magic, stage, in this order. -/
def hcTagOf (t : List Byte) : Except ErrKind Instr :=
  if t.length < 5 then .error .truncatedData
  else
    match decodeTag t with
    | .error e => .error (tagError e)
    | .ok i => .ok i

/-- `hc_decompress(t, cap)` (R315). -/
def hcDecompress (t : List Byte) (cap : Nat) : Except ErrKind (List Byte × Word) :=
  match hcTagOf t with
  | .error k => .error k
  | .ok i =>
    match stageOfTag i with
    | none => .error .invalidAlgorithm
    | some st => stageResult cap st (t.drop 4)

/-! ## Commands -/

/-- HC_COMPRESS (R314): the stage is RES1. -/
def execHcCompress (s : State) : Result := transform s .compressionFailed hcCompress

/-- HC_DECOMPRESS (R317): the stage is RES1. -/
def execHcDecompress (s : State) : Result :=
  transform s .decompressionFailed fun t => hcDecompress t s.caps.obufCap

/-! ## The tag rows (R108, R315): the tag has been read from the front of `IN`, its stage decodes the payload after it -/

/-- What a tag does: its stage's decoder on `IN[4..m)`. -/
def runTag (s : State) (st : Stage) : Result :=
  transform s .decompressionFailed fun t => stageResult s.caps.obufCap st (t.drop 4)

/-- HC.TAG_HUFF. -/
def execHcTagHuff (s : State) : Result := runTag s .huff

/-- HC.TAG_BMH. -/
def execHcTagBmh (s : State) : Result := runTag s .bmh

/-- HC.TAG_RC. -/
def execHcTagRc (s : State) : Result := runTag s .rc

end Sys2Proof.Machine
end

