-- ==== Sys2Proof/Machine/Lz77.lean ====
section
/-! DEFINITION. The LZ77 matcher and token decoder (44_lz77.md R220 to R231), and the four token rows of the opcode table. The encoder
produces tokens, which Decode.lean's encoder turns into bytes; the decoder runs the tokens that Decode.lean reads. -/

namespace Sys2Proof.Machine

/-! ## Encoder (R221 to R223) -/

/-- How far two suffixes of the input agree, up to `k` bytes: the inner loop of `find_match`. The first suffix may run past the start
of the second (overlap, R221). -/
def matchLen : Nat → List Byte → List Byte → Nat
  | k + 1, a :: as, b :: bs => if a = b then matchLen k as bs + 1 else 0
  | _, _, _ => 0

/-- The candidates of `find_match` (R221): the suffixes at `p-1`, `p-2`, … in this order, the first at offset `off`; a candidate replaces
the best so far only when strictly longer. -/
def bestMatch (maxlen : Nat) (cur : List Byte) : List (List Byte) → Nat → Nat × Nat → Nat × Nat
  | [], _, best => best
  | cand :: older, off, best =>
    let l := matchLen maxlen cand cur
    bestMatch maxlen cur older (off + 1) (if best.1 < l then (l, off) else best)

/-- `find_match(x, p)` (R221): `cur` is the input from `p` on, `hist` the suffixes before it, nearest first. `(best_len, best_off)`. -/
def findMatch (cur : List Byte) (hist : List (List Byte)) : Nat × Nat :=
  let maxlen := min Config.lzLookahead cur.length
  if Config.lzMin ≤ maxlen then bestMatch maxlen cur (hist.take Config.lzWindow) 1 (0, 0) else (0, 0)

/-- Move `n` bytes on: the suffixes passed join the history, nearest first. -/
def advanceBy : Nat → List Byte → List (List Byte) → List Byte × List (List Byte)
  | n + 1, b :: rest, hist => advanceBy n rest ((b :: rest) :: hist)
  | _, cur, hist => (cur, hist)

/-- `emit_literal(b)` (R222). -/
def emitLiteral (b : Byte) : Instr := if b.toNat < 0x80 then .lz77Lit b else .lz77Esc b

/-- LONG's length byte for a length, and the length it carries (R102; the bias is 00 R7's). -/
def longLenByte (len : Nat) : Byte := BitVec.ofNat 8 (len - Config.lzLongLenBias)
@[inherit_doc longLenByte]
def longLen (b : Byte) : Nat := b.toNat + Config.lzLongLenBias

/-- `emit_match(len, off)` (R222). -/
def emitMatch (len off : Nat) : Instr :=
  if off ≤ Config.lzShortMaxOff then .lz77Short len (BitVec.ofNat 8 off)
  else .lz77Long (longLenByte len) (BitVec.ofNat 16 off)

/-- The greedy parse of R223; `fuel` is at least the number of bytes left. -/
def lzParse : Nat → List Byte → List (List Byte) → List Instr
  | 0, _, _ => []
  | _, [], _ => []
  | fuel + 1, b :: rest, hist =>
    let m := findMatch (b :: rest) hist
    if Config.lzMin ≤ m.1 then
      let next := advanceBy m.1 (b :: rest) hist
      emitMatch m.1 m.2 :: lzParse fuel next.1 next.2
    else emitLiteral b :: lzParse fuel rest ((b :: rest) :: hist)

/-- The tokens of an input. -/
def lzTokens (x : List Byte) : List Instr := lzParse x.length x []

/-- `lz77_compress(x)` (R223): the flag, the original size, the tokens (30 R98). -/
def lz77Compress (x : List Byte) : List Byte :=
  Config.lzFlag :: be32 x.length ++ (lzTokens x).flatMap tokenBytes

/-! ## Decoder (R226 to R228) -/

/-- `put_literal(v)` (R227) on the output so far, newest byte first. -/
def putLiteral (declared : Nat) (outRev : List Byte) (v : Byte) : Except ErrKind (List Byte) :=
  if outRev.length = declared then .error .sizeMismatch else .ok (v :: outRev)

/-- The byte-by-byte copy of R228: each step appends the byte `o` places back, `out[len(out) - o]`. -/
def copyMatch (o : Nat) : Nat → List Byte → List Byte
  | 0, outRev => outRev
  | n + 1, outRev => copyMatch o n (outRev.getD (o - 1) 0#8 :: outRev)

/-- `put_match(l, o)` (R227): the range of the offset is checked before the size. -/
def putMatch (declared : Nat) (outRev : List Byte) (l o : Nat) : Except ErrKind (List Byte) :=
  if o = 0 ∨ Config.lzWindow < o ∨ outRev.length < o then .error .decompressionFailed
  else if declared < outRev.length + l then .error .sizeMismatch
  else .ok (copyMatch o l outRev)

/-- What a token does to the output (R227); the other instructions are no tokens and leave it. -/
def tokenEffect (declared : Nat) (outRev : List Byte) : Instr → Except ErrKind (List Byte)
  | .lz77Lit b => putLiteral declared outRev b
  | .lz77Esc b => putLiteral declared outRev b
  | .lz77Short len off => putMatch declared outRev len off.toNat
  | .lz77Long len off =>
    if longLen len < Config.lzMin ∨ Config.lzLookahead < longLen len then .error .decompressionFailed
    else putMatch declared outRev (longLen len) off.toNat
  | _ => .ok outRev

/-- The error kind of a byte sequence that starts no token (R227). -/
def tokenError : DecodeError → ErrKind
  | .cutShort => .truncatedData
  | _ => .decompressionFailed

/-- Token replay (R227) to the end of the stream; `fuel` is at least the number of bytes left. -/
def replayTokens (declared : Nat) : Nat → List Byte → List Byte → Except ErrKind (List Byte)
  | _, [], outRev => .ok outRev
  | 0, _ :: _, outRev => .ok outRev
  | fuel + 1, t :: ts, outRev =>
    match decodeToken (t :: ts) with
    | .error e => .error (tokenError e)
    | .ok (i, rest) =>
      match tokenEffect declared outRev i with
      | .error k => .error k
      | .ok outRev' => replayTokens declared fuel rest outRev'

/-- The end of the replay (R226): the output, if its length is the declared size. -/
def replayEnd (declared : Nat) (outRev : List Byte) : Except ErrKind (List Byte) :=
  if outRev.length = declared then .ok outRev.reverse else .error .sizeMismatch

/-- The prefix checks of R226: the declared size and the token bytes. -/
def lzPrefix (s : List Byte) (cap : Nat) : Except ErrKind (Nat × List Byte) :=
  match s with
  | flag :: n0 :: n1 :: n2 :: n3 :: tokens =>
    if flag ≠ Config.lzFlag then .error .decompressionFailed
    else if ube32 n0 n1 n2 n3 = 0 then .error .decompressionFailed
    else if cap < ube32 n0 n1 n2 n3 then .error .decompressionFailed
    else .ok (ube32 n0 n1 n2 n3, tokens)
  | _ => .error .truncatedData

/-- `lz77_decompress(s, cap)` (R226). -/
def lz77Decompress (s : List Byte) (cap : Nat) : Except ErrKind (List Byte) :=
  match lzPrefix s cap with
  | .error k => .error k
  | .ok (declared, tokens) =>
    match replayTokens declared tokens.length tokens [] with
    | .error k => .error k
    | .ok outRev => replayEnd declared outRev

/-! ## Commands -/

/-- LZ77_COMPRESS (R225). -/
def execLz77Compress (s : State) : Result :=
  transform s .compressionFailed fun x => .ok (lz77Compress x, 0)

/-- LZ77_DECOMPRESS (R229). -/
def execLz77Decompress (s : State) : Result :=
  transform s .decompressionFailed fun x => withNoRes1 (lz77Decompress x s.caps.obufCap)

/-! ## The token rows (R99 to R102, R227), on the replay in the state's scratch -/

/-- Run one token of `len` bytes on the scratch: its effect on the output, and the cursor past it; its error is the command's
(60 R333). -/
def runToken (s : State) (i : Instr) (len : Nat) : Result :=
  match tokenEffect s.lz.declared s.lz.outRev i with
  | .error k => failWith (takeOver s) k
  | .ok outRev => .next { s with lz := { declared := s.lz.declared, pos := s.lz.pos + len, outRev := outRev } }

/-- LZ77.LIT (R99). -/
def execLz77Lit (b : Byte) (s : State) : Result := runToken s (.lz77Lit b) 1

/-- LZ77.ESC (R100). -/
def execLz77Esc (b : Byte) (s : State) : Result := runToken s (.lz77Esc b) 2

/-- LZ77.SHORT (R101). -/
def execLz77Short (len : Nat) (off : Byte) (s : State) : Result := runToken s (.lz77Short len off) 2

/-- LZ77.LONG (R102). -/
def execLz77Long (len : Byte) (off : BitVec 16) (s : State) : Result := runToken s (.lz77Long len off) 4

/-- The end of a stepwise replay (R226, R229): the output is delivered and the command completes. -/
def finishReplay (s : State) : Result :=
  deliver (takeOver s) .decompressionFailed (withNoRes1 (replayEnd s.lz.declared s.lz.outRev))

end Sys2Proof.Machine
end

