-- ==== Sys2Proof/Machine/Fetch.lean ====
section
/-! DEFINITION. What the engine's turn runs: the command in CMD (70_reset_and_hazards.md R366, 40_control.md R130 step 1), or, in the
stepwise view of the stream rows (notes/assumptions/9.md), the tag or the token at the place the state names; and the placing of one
table row where the next turn fetches it. -/

namespace Sys2Proof.Machine

/-- The bytes of a token stream from the replay's cursor on. -/
def tokensFrom (s : State) (t : List Byte) : List Byte := t.drop s.lz.pos

/-- The next instruction, or how the turn ends without one: a word that is no command (30 R93), a stream that holds no tag or token
there, or the end of the tokens. -/
def fetchInstr (s : State) : Except Result Instr :=
  match s.fetch with
  | .command =>
    match decodeCommand s.cmd with
    | .error _ => .error (failWith s .invalidParameter)
    | .ok i => .ok i
  | .hcTag =>
    match transformBytes (takeOver s) with
    | .error r => .error r
    | .ok t =>
      match hcTagOf t with
      | .error k => .error (failWith (takeOver s) k)
      | .ok i => .ok i
  | .lzToken =>
    match transformBytes (takeOver s) with
    | .error r => .error r
    | .ok t =>
      match tokensFrom s t with
      | [] => .error (finishReplay s)
      | b :: bs =>
        match decodeToken (b :: bs) with
        | .error e => .error (failWith (takeOver s) (tokenError e))
        | .ok (i, _) => .ok i

/-- HC_DECOMPRESS in progress with its tag not yet read: the stepwise view of 47 R315. -/
def startTagStep (s : State) : State := { takeOver s with fetch := .hcTag }

/-- LZ77_DECOMPRESS in progress with its prefix read and no token yet: the stepwise view of 44 R226. -/
def startReplay (s : State) (declared : Nat) : State :=
  { takeOver s with fetch := .lzToken, lz := { declared := declared, pos := 5, outRev := [] } }

/-- The host's writes of a stream to IBUF from index 0 and of its length to ILEN (70 R374 steps 1 and 2). -/
def loadStream (s : State) (bs : List Byte) : State :=
  { s with ibuf := Memory.writeBytes s.ibuf 0 bs, ilen := BitVec.ofNat 32 bs.length, brCtrl := brInvalidated s }

/-- The code placed where the engine's next turn fetches it (notes/assumptions/10.md): a command word in CMD; a tag with one payload byte
0 after it as the Hardcore stream in IBUF; a token after a prefix that declares 18 bytes as the LZ77 stream in IBUF. -/
def placeCode (s : State) : Code → State
  | .cmd w => { startCommand s w with schedule := [] }
  | .tag bs => { startTagStep (loadStream (startCommand s 0x00000071#32) (bs ++ [0#8])) with schedule := [] }
  | .token bs =>
    { startReplay (loadStream (startCommand s 0x00000041#32) (Config.lzFlag :: be32 18 ++ bs)) 18 with schedule := [] }

/-- One row of the opcode table placed where the engine's next turn fetches it. -/
def placeTableWord (s : State) (nbits w : Nat) : State :=
  match codeOfTableWord nbits w with
  | none => s
  | some c => placeCode s c

end Sys2Proof.Machine
end

