-- ==== Sys2Proof/Machine/Dispatch.lean ====
section
/-! DEFINITION. One arm per instruction. -/

namespace Sys2Proof.Machine

def exec (i : Instr) (s : State) : Host.Outcome State Fault Refusal :=
  match i with
  | .nop => Sys2Proof.Machine.execNop s
  | .xfer => Sys2Proof.Machine.execXfer s
  | .brCreate => Sys2Proof.Machine.execBrCreate s
  | .brReadBit => Sys2Proof.Machine.execBrReadBit s
  | .brReadBits => Sys2Proof.Machine.execBrReadBits s
  | .brReadByte => Sys2Proof.Machine.execBrReadByte s
  | .brSkipBits => Sys2Proof.Machine.execBrSkipBits s
  | .brAlign => Sys2Proof.Machine.execBrAlign s
  | .brSeek => Sys2Proof.Machine.execBrSeek s
  | .bwCreate => Sys2Proof.Machine.execBwCreate s
  | .bwWriteBit => Sys2Proof.Machine.execBwWriteBit s
  | .bwWriteBits => Sys2Proof.Machine.execBwWriteBits s
  | .bwFlush => Sys2Proof.Machine.execBwFlush s
  | .crcCalc => Sys2Proof.Machine.execCrcCalc s
  | .crcVerify => Sys2Proof.Machine.execCrcVerify s
  | .crcCreate => Sys2Proof.Machine.execCrcCreate s
  | .crcUpdate => Sys2Proof.Machine.execCrcUpdate s
  | .crcFinalize => Sys2Proof.Machine.execCrcFinalize s
  | .crcDestroy => Sys2Proof.Machine.execCrcDestroy s
  | .huffCompress => Sys2Proof.Machine.execHuffCompress s
  | .huffDecompress => Sys2Proof.Machine.execHuffDecompress s
  | .lz77Compress => Sys2Proof.Machine.execLz77Compress s
  | .lz77Decompress => Sys2Proof.Machine.execLz77Decompress s
  | .bwtFwd => Sys2Proof.Machine.execBwtFwd s
  | .bwtInv => Sys2Proof.Machine.execBwtInv s
  | .mtfEnc => Sys2Proof.Machine.execMtfEnc s
  | .mtfDec => Sys2Proof.Machine.execMtfDec s
  | .bmhCompress => Sys2Proof.Machine.execBmhCompress s
  | .bmhDecompress => Sys2Proof.Machine.execBmhDecompress s
  | .rcCompress => Sys2Proof.Machine.execRcCompress s
  | .rcDecompress => Sys2Proof.Machine.execRcDecompress s
  | .hcCompress => Sys2Proof.Machine.execHcCompress s
  | .hcDecompress => Sys2Proof.Machine.execHcDecompress s
  | .lz77Lit b => Sys2Proof.Machine.execLz77Lit b s
  | .lz77Esc b => Sys2Proof.Machine.execLz77Esc b s
  | .lz77Short len off => Sys2Proof.Machine.execLz77Short len off s
  | .lz77Long len off => Sys2Proof.Machine.execLz77Long len off s
  | .hcTagHuff => Sys2Proof.Machine.execHcTagHuff s
  | .hcTagBmh => Sys2Proof.Machine.execHcTagBmh s
  | .hcTagRc => Sys2Proof.Machine.execHcTagRc s

end Sys2Proof.Machine
end

