-- ==== Sys2Proof/Machine/HostPort.lean ====
section
/-! DEFINITION. The host's accesses: the register port, the IBUF and OBUF ports and the reset event (10_state.md R21, R23; 20_memory.md R65
to R69; 70_reset_and_hazards.md R360, R365, R368 to R370). -/

namespace Sys2Proof.Machine

/-! ## Reads -/

/-- The register of a number (R21); a number above 16 reads 0 (R23). -/
def registerValue (s : State) : Nat → Word
  | 0 => s.cmd
  | 1 => s.status
  | 2 => s.errcode
  | 3 => s.arg0
  | 4 => s.arg1
  | 5 => s.res0
  | 6 => s.res1
  | 7 => s.ilen
  | 8 => s.olen
  | 9 => s.brCtrl
  | 10 => s.brLen
  | 11 => s.brBits
  | 12 => s.brBytes
  | 13 => s.bwCtrl
  | 14 => s.crcCtrl
  | 15 => s.crcAcc
  | 16 => s.ident
  | _ => 0

/-- Whether the pending command is XFER, the one command that writes ILEN (70 R369). -/
def pendingXfer (s : State) : Bool := decide (s.cmd = 0x00000001#32)

/-- Whether a read of a register returns its value: always while idle; while busy for CMD, STATUS, ARG0, ARG1, ID, and for ILEN
outside XFER (70 R369). A number above 16 is no register and reads 0 (notes/assumptions/13.md). -/
def readableNow (s : State) (r : Nat) : Bool :=
  !s.busy || r = 0 || r = 1 || r = 3 || r = 4 || r = 16 || decide (16 < r) || (r = 7 && !pendingXfer s)

/-- `HostReadReg(r)` (20 R66). -/
def hostReadReg (s : State) (r : Nat) : Word :=
  if readableNow s r then registerValue s r else Config.freeWord s.epoch r

/-- `HostReadIBUF(i)` (20 R67, R69): the byte of a written index while idle, else unspecified (93 U2, U3, U4). -/
def hostReadIbuf (s : State) (i : Nat) : Byte :=
  if !s.busy && decide (i < s.caps.ibufCap) then (s.ibuf.read i).getD (Config.freeByte s.epoch .ibuf i)
  else Config.freeByte s.epoch .ibuf i

/-- `HostReadOBUF(i)` (20 R68, R69): a byte of the last output while idle, else unspecified (93 U2, U3, U4). -/
def hostReadObuf (s : State) (i : Nat) : Byte :=
  if !s.busy && decide (i < s.olen.toNat) && decide (i < s.caps.obufCap) then
    (s.obuf.read i).getD (Config.freeByte s.epoch .obuf i)
  else Config.freeByte s.epoch .obuf i

/-- The host's record of a read; no read changes anything else (20 R65). -/
def recordRead (s : State) (v : Word) : State := { s with hostReads := v :: s.hostReads }

/-! ## Writes -/

/-- A write dropped because the engine is busy (70 R368). -/
def dropWrite (s : State) : State := { s with status := statusHazard s, epoch := s.epoch + 1 }

/-- `HostWriteReg(r, v)` (20 R66): CMD starts a command (70 R365), ARG0 and ARG1 store, ILEN stores and invalidates the bit reader
(70 R370); a write to any of the four while busy is dropped with HAZ (70 R368); every other number ignores writes (10 R23). -/
def hostWriteReg (s : State) (r : Nat) (v : Word) : State :=
  if r = 0 ∨ r = 3 ∨ r = 4 ∨ r = 7 then
    if s.busy then dropWrite s
    else if r = 0 then startCommand { s with epoch := s.epoch + 1 } v
    else if r = 3 then { s with arg0 := v, epoch := s.epoch + 1 }
    else if r = 4 then { s with arg1 := v, epoch := s.epoch + 1 }
    else { s with ilen := v, brCtrl := brInvalidated s, epoch := s.epoch + 1 }
  else { s with epoch := s.epoch + 1 }

/-- `HostWriteIBUF(i, b)` (20 R67): stores the byte, sets its mark and invalidates the bit reader; dropped with HAZ while busy; ignored
outside the capacity (notes/assumptions/14.md). -/
def hostWriteIbuf (s : State) (i : Nat) (b : Byte) : State :=
  if i < s.caps.ibufCap then
    if s.busy then dropWrite s
    else { s with ibuf := s.ibuf.write i b, brCtrl := brInvalidated s, epoch := s.epoch + 1 }
  else { s with epoch := s.epoch + 1 }

/-- The reset event (70 R360, R361): a running command is abandoned. The host's own side, its turns to come and its record of reads,
is not the FCE's and stays (notes/assumptions/22.md). -/
def resetEvent (s : State) : State :=
  { State.resetOf s.caps with schedule := s.schedule, hostReads := s.hostReads, epoch := s.epoch + 1 }

/-- One access of the host. -/
def hostAccess (s : State) : HostAction → State
  | .reset => resetEvent s
  | .writeReg r v => hostWriteReg s r v
  | .readReg r => recordRead s (hostReadReg s r)
  | .writeIbuf i b => hostWriteIbuf s i b
  | .readIbuf i => recordRead s ((hostReadIbuf s i).setWidth 32)
  | .readObuf i => recordRead s ((hostReadObuf s i).setWidth 32)

end Sys2Proof.Machine
end

