-- ==== Sys2Proof/Machine/Step.lean ====
section
/-! DEFINITION. One step of the machine: the first turn of the schedule, the engine's where there is none (10_state.md R20,
70_reset_and_hazards.md R365, R366; notes/assumptions/2.md). -/

namespace Sys2Proof.Machine

/-- The engine's turn (70 R366): enabled exactly when `STATUS.BUSY = 1`; an idle engine does nothing. -/
def engineTurn (s : State) : Host.Outcome State Fault Refusal :=
  if s.busy then
    match fetchInstr s with
    | .error r => r
    | .ok i => exec i s
  else .next s

/-- One step. -/
def step (s : State) : Host.Outcome State Fault Refusal :=
  match s.schedule with
  | [] => engineTurn s
  | .engine :: rest => engineTurn { s with schedule := rest }
  | .host a :: rest => .next (hostAccess { s with schedule := rest } a)

/-- A row of the opcode table placed where step fetches its next instruction (notes/assumptions/10.md). -/
def State.withFetchWord (s : State) (nbits w : Nat) : State := placeTableWord s nbits w

end Sys2Proof.Machine
end

