-- ==== Sys2Proof/Machine/Script.lean ====
section
/-! DEFINITION. The host-script notation of 30_encoding.md R109 and R110 as lists of turns (it drives the machine and adds nothing to it). -/

namespace Sys2Proof.Machine.Script

/-- `WR <REG>, <value>` (R109), the register by number. -/
def wr (r : Nat) (v : Word) : List Turn := [.host (.writeReg r v)]

/-- `RD <REG>` (R109). -/
def rd (r : Nat) : List Turn := [.host (.readReg r)]

/-- `WRI <i>, <byte>` (R109). -/
def wri (i : Nat) (b : Byte) : List Turn := [.host (.writeIbuf i b)]

/-- `RDO <i>` (R109). -/
def rdo (i : Nat) : List Turn := [.host (.readObuf i)]

/-- `WAIT` (R109): the engine completes, then the read of STATUS that finds BUSY = 0. -/
def wait : List Turn := .engine :: rd 1

/-- The `WRI` lines of `LOAD` from an index on. -/
def wriFrom (i : Nat) : List Byte → List Turn
  | [] => []
  | b :: bs => wri i b ++ wriFrom (i + 1) bs

/-- `LOAD <bytes>` (R110). -/
def load (bs : List Byte) : List Turn := wriFrom 0 bs ++ wr 7 (BitVec.ofNat 32 bs.length)

/-- `WR CMD, w` and `WAIT` (R110). -/
def word (w : Word) : List Turn := wr 0 w ++ wait

/-- `<MNEMONIC>` (R110). -/
def cmd (i : Instr) : List Turn := word (((opcodeOf i).getD 0).setWidth 32)

/-- `<MNEMONIC> a` (R110). -/
def cmd1 (i : Instr) (a : Word) : List Turn := wr 3 a ++ cmd i

/-- `<MNEMONIC> a, b` (R110). -/
def cmd2 (i : Instr) (a b : Word) : List Turn := wr 3 a ++ wr 4 b ++ cmd i

/-- `EXPECT OBUF` (R110): the reads it makes, of OLEN and of the first `n` bytes; the check is the tester's. -/
def readOutput (n : Nat) : List Turn := rd 8 ++ (List.range n).flatMap rdo

/-- A script placed as the turns to come. -/
def run (s : State) (script : List Turn) : State := { s with schedule := script }

/-- Take every turn of the schedule, one step each; none where a step stops. -/
def finish : Nat → State → Option State
  | 0, s => some s
  | n + 1, s =>
    match step s with
    | .next t => finish n t
    | .fault _ => none
    | .refused _ => none

/-- The state after a whole script. -/
def after (s : State) (script : List Turn) : Option State := finish script.length (run s script)

end Sys2Proof.Machine.Script
end

