-- ==== Sys2Proof/Safety.lean ====
section
/-! DEFINITION. The terms the statements use: how a command completed, what it left alone, the classes of commands, the invariant of the
machine, and the bit stream of the writer. -/

namespace Sys2Proof.Machine

/-! ## How a command completed -/

/-- The model's own fields after a command: the next turn goes through CMD, the scratch is empty, the completion is counted. -/
def CommandOver (s t : State) : Prop := t.fetch = .command ∧ t.lz = LzReplay.empty ∧ t.epoch = s.epoch + 1

/-- The command completed with success: STATUS has DONE set, BUSY and ERR clear, HAZ kept and its reserved bits 0; ERRCODE is 0 and
the results are those given (40 R130). -/
def CompletedOk (s t : State) (r0 r1 : Word) : Prop :=
  t.status = (if s.haz then 0x0000000A#32 else 0x00000002#32) ∧ t.errcode = 0 ∧ t.res0 = r0 ∧ t.res1 = r1 ∧ CommandOver s t

/-- The command completed with an error: STATUS has DONE and ERR set, BUSY clear, HAZ kept and its reserved bits 0; ERRCODE is the
kind's code and both results are 0 (60 R333). -/
def CompletedErr (s t : State) (k : ErrKind) : Prop :=
  t.status = (if s.haz then 0x0000000E#32 else 0x00000006#32) ∧ t.errcode = k.code ∧ t.res0 = 0 ∧ t.res1 = 0 ∧ CommandOver s t

/-! ## What a step leaves alone -/

/-- The capacities and the registers only the host writes: CMD, ARG0, ARG1, ID (10 R21); the host's own side with them. -/
def KeepsOperands (s t : State) : Prop :=
  t.caps = s.caps ∧ t.cmd = s.cmd ∧ t.arg0 = s.arg0 ∧ t.arg1 = s.arg1 ∧ t.ident = s.ident ∧
    t.schedule = s.schedule ∧ t.hostReads = s.hostReads

/-- ILEN and every byte of IBUF. -/
def KeepsInput (s t : State) : Prop := t.ilen = s.ilen ∧ ∀ a, t.ibuf.read a = s.ibuf.read a

/-- OLEN and every byte of OBUF. -/
def KeepsOutput (s t : State) : Prop := t.olen = s.olen ∧ ∀ a, t.obuf.read a = s.obuf.read a

/-- The bit writer's register. -/
def KeepsWriter (s t : State) : Prop := t.bwCtrl = s.bwCtrl

/-- The bit reader's registers. -/
def KeepsReader (s t : State) : Prop :=
  t.brCtrl = s.brCtrl ∧ t.brLen = s.brLen ∧ t.brBits = s.brBits ∧ t.brBytes = s.brBytes

/-- The CRC context. -/
def KeepsCrc (s t : State) : Prop := t.crcCtrl = s.crcCtrl ∧ t.crcAcc = s.crcAcc

/-- Everything but STATUS, ERRCODE, RES0 and RES1. -/
def KeepsRest (s t : State) : Prop :=
  KeepsOperands s t ∧ KeepsInput s t ∧ KeepsOutput s t ∧ KeepsWriter s t ∧ KeepsReader s t ∧ KeepsCrc s t

/-! ## Classes of instructions -/

/-- One of the 33 commands of 30 R92. -/
def isCommand (i : Instr) : Bool := (opcodeOf i).isSome

/-- One of the transform commands, opcode 0x30 and above (40 R130 step 2). -/
def isTransform (i : Instr) : Bool :=
  match opcodeOf i with
  | some op => decide (0x30 ≤ op.toNat)
  | none => false

/-- A BR_* command. -/
def isReaderCommand (i : Instr) : Bool :=
  match i with
  | .brCreate | .brReadBit | .brReadBits | .brReadByte | .brSkipBits | .brAlign | .brSeek => true
  | _ => false

/-- A BW_* command. -/
def isWriterCommand (i : Instr) : Bool :=
  match i with
  | .bwCreate | .bwWriteBit | .bwWriteBits | .bwFlush => true
  | _ => false

/-- A command of the CRC stream (42 R175 to R178). -/
def isCrcStreamCommand (i : Instr) : Bool :=
  match i with
  | .crcCreate | .crcUpdate | .crcFinalize | .crcDestroy => true
  | _ => false

/-- The rows of the error matrix (60 R332): the kinds a command can raise. -/
def kindsRaised : Instr → List ErrKind
  | .nop | .bwCreate | .crcCreate => []
  | .xfer | .brCreate | .brAlign => [.invalidParameter]
  | .brReadBit | .brReadBits | .brReadByte | .brSkipBits | .brSeek => [.invalidParameter, .truncatedData]
  | .bwWriteBit | .bwWriteBits | .bwFlush => [.invalidParameter, .compressionFailed]
  | .crcCalc | .crcVerify | .crcUpdate | .crcFinalize | .crcDestroy => [.invalidParameter]
  | .huffCompress | .lz77Compress | .bwtFwd | .mtfEnc | .bmhCompress | .rcCompress | .hcCompress =>
    [.invalidParameter, .compressionFailed]
  | .bwtInv | .mtfDec => [.invalidParameter, .decompressionFailed]
  | .huffDecompress | .bmhDecompress | .rcDecompress => [.invalidParameter, .truncatedData, .decompressionFailed]
  | .lz77Decompress => [.invalidParameter, .truncatedData, .decompressionFailed, .sizeMismatch]
  | .hcDecompress => [.invalidParameter, .invalidMagic, .truncatedData, .invalidAlgorithm, .decompressionFailed]
  | .lz77Lit _ | .lz77Esc _ | .lz77Short _ _ | .lz77Long _ _ => [.decompressionFailed, .sizeMismatch]
  | .hcTagHuff | .hcTagBmh | .hcTagRc => [.invalidParameter, .truncatedData, .decompressionFailed]

/-! ## The input of a command -/

/-- `IN = IBUF[0..ILEN)` is `x`, written throughout and within the capacity. -/
def InputIs (s : State) (x : List Byte) : Prop :=
  s.ilen.toNat ≤ s.caps.ibufCap ∧ s.ibuf.readRange 0 s.ilen.toNat = some x

/-- The range a CRC command reads is `x` (30 R91). -/
def SourceIs (s : State) (x : List Byte) : Prop :=
  if s.arg0Bit then s.obuf.readRange 0 s.olen.toNat = some x else InputIs s x

/-- Every byte a command may read has been written: those of the input, of the output and of the reader's source (20 R69). -/
def AllWritten (s : State) : Prop :=
  (∀ a, a < s.ilen.toNat → s.ibuf.read a ≠ none) ∧ (∀ a, a < s.olen.toNat → s.obuf.read a ≠ none) ∧
    ∀ a, a < s.brLen.toNat → s.ibuf.read a ≠ none

/-- The output `OBUF[0..OLEN)` is `y`. -/
def OutputIs (s : State) (y : List Byte) : Prop :=
  s.olen.toNat = y.length ∧ s.obuf.readRange 0 s.olen.toNat = some y

/-- A transform command delivered `y` with second result `r1`: `y` is the whole output, RES0 its length, the writer is gone, and the
input, the reader, the CRC context and the operands are as before. -/
def Delivered (s t : State) (y : List Byte) (r1 : Word) : Prop :=
  CompletedOk s t (BitVec.ofNat 32 y.length) r1 ∧ OutputIs t y ∧ (∀ a, y.length ≤ a → t.obuf.read a = none) ∧ t.bwCtrl = 0 ∧
    KeepsOperands s t ∧ KeepsInput s t ∧ KeepsReader s t ∧ KeepsCrc s t

/-- A transform command failed with `k`: no output, the writer gone, the rest as before (60 R333). -/
def TransformFailed (s t : State) (k : ErrKind) : Prop :=
  CompletedErr s t k ∧ t.olen = 0 ∧ (∀ a, t.obuf.read a = none) ∧ t.bwCtrl = 0 ∧
    KeepsOperands s t ∧ KeepsInput s t ∧ KeepsReader s t ∧ KeepsCrc s t

/-- The command delivers `y` with second result `r1`. -/
def Delivers (i : Instr) (s : State) (y : List Byte) (r1 : Word) : Prop := ∃ t, exec i s = .next t ∧ Delivered s t y r1

/-- The command fails with `k` and delivers nothing. -/
def Fails (i : Instr) (s : State) (k : ErrKind) : Prop := ∃ t, exec i s = .next t ∧ TransformFailed s t k

/-- The function of its input that a transform command or a tag row computes, with its second result (files 43 to 47). -/
def codecOf (s : State) (x : List Byte) : Instr → Except ErrKind (List Byte × Word)
  | .huffCompress => withNoRes1 (huffCompress x)
  | .huffDecompress => withNoRes1 (huffDecompress x s.caps.obufCap)
  | .lz77Compress => .ok (lz77Compress x, 0)
  | .lz77Decompress => withNoRes1 (lz77Decompress x s.caps.obufCap)
  | .bwtFwd => .ok ((bwtForward x).1, BitVec.ofNat 32 (bwtForward x).2)
  | .bwtInv => if x.length ≤ s.arg0.toNat then .error .decompressionFailed else .ok (bwtInverse x s.arg0.toNat, 0)
  | .mtfEnc => .ok (mtfEncode x, 0)
  | .mtfDec => .ok (mtfDecode x, 0)
  | .bmhCompress => withNoRes1 (bmhCompress x)
  | .bmhDecompress => withNoRes1 (bmhDecompress x s.caps.obufCap)
  | .rcCompress => withNoRes1 (rcCompress x)
  | .rcDecompress => withNoRes1 (rcDecompress x s.caps.obufCap)
  | .hcCompress => hcCompress x
  | .hcDecompress => hcDecompress x s.caps.obufCap
  | .hcTagHuff => stageResult s.caps.obufCap .huff (x.drop 4)
  | .hcTagBmh => stageResult s.caps.obufCap .bmh (x.drop 4)
  | .hcTagRc => stageResult s.caps.obufCap .rc (x.drop 4)
  | _ => .error .invalidParameter

/-- The kind a transform command raises when its output does not fit OBUF (92 D19). -/
def fullKind : Instr → ErrKind
  | .huffCompress | .lz77Compress | .bwtFwd | .mtfEnc | .bmhCompress | .rcCompress | .hcCompress => .compressionFailed
  | _ => .decompressionFailed

/-! ## The reader's stream -/

/-- The value of the `n` bits of `src` from bit `p`, the sum of R62. -/
def fieldValue (src : List Byte) (p n : Nat) : Nat :=
  ((List.range n).map fun i => (bitAt src (p + i)).toNat * 2 ^ (n - 1 - i)).sum

/-- A valid reader over `src`, every byte of which is written, with the bounds of R40. -/
def ReaderOver (s : State) (src : List Byte) : Prop :=
  s.caps.InRange ∧ s.brValid = true ∧ s.brLen.toNat ≤ s.caps.ibufCap ∧ s.brBits.toNat ≤ 8 * s.brLen.toNat ∧
    s.ibuf.readRange 0 s.brLen.toNat = some src

/-- The command completed with result `r0` and left the reader at bit `p` of its source; nothing else changed. -/
def MovedTo (s t : State) (p : Nat) (r0 : Word) : Prop :=
  CompletedOk s t r0 0 ∧ t.brCtrl = s.brCtrl ∧ t.brLen = s.brLen ∧ t.brBits.toNat = p ∧ t.brBytes.toNat = (p + 7) / 8 ∧
    KeepsOperands s t ∧ KeepsInput s t ∧ KeepsOutput s t ∧ KeepsWriter s t ∧ KeepsCrc s t

/-- The command ran out of bits (41 R150): the reader is invalid, its KIND, length and counters stay, nothing else changed. -/
def ReaderLost (s t : State) : Prop :=
  CompletedErr s t .truncatedData ∧ t.brValid = false ∧ t.brKind = s.brKind ∧ t.brLen = s.brLen ∧ t.brBits = s.brBits ∧
    t.brBytes = s.brBytes ∧ KeepsOperands s t ∧ KeepsInput s t ∧ KeepsOutput s t ∧ KeepsWriter s t ∧ KeepsCrc s t

/-- The command failed with `k` and nothing but STATUS, ERRCODE, RES0 and RES1 changed. -/
def FailedOnly (s t : State) (k : ErrKind) : Prop := CompletedErr s t k ∧ KeepsRest s t

/-! ## The writer's stream -/

/-- The bit stream of the writer (10 R34): the bits of `OBUF[0..OLEN)` and the pending bits. -/
def writerStream (s : State) : Option (List Bool) :=
  (s.obuf.readRange 0 s.olen.toNat).map fun y => bitsOf y ++ (bitsOfByte s.bwAcc).take s.bwNbits

/-- The writer's context as R41 has it: what `BW_CTRL` holds when VALID = 1. -/
def WriterForm (s : State) : Prop :=
  s.bwCtrl = bwCtrlWord s.bwNbits s.bwAcc ∧ s.bwAcc.toNat % 2 ^ (8 - s.bwNbits) = 0

/-- OBUF lists exactly the bytes below OLEN, and OLEN is within the capacity (20 R69, 10 R29). -/
def OutputForm (s : State) : Prop :=
  s.obuf.map Prod.fst = List.range s.olen.toNat ∧ s.olen.toNat ≤ s.caps.obufCap

/-- A valid writer that has written the bits `w`, with the bounds of R41. -/
def WriterOver (s : State) (w : List Bool) : Prop :=
  s.caps.InRange ∧ s.bwValid = true ∧ WriterForm s ∧ OutputForm s ∧ writerStream s = some w

/-- The command completed and the writer's stream is now `w`, `r0` its length: the bytes of the earlier output are as before, and
nothing but OBUF, OLEN and the writer changed. -/
def WroteStream (s t : State) (w : List Bool) : Prop :=
  CompletedOk s t (BitVec.ofNat 32 w.length) 0 ∧ WriterOver t w ∧
    (∀ a, a < s.olen.toNat ∨ t.olen.toNat ≤ a → t.obuf.read a = s.obuf.read a) ∧
    KeepsOperands s t ∧ KeepsInput s t ∧ KeepsReader s t ∧ KeepsCrc s t

/-- The writer overflowed (41 R156): it is gone, the output is as before, nothing else changed. -/
def WriterLost (s t : State) : Prop :=
  CompletedErr s t .compressionFailed ∧ t.bwCtrl = 0 ∧ KeepsOperands s t ∧ KeepsInput s t ∧ KeepsOutput s t ∧ KeepsReader s t ∧
    KeepsCrc s t

/-- The command completed with result `r0`, the CRC context is now `ctrl` and `acc`, and nothing else changed. -/
def CrcSet (s t : State) (r0 ctrl acc : Word) : Prop :=
  CompletedOk s t r0 0 ∧ t.crcCtrl = ctrl ∧ t.crcAcc = acc ∧ KeepsOperands s t ∧ KeepsInput s t ∧ KeepsOutput s t ∧
    KeepsWriter s t ∧ KeepsReader s t

/-! ## The host's accesses -/

/-- The opcode bytes of R92. -/
def legalOpcodes : List Nat :=
  [0x00, 0x01, 0x10, 0x11, 0x12, 0x13, 0x14, 0x15, 0x16, 0x18, 0x19, 0x1A, 0x1C, 0x20, 0x21, 0x22, 0x23, 0x24, 0x25,
    0x30, 0x31, 0x40, 0x41, 0x50, 0x51, 0x52, 0x53, 0x54, 0x55, 0x60, 0x61, 0x70, 0x71]

/-- The registers the host may write: CMD, ARG0, ARG1, ILEN (R21). -/
def isRw (r : Nat) : Bool := r = 0 || r = 3 || r = 4 || r = 7

/-- A read of the host. -/
def isHostRead : HostAction → Bool
  | .readReg _ | .readIbuf _ | .readObuf _ => true
  | _ => false

/-- A host write took effect on nothing but what `t` says: the results, the output, the writer and the CRC context are as before, and so
is the model's own side but for the epoch. -/
def HostKeeps (s t : State) : Prop :=
  t.caps = s.caps ∧ t.ident = s.ident ∧ t.res0 = s.res0 ∧ t.res1 = s.res1 ∧ KeepsOutput s t ∧ KeepsWriter s t ∧ KeepsCrc s t ∧
    t.schedule = s.schedule ∧ t.hostReads = s.hostReads ∧ t.epoch = s.epoch + 1

/-! ## The invariant -/

/-- What every reachable state meets, and every step keeps. -/
structure State.Inv (s : State) : Prop where
  /-- R7 -/
  capsInRange : s.caps.InRange
  /-- the buffers' canonical form, inside the capacity -/
  ibufCanonical : s.ibuf.wf = true
  ibufInside : ∀ c ∈ s.ibuf, c.1 < s.caps.ibufCap
  /-- R29, R69 -/
  outputForm : OutputForm s
  /-- R26: bits 31:4 read as 0 -/
  statusForm : s.status = statusWord s.busy s.done s.err s.haz
  /-- R26: BUSY and DONE are never both 1 -/
  notBusyAndDone : ¬ (s.busy = true ∧ s.done = true)
  /-- R26: ERR = 1 implies DONE = 1 -/
  errImpliesDone : s.err = true → s.done = true
  /-- R26: ERR = 1 if and only if ERRCODE is not 0 -/
  errIffCode : s.err = true ↔ s.errcode ≠ 0
  /-- R331: the values of ERRCODE -/
  codeKnown : s.errcode = 0 ∨ ∃ k : ErrKind, k.raised = true ∧ s.errcode = k.code
  /-- R30: bits 31:2 read as 0 -/
  readerForm : s.brCtrl = brCtrlWord s.brValid s.brKind
  /-- R40, R370 -/
  readerBounds : s.brValid = true →
    s.brLen = s.ilen ∧ s.brLen.toNat ≤ s.caps.ibufCap ∧ s.brBits.toNat ≤ 8 * s.brLen.toNat ∧
      s.brBytes.toNat = (s.brBits.toNat + 7) / 8
  /-- R41 -/
  writerForm : s.bwValid = true → WriterForm s
  writerGone : s.bwValid = false → s.bwCtrl = 0
  /-- R35: value 3 never occurs, bits 31:2 read as 0 -/
  crcForm : s.crcCtrl = 0#32 ∨ s.crcCtrl = 1#32 ∨ s.crcCtrl = 2#32
  /-- R37 -/
  identity : s.ident = Config.idValue

end Sys2Proof.Machine
end

