-- ==== Sys2Proof/Certificates/Slice0/Obligations.lean ====
section
/-! DEFINITION. The statements for the provers. Each docstring names the rules of spec/ it formalises; a statement that rests on a choice of
the model names the log entry. -/

open Sys2Proof Sys2Proof.Machine

/-! ## Encoding -/

/-- Every instruction that has an encoding is read back from it, with every operand (R92, R99 to R102, R108). -/
def Obligations.DecodeInvertsEncode : Prop := ∀ i : Instr, i.wellFormed = true → decode (encode i) = .ok i

/-- A command word stands for one command, and no other word stands for it (R92: the match is on the whole word). -/
def Obligations.CommandWordsAreUnique : Prop :=
  ∀ (w : Word) (i : Instr), decodeCommand w = .ok i → i.wellFormed = true ∧ isCommand i = true ∧ encode i = .cmd w

/-- The token read from the front of a stream is the one whose bytes stand there; the bytes after it are left (R99 to R102, R104). -/
def Obligations.TokenBytesReadBack : Prop :=
  ∀ (bs rest : List Byte) (i : Instr), decodeToken bs = .ok (i, rest) →
    i.wellFormed = true ∧ encode i = .token (tokenBytes i) ∧ bs = tokenBytes i ++ rest

/-- R103: a first byte of 0x81 to 0xBF or 0xD0 to 0xFE starts no token, and the decoder fails with DecompressionFailed. -/
def Obligations.ReservedTokenBytesFail : Prop :=
  ∀ (t : Byte) (rest : List Byte), (0x81 ≤ t.toNat ∧ t.toNat ≤ 0xBF) ∨ (0xD0 ≤ t.toNat ∧ t.toNat ≤ 0xFE) →
    decodeToken (t :: rest) = .error .reservedToken ∧
      ∀ (declared fuel : Nat) (outRev : List Byte),
        replayTokens declared (fuel + 1) (t :: rest) outRev = .error .decompressionFailed

/-- Words and bytes written out from the tables of R92, R99 to R102 and R108, of every family: a word of control, reader, writer and CRC,
the two of Huffman, LZ77, BWT, MTF, BMH, the range coder and Hardcore, the four tokens and the three tags. -/
def Obligations.SampleCodesDecode : Prop :=
  decode (.cmd 0x00000000#32) = .ok .nop ∧ decode (.cmd 0x00000012#32) = .ok .brReadBits ∧
    decode (.cmd 0x0000001C#32) = .ok .bwFlush ∧ decode (.cmd 0x00000025#32) = .ok .crcDestroy ∧
    decode (.cmd 0x00000030#32) = .ok .huffCompress ∧ decode (.cmd 0x00000031#32) = .ok .huffDecompress ∧
    decode (.cmd 0x00000040#32) = .ok .lz77Compress ∧ decode (.cmd 0x00000041#32) = .ok .lz77Decompress ∧
    decode (.cmd 0x00000050#32) = .ok .bwtFwd ∧ decode (.cmd 0x00000051#32) = .ok .bwtInv ∧
    decode (.cmd 0x00000052#32) = .ok .mtfEnc ∧ decode (.cmd 0x00000053#32) = .ok .mtfDec ∧
    decode (.cmd 0x00000054#32) = .ok .bmhCompress ∧ decode (.cmd 0x00000055#32) = .ok .bmhDecompress ∧
    decode (.cmd 0x00000060#32) = .ok .rcCompress ∧ decode (.cmd 0x00000061#32) = .ok .rcDecompress ∧
    decode (.cmd 0x00000070#32) = .ok .hcCompress ∧ decode (.cmd 0x00000071#32) = .ok .hcDecompress ∧
    decode (.token [0x61#8]) = .ok (.lz77Lit 0x61#8) ∧ decode (.token [0x80#8, 0xFF#8]) = .ok (.lz77Esc 0xFF#8) ∧
    decode (.token [0xC3#8, 0x03#8]) = .ok (.lz77Short 6 0x03#8) ∧
    decode (.token [0xFF#8, 0x12#8, 0x10#8, 0x00#8]) = .ok (.lz77Long 0x12#8 0x1000#16) ∧
    decode (.tag [0xAD#8, 0xEF#8, 0x01#8, 0x01#8]) = .ok .hcTagHuff ∧
    decode (.tag [0xAD#8, 0xEF#8, 0x01#8, 0x02#8]) = .ok .hcTagBmh ∧
    decode (.tag [0xAD#8, 0xEF#8, 0x01#8, 0x03#8]) = .ok .hcTagRc

/-! ## One step -/

/-- A turn of the host is its one access (R66). An engine's turn runs the command whose word is in CMD while BUSY = 1, and does nothing
while BUSY = 0 (R366). The turn is the head of the schedule, or the engine's because the schedule is empty
(notes/assumptions/2.md). -/
def Obligations.StepTakesTheFirstTurn : Prop :=
  ∀ (s : State) (rest : List Turn),
    (∀ a, s.schedule = .host a :: rest → step s = .next (hostAccess { s with schedule := rest } a)) ∧
    (∀ i, s.busy = true → s.fetch = .command → decodeCommand s.cmd = .ok i →
      (s.schedule = [] → step s = exec i s) ∧ (s.schedule = .engine :: rest → step s = exec i { s with schedule := rest })) ∧
    (s.busy = false →
      (s.schedule = [] → step s = .next s) ∧ (s.schedule = .engine :: rest → step s = .next { s with schedule := rest }))

/-- In the stepwise view of the stream rows (notes/assumptions/9.md) an engine's turn runs the token at the cursor, or the tag at the front
of the input, with the well-formed instruction its bytes stand for (R227, R315). -/
def Obligations.StepRunsTheStreamRow : Prop :=
  ∀ (s : State) (x : List Byte) (i : Instr), s.busy = true → s.schedule = [] → InputIs s x → x ≠ [] →
    (s.fetch = .lzToken → ∀ rest, decodeToken (x.drop s.lz.pos) = .ok (i, rest) → step s = exec i s) ∧
    (s.fetch = .hcTag → 5 ≤ x.length → decodeTag x = .ok i → step s = exec i s)

/-- R93: a word with a bit of RSV set, or with an opcode byte outside the 33 of R92, completes with InvalidParameter and changes nothing but
STATUS, ERRCODE, RES0 and RES1. -/
def Obligations.IllegalWordsChangeNothingElse : Prop :=
  ∀ s : State, s.busy = true → s.fetch = .command → s.schedule = [] →
    (s.cmd.toNat / 2 ^ 8 ≠ 0 ∨ s.cmd.toNat % 2 ^ 8 ∉ legalOpcodes) →
    ∃ t, step s = .next t ∧ FailedOnly s t .invalidParameter

/-! ## The host's accesses and reset -/

/-- R365: a write to CMD while idle stores the word, sets BUSY, clears DONE, ERR and ERRCODE, whatever the word; RES0, RES1, OLEN, OBUF and
the contexts keep their values. While BUSY = 1 the write is dropped. -/
def Obligations.CmdWriteStartsACommand : Prop :=
  ∀ (s t : State) (w : Word), hostAccess s (.writeReg 0 w) = t →
    (s.busy = false →
      t.cmd = w ∧ t.busy = true ∧ t.done = false ∧ t.err = false ∧ t.haz = s.haz ∧ t.errcode = 0) ∧
    (s.busy = true → t.cmd = s.cmd ∧ t.busy = true ∧ t.done = s.done ∧ t.err = s.err ∧ t.haz = true ∧ t.errcode = s.errcode) ∧
    t.arg0 = s.arg0 ∧ t.arg1 = s.arg1 ∧ KeepsInput s t ∧ KeepsReader s t ∧ HostKeeps s t

/-- R368: a write to CMD, ARG0, ARG1, ILEN or IBUF while BUSY = 1 is dropped and sets HAZ; a write to a read-only or an undefined register
number is ignored and does not set HAZ, busy or not. -/
def Obligations.BusyWritesAreDropped : Prop :=
  ∀ s : State,
    (s.busy = true → ∀ a, ((∃ r v, a = .writeReg r v ∧ isRw r = true) ∨ ∃ i b, a = .writeIbuf i b ∧ i < s.caps.ibufCap) →
      ∀ t, hostAccess s a = t → t.haz = true ∧ t.busy = true ∧ t.done = s.done ∧ t.err = s.err ∧ t.errcode = s.errcode ∧ t.cmd = s.cmd ∧
        t.arg0 = s.arg0 ∧ t.arg1 = s.arg1 ∧ KeepsInput s t ∧ KeepsReader s t ∧ t.fetch = s.fetch ∧ t.lz = s.lz ∧
        HostKeeps s t) ∧
    ∀ r v, isRw r = false → hostAccess s (.writeReg r v) = { s with epoch := s.epoch + 1 }

/-- HAZ stays set in every step but a reset (R368 "sticky until reset", R360 "the only event that clears"). -/
def Obligations.HazardFlagIsSticky : Prop :=
  ∀ s t : State, step s = .next t → s.haz = true → s.schedule.head? ≠ some (.host .reset) → t.haz = true

/-- R23: a write to ARG0 or ARG1 while idle stores all 32 bits and changes no other register; a number above 16 reads 0 and ignores writes.
That it reads 0 while busy too, beside R369, is the model's reading (notes/assumptions/13.md). -/
def Obligations.RegisterPortRules : Prop :=
  ∀ (s : State) (r : Nat) (v : Word),
    (16 < r → hostReadReg s r = 0 ∧ hostAccess s (.writeReg r v) = { s with epoch := s.epoch + 1 }) ∧
    (s.busy = false →
      hostAccess s (.writeReg 3 v) = { s with arg0 := v, epoch := s.epoch + 1 } ∧
      hostAccess s (.writeReg 4 v) = { s with arg1 := v, epoch := s.epoch + 1 })

/-- R65: a read of a register, of IBUF or of OBUF changes nothing but the host's record of what it read, and repeating a read gives the
same value while only reads come between. -/
def Obligations.HostReadsChangeNothing : Prop :=
  ∀ (s : State) (a : HostAction), isHostRead a = true →
    ∃ v, hostAccess s a = { s with hostReads := v :: s.hostReads } ∧
      ∀ b, isHostRead b = true →
        hostAccess (hostAccess s b) a = { hostAccess s b with hostReads := v :: (hostAccess s b).hostReads }

/-- What the host's reads return where the spec says it: every register while idle; while busy CMD, STATUS, ARG0, ARG1, ID and, outside
XFER, ILEN (R369); written bytes of IBUF and the bytes of the output while idle (R67 to R69). -/
def Obligations.HostReadsReturnTheState : Prop :=
  ∀ s : State,
    (s.busy = false ∨ s.cmd ≠ 0x00000001#32 → hostReadReg s 7 = s.ilen) ∧
    hostReadReg s 0 = s.cmd ∧ hostReadReg s 1 = s.status ∧ hostReadReg s 3 = s.arg0 ∧ hostReadReg s 4 = s.arg1 ∧
    hostReadReg s 16 = s.ident ∧
    (s.busy = false →
      hostReadReg s 2 = s.errcode ∧ hostReadReg s 5 = s.res0 ∧ hostReadReg s 6 = s.res1 ∧ hostReadReg s 8 = s.olen ∧
      hostReadReg s 9 = s.brCtrl ∧ hostReadReg s 10 = s.brLen ∧ hostReadReg s 11 = s.brBits ∧ hostReadReg s 12 = s.brBytes ∧
      hostReadReg s 13 = s.bwCtrl ∧ hostReadReg s 14 = s.crcCtrl ∧ hostReadReg s 15 = s.crcAcc ∧
      (∀ i b, i < s.caps.ibufCap → s.ibuf.read i = some b → hostReadIbuf s i = b) ∧
      ∀ y i b, OutputForm s → OutputIs s y → y[i]? = some b → hostReadObuf s i = b)

/-- R370 and R67: a write to IBUF or to ILEN while idle takes effect and makes the bit reader invalid, its other registers, the CRC context,
the writer and the output as before. An index outside IBUF is ignored. -/
def Obligations.InputWritesInvalidateTheReader : Prop :=
  ∀ s : State, s.busy = false →
    (∀ i b, i < s.caps.ibufCap →
      ∀ t, hostAccess s (.writeIbuf i b) = t → t.ibuf.read i = some b ∧ (∀ a, a ≠ i → t.ibuf.read a = s.ibuf.read a) ∧ t.ilen = s.ilen ∧
        t.brValid = false ∧ t.brKind = s.brKind ∧ t.brLen = s.brLen ∧ t.brBits = s.brBits ∧ t.brBytes = s.brBytes ∧
        t.status = s.status ∧ t.errcode = s.errcode ∧ t.cmd = s.cmd ∧ t.arg0 = s.arg0 ∧ t.arg1 = s.arg1 ∧ HostKeeps s t) ∧
    (∀ v t, hostAccess s (.writeReg 7 v) = t →
      t.ilen = v ∧ (∀ a, t.ibuf.read a = s.ibuf.read a) ∧
        t.brValid = false ∧ t.brKind = s.brKind ∧ t.brLen = s.brLen ∧ t.brBits = s.brBits ∧ t.brBytes = s.brBytes ∧
        t.status = s.status ∧ t.errcode = s.errcode ∧ t.cmd = s.cmd ∧ t.arg0 = s.arg0 ∧ t.arg1 = s.arg1 ∧ HostKeeps s t) ∧
    ∀ i b, s.caps.ibufCap ≤ i → hostAccess s (.writeIbuf i b) = { s with epoch := s.epoch + 1 }

/-- The reset event gives every register its reset value and clears every written mark, whatever the engine was doing, and the next turn is
through CMD again; the capacities stay (R360, R361). -/
def Obligations.ResetEventClearsTheMachine : Prop :=
  ∀ s t : State, hostAccess s .reset = t →
    t.caps = s.caps ∧ t.cmd = 0 ∧ t.status = 0 ∧ t.errcode = 0 ∧ t.arg0 = 0 ∧ t.arg1 = 0 ∧ t.res0 = 0 ∧ t.res1 = 0 ∧ t.ilen = 0 ∧
      t.olen = 0 ∧ t.brCtrl = 0 ∧ t.brLen = 0 ∧ t.brBits = 0 ∧ t.brBytes = 0 ∧ t.bwCtrl = 0 ∧ t.crcCtrl = 0 ∧ t.crcAcc = 0 ∧
      t.ident = 0x46434507#32 ∧ (∀ a, t.ibuf.read a = none) ∧ (∀ a, t.obuf.read a = none) ∧ t.fetch = .command ∧
      t.lz = LzReplay.empty

/-- R46: after reset every register is 0 but ID, and every written mark is clear. -/
def Obligations.ResetLeavesZeroRegisters : Prop :=
  State.reset.cmd = 0 ∧ State.reset.status = 0 ∧ State.reset.errcode = 0 ∧ State.reset.arg0 = 0 ∧ State.reset.arg1 = 0 ∧
    State.reset.res0 = 0 ∧ State.reset.res1 = 0 ∧ State.reset.ilen = 0 ∧ State.reset.olen = 0 ∧ State.reset.brCtrl = 0 ∧
    State.reset.brLen = 0 ∧ State.reset.brBits = 0 ∧ State.reset.brBytes = 0 ∧ State.reset.bwCtrl = 0 ∧
    State.reset.crcCtrl = 0 ∧ State.reset.crcAcc = 0 ∧ State.reset.ident = 0x46434507#32 ∧
    (∀ a, State.reset.ibuf.read a = none) ∧ ∀ a, State.reset.obuf.read a = none

/-! ## The machine as a whole -/

/-- Every step keeps the invariant: the capacities' range, the buffers' canonical form, `OLEN <= OBUF_CAP`, the flag rules of R26, the
codes of R331, the reader's and the writer's contexts (R40, R41), CRC_CTRL's values (R35), the ID register. -/
def Obligations.StepKeepsTheInvariant : Prop := ∀ s t : State, s.Inv → step s = .next t → t.Inv

/-- The invariant holds after reset. -/
def Obligations.ResetMeetsTheInvariant : Prop := State.reset.Inv

/-- No instruction changes CMD, ARG0, ARG1 or ID, not even on an error (R22, R25, R37). -/
def Obligations.EngineNeverWritesOperands : Prop :=
  ∀ (i : Instr) (s t : State), exec i s = .next t → KeepsOperands s t

/-- R42: no command outside the CRC_* streaming commands changes the CRC context, and no access of the host but reset does. -/
def Obligations.OnlyCrcCommandsTouchTheCrcContext : Prop :=
  (∀ (i : Instr) (s t : State), isCrcStreamCommand i = false → exec i s = .next t → KeepsCrc s t) ∧
    ∀ (s : State) (a : HostAction), a ≠ .reset → KeepsCrc s (hostAccess s a)

/-- What survives a command (R373, R371, R140): only XFER writes the input; only the BR_* commands and XFER touch the reader; the other
commands than the transform commands and BW_* leave the output and the writer alone; no transform command leaves a writer. -/
def Obligations.ContextsSurviveOtherCommands : Prop :=
  ∀ (i : Instr) (s t : State), isCommand i = true → exec i s = .next t →
    (i ≠ .xfer → KeepsInput s t) ∧ (i ≠ .xfer → isReaderCommand i = false → KeepsReader s t) ∧
      (isTransform i = false → isWriterCommand i = false → KeepsOutput s t ∧ KeepsWriter s t) ∧
      (isTransform i = true → t.bwCtrl = 0)

/-- R366: a command that completes does so in its one turn, with BUSY = 0 and DONE = 1. -/
def Obligations.CommandsCompleteInOneTurn : Prop :=
  ∀ (i : Instr) (s t : State), isCommand i = true → exec i s = .next t →
    t.busy = false ∧ t.done = true ∧ t.haz = s.haz ∧ CommandOver s t

/-- A command that fails reports a kind its row of the matrix allows, and one that succeeds reports none (R332, R331). -/
def Obligations.ErrorKindsFollowTheMatrix : Prop :=
  ∀ (i : Instr) (s t : State), isCommand i = true → exec i s = .next t →
    (t.err = false ∧ t.errcode = 0) ∨ (t.err = true ∧ ∃ k, k ∈ kindsRaised i ∧ k.raised = true ∧ t.errcode = k.code)

/-- What a failing command leaves (R333, with R150 for the reader and R156 for the writer). -/
def Obligations.FailingCommandsLeaveNoOutput : Prop :=
  ∀ (i : Instr) (s t : State), isCommand i = true → exec i s = .next t → t.err = true →
    t.res0 = 0 ∧ t.res1 = 0 ∧ KeepsInput s t ∧ KeepsCrc s t ∧
      (isTransform i = true → t.olen = 0 ∧ t.bwCtrl = 0 ∧ (∀ a, t.obuf.read a = none) ∧ KeepsReader s t) ∧
      (isReaderCommand i = true →
        (t.errcode = 6 → t.brValid = false ∧ t.brKind = s.brKind ∧ t.brLen = s.brLen ∧ t.brBits = s.brBits ∧ t.brBytes = s.brBytes) ∧
        (t.errcode = 1 → KeepsReader s t) ∧ KeepsOutput s t ∧ KeepsWriter s t) ∧
      (isWriterCommand i = true → (t.errcode = 8 → t.bwCtrl = 0) ∧ (t.errcode = 1 → KeepsWriter s t) ∧ KeepsOutput s t) ∧
      (isTransform i = false → isReaderCommand i = false → isWriterCommand i = false → KeepsRest s t)

/-- No refusal where everything a command may read has been written: every instruction answers a next state (R366 "always terminates"). -/
def Obligations.EveryInstructionRunsOnWrittenData : Prop :=
  ∀ (i : Instr) (s : State), AllWritten s → ∃ t, exec i s = .next t

/-- A command whose input holds a byte never written is refused (R69, U1): a transform or CRC command once frame steps 3 and 4 have passed
(notes/assumptions/6.md, notes/assumptions/21.md), a reading command once there is a valid reader (notes/assumptions/7.md). -/
def Obligations.UnwrittenInputIsRefused : Prop :=
  ∀ (i : Instr) (s : State),
    (isTransform i = true ∨ (s.arg0Bit = false ∧ (i = .crcCalc ∨ i = .crcVerify ∨ i = .crcUpdate)) →
      s.ilen.toNat ≤ s.caps.ibufCap → (∃ a, a < s.ilen.toNat ∧ s.ibuf.read a = none) → exec i s = .refused .unwrittenInput) ∧
    (i = .brReadBit ∨ i = .brReadBits ∨ i = .brReadByte → s.brValid = true →
      (∃ a, a < s.brLen.toNat ∧ s.ibuf.read a = none) → exec i s = .refused .unwrittenInput)

/-- Steps 2 to 4 of the command frame (R130): an input longer than IBUF, and for the transform commands an empty one, is InvalidParameter,
with the effects of R333. That it is so whatever bytes of the input are written is the model's reading (notes/assumptions/21.md; for
BR_CREATE notes/assumptions/26.md). -/
def Obligations.FrameChecksComeFirst : Prop :=
  ∀ (i : Instr) (s : State),
    (isTransform i = true → s.caps.ibufCap < s.ilen.toNat ∨ s.ilen = 0 → Fails i s .invalidParameter) ∧
    (i = .brCreate ∨ (s.arg0Bit = false ∧ (i = .crcCalc ∨ i = .crcVerify ∨ i = .crcUpdate)) → s.caps.ibufCap < s.ilen.toNat →
      ∃ t, exec i s = .next t ∧ FailedOnly s t .invalidParameter)

/-- A transform command's outcome is a function of the capacities, its input and ARG0: states that agree on them give the same ERRCODE,
RES0, RES1, OLEN and output, whatever the contexts, the earlier output and the earlier results hold (R376, R140). -/
def Obligations.TransformsDependOnTheirInputOnly : Prop :=
  ∀ (i : Instr) (s s' t t' : State), isTransform i = true → s'.caps = s.caps → s'.arg0 = s.arg0 → s'.ilen = s.ilen →
    (∀ a, a < s.ilen.toNat → s'.ibuf.read a = s.ibuf.read a) → exec i s = .next t → exec i s' = .next t' →
    t'.errcode = t.errcode ∧ t'.res0 = t.res0 ∧ t'.res1 = t.res1 ∧ KeepsOutput t t' ∧ t'.bwCtrl = t.bwCtrl

/-! ## Housekeeping commands -/

/-- R131: NOP, the word 0, completes with both results 0 and changes no buffer, no length and no context. -/
def Obligations.NopCompletes : Prop :=
  encode .nop = .cmd 0x00000000#32 ∧ ∀ s : State, ∃ t, exec .nop s = .next t ∧ CompletedOk s t 0 0 ∧ KeepsRest s t

/-- XFER (R132): the output becomes the input, bytes above it stay, the reader is invalid, the rest is as before; an output longer than
IBUF changes nothing and fails. RES0 is OLEN by R132, where R94 read with R92 would give 0 (notes/assumptions/30.md). -/
def Obligations.XferMovesTheOutput : Prop :=
  ∀ s : State,
    (∀ y, OutputIs s y → y.length ≤ s.caps.ibufCap →
      ∃ t, exec .xfer s = .next t ∧ CompletedOk s t s.olen 0 ∧ t.ilen = s.olen ∧ t.ibuf.readRange 0 s.olen.toNat = some y ∧
        (∀ a, s.olen.toNat ≤ a → t.ibuf.read a = s.ibuf.read a) ∧ t.brValid = false ∧ t.brKind = s.brKind ∧ t.brLen = s.brLen ∧
        t.brBits = s.brBits ∧ t.brBytes = s.brBytes ∧ KeepsOperands s t ∧ KeepsOutput s t ∧ KeepsWriter s t ∧ KeepsCrc s t) ∧
    (s.caps.ibufCap < s.olen.toNat → ∃ t, exec .xfer s = .next t ∧ FailedOnly s t .invalidParameter)

/-! ## The bit reader -/

/-- BR_CREATE (R142): a reader over the input at bit 0, of the kind ARG0 bit 0 says; an existing one is replaced. That it
completes over unwritten bytes of the input too, beside R69 and U1, is the model's reading (notes/assumptions/26.md). -/
def Obligations.BrCreateMakesAReader : Prop :=
  ∀ s : State, s.ilen.toNat ≤ s.caps.ibufCap →
    ∃ t, exec .brCreate s = .next t ∧ CompletedOk s t 0 0 ∧ t.brLen = s.ilen ∧ t.brBits = 0 ∧ t.brBytes = 0 ∧
      t.brCtrl = (if s.arg0.getLsbD 0 then 3#32 else 1#32) ∧
      KeepsOperands s t ∧ KeepsInput s t ∧ KeepsOutput s t ∧ KeepsWriter s t ∧ KeepsCrc s t

/-- BR_READ_BIT, BR_READ_BITS and BR_READ_BYTE (R143 to R145): the bits at the cursor, most significant first, and the cursor past them.
BR_READ_BYTE takes eight whatever ARG0 holds, at any cursor (R146). -/
def Obligations.ReadsReturnTheBitsAtTheCursor : Prop :=
  ∀ (s : State) (src : List Byte), ReaderOver s src →
    (s.brBits.toNat + 1 ≤ 8 * s.brLen.toNat → ∃ t, exec .brReadBit s = .next t ∧
      MovedTo s t (s.brBits.toNat + 1) (BitVec.ofNat 32 (fieldValue src s.brBits.toNat 1))) ∧
    (1 ≤ s.arg0.toNat → s.arg0.toNat ≤ 32 → s.brBits.toNat + s.arg0.toNat ≤ 8 * s.brLen.toNat →
      fieldValue src s.brBits.toNat s.arg0.toNat < 2 ^ s.arg0.toNat ∧
      ∃ t, exec .brReadBits s = .next t ∧
        MovedTo s t (s.brBits.toNat + s.arg0.toNat) (BitVec.ofNat 32 (fieldValue src s.brBits.toNat s.arg0.toNat))) ∧
    (s.brBits.toNat + 8 ≤ 8 * s.brLen.toNat → ∃ t, exec .brReadByte s = .next t ∧
      MovedTo s t (s.brBits.toNat + 8) (BitVec.ofNat 32 (fieldValue src s.brBits.toNat 8)))

/-- BR_SKIP_BITS, BR_ALIGN and BR_SEEK (R147 to R149): where the cursor goes. That they complete over an unwritten source too, beside R69
and U1, is the model's reading (notes/assumptions/26.md). -/
def Obligations.MovesSetTheCursor : Prop :=
  ∀ s : State, s.caps.InRange → s.brValid = true → s.brLen.toNat ≤ s.caps.ibufCap → s.brBits.toNat ≤ 8 * s.brLen.toNat →
    (s.brBits.toNat + s.arg0.toNat ≤ 8 * s.brLen.toNat →
      ∃ t, exec .brSkipBits s = .next t ∧ MovedTo s t (s.brBits.toNat + s.arg0.toNat) 0) ∧
    (∃ t, exec .brAlign s = .next t ∧ MovedTo s t ((s.brBits.toNat + 7) / 8 * 8) 0) ∧
    (s.brKind = true → s.arg0.toNat ≤ 8 * s.brLen.toNat → ∃ t, exec .brSeek s = .next t ∧ MovedTo s t s.arg0.toNat 0)

/-- How the reader commands fail, in the order of their checks (R140, R143 to R150): no reader, a count outside 1 to 32 or a seek on a
buffer-backed reader changes nothing; too few bits, or a seek beyond the end, loses the reader and consumes no bit.
The reading commands fail so over a source that is written throughout, and without a reader whatever is written
(notes/assumptions/7.md); the skip and the seek whatever is written (notes/assumptions/26.md): the model's readings beside R69 and U1. -/
def Obligations.ReaderFailures : Prop :=
  ∀ s : State,
    (s.brValid = false →
      ∀ i, i = .brReadBit ∨ i = .brReadBits ∨ i = .brReadByte ∨ i = .brSkipBits ∨ i = .brAlign ∨ i = .brSeek →
        ∃ t, exec i s = .next t ∧ FailedOnly s t .invalidParameter) ∧
    (s.brValid = true → s.brBits.toNat ≤ 8 * s.brLen.toNat →
      ((∀ a, a < s.brLen.toNat → s.ibuf.read a ≠ none) →
        (8 * s.brLen.toNat < s.brBits.toNat + 1 → ∃ t, exec .brReadBit s = .next t ∧ ReaderLost s t) ∧
        (s.arg0.toNat < 1 ∨ 32 < s.arg0.toNat → ∃ t, exec .brReadBits s = .next t ∧ FailedOnly s t .invalidParameter) ∧
        (1 ≤ s.arg0.toNat → s.arg0.toNat ≤ 32 → 8 * s.brLen.toNat < s.brBits.toNat + s.arg0.toNat →
          ∃ t, exec .brReadBits s = .next t ∧ ReaderLost s t) ∧
        (8 * s.brLen.toNat < s.brBits.toNat + 8 → ∃ t, exec .brReadByte s = .next t ∧ ReaderLost s t)) ∧
      (8 * s.brLen.toNat < s.brBits.toNat + s.arg0.toNat → ∃ t, exec .brSkipBits s = .next t ∧ ReaderLost s t) ∧
      (s.brKind = false → ∃ t, exec .brSeek s = .next t ∧ FailedOnly s t .invalidParameter) ∧
      (s.brKind = true → 8 * s.brLen.toNat < s.arg0.toNat → ∃ t, exec .brSeek s = .next t ∧ ReaderLost s t))

/-! ## The bit writer -/

/-- R152: BW_CREATE, the word 0x18, gives a writer with nothing pending and an empty output, whatever was there. -/
def Obligations.BwCreateMakesAWriter : Prop :=
  encode .bwCreate = .cmd 0x00000018#32 ∧
  ∀ s : State, ∃ t, exec .bwCreate s = .next t ∧ CompletedOk s t 0 0 ∧ t.bwCtrl = 1 ∧ t.olen = 0 ∧ (∀ a, t.obuf.read a = none) ∧
    KeepsOperands s t ∧ KeepsInput s t ∧ KeepsReader s t ∧ KeepsCrc s t

/-- BW_WRITE_BIT, BW_WRITE_BITS and BW_FLUSH (R151, R153 to R155): the bits appended to the stream, most significant of the `n` first; a
flush appends 0 bits up to the byte boundary and leaves none pending; RES0 is the stream's length. -/
def Obligations.WritesAppendToTheStream : Prop :=
  ∀ (s : State) (old : List Bool), WriterOver s old →
    (¬ (s.bwNbits = 7 ∧ s.olen.toNat = s.caps.obufCap) →
      ∃ t, exec .bwWriteBit s = .next t ∧ WroteStream s t (old ++ [s.arg0.getLsbD 0])) ∧
    (1 ≤ s.arg0.toNat → s.arg0.toNat ≤ 32 → s.olen.toNat + (s.bwNbits + s.arg0.toNat) / 8 ≤ s.caps.obufCap →
      ∃ t, exec .bwWriteBits s = .next t ∧
        WroteStream s t (old ++ (List.range s.arg0.toNat).map fun j => s.arg1.getLsbD (s.arg0.toNat - 1 - j))) ∧
    (s.bwNbits = 0 ∨ s.olen.toNat < s.caps.obufCap →
      ∃ t, exec .bwFlush s = .next t ∧ t.bwNbits = 0 ∧ WroteStream s t (old ++ List.replicate ((8 - s.bwNbits) % 8) false))

/-- How the writer commands fail, in the order of their checks (R151, R153 to R156): no writer, or a count outside 1 to 32, changes
nothing; a full OBUF loses the writer and writes no bit. -/
def Obligations.WriterFailures : Prop :=
  ∀ s : State,
    (s.bwValid = false → ∀ i, i = .bwWriteBit ∨ i = .bwWriteBits ∨ i = .bwFlush →
      ∃ t, exec i s = .next t ∧ FailedOnly s t .invalidParameter) ∧
    (s.bwValid = true →
      (s.bwNbits = 7 → s.olen.toNat = s.caps.obufCap → ∃ t, exec .bwWriteBit s = .next t ∧ WriterLost s t) ∧
      (s.arg0.toNat < 1 ∨ 32 < s.arg0.toNat → ∃ t, exec .bwWriteBits s = .next t ∧ FailedOnly s t .invalidParameter) ∧
      (1 ≤ s.arg0.toNat → s.arg0.toNat ≤ 32 → s.caps.obufCap < s.olen.toNat + (s.bwNbits + s.arg0.toNat) / 8 →
        ∃ t, exec .bwWriteBits s = .next t ∧ WriterLost s t) ∧
      (0 < s.bwNbits → s.olen.toNat = s.caps.obufCap → ∃ t, exec .bwFlush s = .next t ∧ WriterLost s t))

/-! ## CRC -/

/-- CRC_CALC and CRC_VERIFY (R173, R174): the checksum of the range ARG0 bit 0 selects, the comparison with ARG1 a result, nothing else
changed. -/
def Obligations.OneShotCrcReturnsTheChecksum : Prop :=
  ∀ (s : State) (x : List Byte), SourceIs s x →
    (∃ t, exec .crcCalc s = .next t ∧ CompletedOk s t (crc32 x) 0 ∧ KeepsRest s t) ∧
    ∃ t, exec .crcVerify s = .next t ∧ CompletedOk s t (if crc32 x = s.arg1 then 1 else 0) (crc32 x) ∧ KeepsRest s t

/-- The streaming commands where they succeed (R175 to R178). CRC_UPDATE's RES0 is the length by R176, where R94 read with R92 would give 0
(notes/assumptions/30.md). -/
def Obligations.CrcStreamCommandsComplete : Prop :=
  ∀ s : State,
    (∃ t, exec .crcCreate s = .next t ∧ CrcSet s t 0 1 0xFFFFFFFF#32) ∧
    (∀ x, s.crcState = 1#2 → SourceIs s x →
      ∃ t, exec .crcUpdate s = .next t ∧ CrcSet s t (BitVec.ofNat 32 x.length) s.crcCtrl (crcRun s.crcAcc x)) ∧
    (s.crcState = 1#2 → ∃ t, exec .crcFinalize s = .next t ∧ CrcSet s t (s.crcAcc ^^^ 0xFFFFFFFF#32) 2 s.crcAcc) ∧
    (s.crcState ≠ 0#2 → ∃ t, exec .crcDestroy s = .next t ∧ CrcSet s t 0 0 0)

/-- The streaming commands where the context is in the wrong state (R176 to R178): InvalidParameter, the context unchanged. -/
def Obligations.CrcContextErrors : Prop :=
  ∀ s : State,
    (s.crcState ≠ 1#2 → (∃ t, exec .crcFinalize s = .next t ∧ FailedOnly s t .invalidParameter) ∧
      ∀ x, SourceIs s x → ∃ t, exec .crcUpdate s = .next t ∧ FailedOnly s t .invalidParameter) ∧
    (s.crcState = 0#2 → ∃ t, exec .crcDestroy s = .next t ∧ FailedOnly s t .invalidParameter)

/-- R172 and R179: cutting the data into chunks does not change the result, and the bytes of "123456789" hash to 0xCBF43926. -/
def Obligations.CrcOfChunksAndCheckValue : Prop :=
  (∀ (acc : Word) (x y : List Byte), crcRun acc (x ++ y) = crcRun (crcRun acc x) y) ∧
    crc32 [0x31#8, 0x32#8, 0x33#8, 0x34#8, 0x35#8, 0x36#8, 0x37#8, 0x38#8, 0x39#8] = 0xCBF43926#32

/-- The table form of the byte step is the bitwise definition (R171, R172; G1: "A model can drop the table and use the bitwise
definition"). -/
def Obligations.CrcTableFormIsTheBitwiseForm : Prop :=
  ∀ (acc : Word) (b : Byte), crcStep acc b = (List.range 8).foldl (fun c _ => crcShift c) (acc ^^^ b.setWidth 32)

/-! ## Transform commands and tag rows -/

/-- The encoders, BWT_FWD and MTF_ENC on a non-empty input whose output fits OBUF (R198, R225, R253, R259, R264, R290, R314): the output,
its length in OLEN and RES0, the second result in RES1. -/
def Obligations.EncodersDeliver : Prop :=
  ∀ (s : State) (x y : List Byte), s.caps.InRange → InputIs s x → x ≠ [] → y.length ≤ s.caps.obufCap →
    (huffCompress x = .ok y → Delivers .huffCompress s y 0) ∧
    (lz77Compress x = y → Delivers .lz77Compress s y 0) ∧
    ((bwtForward x).1 = y → Delivers .bwtFwd s y (BitVec.ofNat 32 (bwtForward x).2)) ∧
    (mtfEncode x = y → Delivers .mtfEnc s y 0) ∧
    (bmhCompress x = .ok y → Delivers .bmhCompress s y 0) ∧
    (rcCompress x = .ok y → Delivers .rcCompress s y 0) ∧
    ∀ st, hcCompress x = .ok (y, st) → Delivers .hcCompress s y st

/-- The decoders, BWT_INV and MTF_DEC, and the three tag rows, on a non-empty input that decodes to an output that fits OBUF (R201, R229,
R256, R261, R266, R293, R315, R317). The tag rows are the stepwise view of R315 (notes/assumptions/9.md). -/
def Obligations.DecodersDeliver : Prop :=
  ∀ (s : State) (x y : List Byte), s.caps.InRange → InputIs s x → x ≠ [] → y.length ≤ s.caps.obufCap →
    (huffDecompress x s.caps.obufCap = .ok y → Delivers .huffDecompress s y 0) ∧
    (lz77Decompress x s.caps.obufCap = .ok y → Delivers .lz77Decompress s y 0) ∧
    (s.arg0.toNat < x.length → bwtInverse x s.arg0.toNat = y → Delivers .bwtInv s y 0) ∧
    (mtfDecode x = y → Delivers .mtfDec s y 0) ∧
    (bmhDecompress x s.caps.obufCap = .ok y → Delivers .bmhDecompress s y 0) ∧
    (rcDecompress x s.caps.obufCap = .ok y → Delivers .rcDecompress s y 0) ∧
    (∀ st, hcDecompress x s.caps.obufCap = .ok (y, st) → Delivers .hcDecompress s y st) ∧
    (huffDecompress (x.drop 4) s.caps.obufCap = .ok y → Delivers .hcTagHuff s y 1) ∧
    (bmhDecompress (x.drop 4) s.caps.obufCap = .ok y → Delivers .hcTagBmh s y 2) ∧
    (rcDecompress (x.drop 4) s.caps.obufCap = .ok y → Delivers .hcTagRc s y 3)

/-- Every transform command and tag row fails with the kind its function raises, and with CompressionFailed or DecompressionFailed where
its output does not fit OBUF; nothing is delivered (R130 step 5, R333, R334, R343). The tag rows are the stepwise view of R315, the
model's (notes/assumptions/9.md). -/
def Obligations.CodecErrorsAreReported : Prop :=
  ∀ (i : Instr) (s : State) (x : List Byte), isTransform i = true ∨ i = .hcTagHuff ∨ i = .hcTagBmh ∨ i = .hcTagRc →
    InputIs s x → x ≠ [] →
    (∀ k, codecOf s x i = .error k → Fails i s k) ∧
      ∀ y r1, codecOf s x i = .ok (y, r1) → s.caps.obufCap < y.length → Fails i s (fullKind i)

/-! ## The token rows -/

/-- The four tokens on the replay of a stream (R99 to R102, R227, R228; the replay in the state is notes/assumptions/9.md): a literal
appends its byte; a match appends `len` bytes, each the byte `off` places back in the output as it then is. Nothing else changes but the
cursor, which moves past the token. -/
def Obligations.TokensExtendTheReplay : Prop :=
  ∀ s : State,
    (∀ b : Byte, s.lz.outRev.length < s.lz.declared →
      exec (.lz77Lit b) s = .next { s with lz := { declared := s.lz.declared, pos := s.lz.pos + 1, outRev := b :: s.lz.outRev } } ∧
      exec (.lz77Esc b) s = .next { s with lz := { declared := s.lz.declared, pos := s.lz.pos + 2, outRev := b :: s.lz.outRev } }) ∧
    (∀ (len off : Nat), 3 ≤ len → len ≤ 18 → 1 ≤ off → off ≤ 4096 → off ≤ s.lz.outRev.length →
      s.lz.outRev.length + len ≤ s.lz.declared →
      ∃ out : List Byte, out.length = s.lz.outRev.length + len ∧
        (∀ k, k < s.lz.outRev.length → out[k]? = s.lz.outRev.reverse[k]?) ∧
        (∀ k, k < len → out[s.lz.outRev.length + k]? = out[s.lz.outRev.length + k - off]?) ∧
        (off ≤ 255 → exec (.lz77Short len (BitVec.ofNat 8 off)) s =
          .next { s with lz := { declared := s.lz.declared, pos := s.lz.pos + 2, outRev := out.reverse } }) ∧
        exec (.lz77Long (BitVec.ofNat 8 len) (BitVec.ofNat 16 off)) s =
          .next { s with lz := { declared := s.lz.declared, pos := s.lz.pos + 4, outRev := out.reverse } })

/-- How a token fails (R227): a literal beyond the declared size is SizeMismatch; for a match the length of LONG is checked first, then the
offset, then the declared size. The replay in the state on which the token rows run is the model's (notes/assumptions/9.md). -/
def Obligations.TokenErrors : Prop :=
  ∀ s : State,
    (∀ b : Byte, s.lz.outRev.length = s.lz.declared →
      Fails (.lz77Lit b) s .sizeMismatch ∧ Fails (.lz77Esc b) s .sizeMismatch) ∧
    (∀ (len : Byte) (off : BitVec 16), len.toNat < 3 ∨ 18 < len.toNat → Fails (.lz77Long len off) s .decompressionFailed) ∧
    (∀ (len : Nat) (off : Byte), off.toNat = 0 ∨ s.lz.outRev.length < off.toNat →
      Fails (.lz77Short len off) s .decompressionFailed) ∧
    (∀ (len : Byte) (off : BitVec 16), off.toNat = 0 ∨ 4096 < off.toNat ∨ s.lz.outRev.length < off.toNat →
      Fails (.lz77Long len off) s .decompressionFailed) ∧
    (∀ (len : Nat) (off : Byte), 1 ≤ off.toNat → off.toNat ≤ s.lz.outRev.length → s.lz.declared < s.lz.outRev.length + len →
      Fails (.lz77Short len off) s .sizeMismatch) ∧
    ∀ (len : Byte) (off : BitVec 16), 3 ≤ len.toNat → len.toNat ≤ 18 → 1 ≤ off.toNat → off.toNat ≤ 4096 →
      off.toNat ≤ s.lz.outRev.length → s.lz.declared < s.lz.outRev.length + len.toNat → Fails (.lz77Long len off) s .sizeMismatch

/-! ## Refinement: the stepwise view of the stream rows is the command -/

/-- Running the tokens of a stream one step each, from the replay's start to its end, ends in the very state LZ77_DECOMPRESS reaches in its
one transition (R226, R227, R229, R366). -/
def Obligations.TokenStepsReplayTheCommand : Prop :=
  ∀ (s : State) (x tokens : List Byte) (declared : Nat), s.busy = true → s.schedule = [] → InputIs s x →
    lzPrefix x s.caps.obufCap = .ok (declared, tokens) →
    ∃ k, Host.Core.run core k (startReplay s declared) = exec .lz77Decompress s

/-- Reading the tag and dispatching on it is the whole of HC_DECOMPRESS, its errors and refusals included (R315, R316, R317). -/
def Obligations.TagStepIsTheCommand : Prop :=
  ∀ s : State, s.busy = true → s.schedule = [] → step (startTagStep s) = exec .hcDecompress s

/-! ## The codecs -/

/-- R221: the match found at `p` is the longest in the window, and of the longest the nearest. `hist` are the suffixes before `p`, nearest
first; the agreement of two suffixes is counted up to `min 18 (n - p)`. -/
def Obligations.FindMatchIsTheLongestNearest : Prop :=
  ∀ (x : List Byte) (p : Nat), p ≤ x.length →
    let hist := (List.range p).reverse.map fun j => x.drop j
    let maxlen := min 18 (x.length - p)
    let agree := fun j l => l ≤ maxlen ∧ ∀ i, i < l → x[j + i]? = x[p + i]?
    let m := findMatch (x.drop p) hist
    (maxlen < 3 → m = (0, 0)) ∧
    (3 ≤ maxlen →
      (m.1 = 0 → m.2 = 0) ∧
      (0 < m.1 → 1 ≤ m.2 ∧ m.2 ≤ p ∧ m.2 ≤ 4096 ∧ agree (p - m.2) m.1 ∧ ∀ j, p - m.2 < j → j < p → ¬ agree j m.1) ∧
      ∀ j l, j < p → p - 4096 ≤ j → agree j l → l ≤ m.1)

/-- R230: every non-empty input no longer than the capacity comes back from its LZ77 stream (`2^28` is R7's limit of a
capacity). -/
def Obligations.Lz77RoundTrip : Prop :=
  ∀ (x : List Byte) (cap : Nat), x ≠ [] → x.length ≤ cap → x.length ≤ 2 ^ 28 → lz77Decompress (lz77Compress x) cap = .ok x

/-- R202: every non-empty input no longer than the capacity comes back from its Huffman stream; the encoder does not fail. -/
def Obligations.HuffmanRoundTrip : Prop :=
  ∀ (x : List Byte) (cap : Nat), x ≠ [] → x.length ≤ cap → x.length ≤ 2 ^ 28 →
    ∃ y, huffCompress x = .ok y ∧ huffDecompress y cap = .ok x

/-- R250: `SA` lists every rotation once, in increasing order of the rotations' bytes compared as unsigned values, equal rotations by
index. -/
def Obligations.RotationsAreSorted : Prop :=
  ∀ x : List Byte,
    (suffixOrder x).Perm (List.range x.length) ∧
    (suffixOrder x).Pairwise fun i j =>
      (x.drop i ++ x.take i).map BitVec.toNat < (x.drop j ++ x.take j).map BitVec.toNat ∨
        (x.drop i ++ x.take i = x.drop j ++ x.take j ∧ i < j)

/-- R255: the inverse transform of the forward transform is the input. -/
def Obligations.BwtRoundTrip : Prop :=
  ∀ x : List Byte, x ≠ [] → bwtInverse (bwtForward x).1 (bwtForward x).2 = x ∧ (bwtForward x).2 < x.length

/-- R260: the two move-to-front coders invert each other, on all sequences. -/
def Obligations.MtfRoundTrip : Prop := ∀ x : List Byte, mtfDecode (mtfEncode x) = x ∧ mtfEncode (mtfDecode x) = x

/-- The BMH pipeline comes back (R267). -/
def Obligations.BmhRoundTrip : Prop :=
  ∀ (x : List Byte) (cap : Nat), x ≠ [] → x.length ≤ cap → x.length ≤ 2 ^ 28 →
    ∃ y, bmhCompress x = .ok y ∧ bmhDecompress y cap = .ok x

/-- The range coder keeps its bounds (R281 to R284): a probability stays within 31 to 2017, `range` at or above `2^24` and below `2^32`,
`low` below `2^33`; and each call of shift_low adds one to the bytes written and held back. -/
def Obligations.RangeCoderKeepsItsBounds : Prop :=
  (∀ (p : Nat) (b : Bool), 31 ≤ p → p ≤ 2017 → 31 ≤ adaptProb p b ∧ adaptProb p b ≤ 2017) ∧
  (∀ (e : RcEnc) (p : Nat) (b : Bool), 31 ≤ p → p ≤ 2017 → 2 ^ 24 ≤ e.range → e.range < 2 ^ 32 → e.low + e.range ≤ 2 ^ 33 →
    2 ^ 24 ≤ (encodeBit e p b).range ∧ (encodeBit e p b).range < 2 ^ 32 ∧
      (encodeBit e p b).low + (encodeBit e p b).range ≤ 2 ^ 33) ∧
  ∀ e : RcEnc, 1 ≤ e.cacheSize →
    1 ≤ (shiftLow e).cacheSize ∧ (shiftLow e).outRev.length + (shiftLow e).cacheSize = e.outRev.length + e.cacheSize + 1

/-- R294: every non-empty input whose compression does not fail comes back from its range-coder stream. -/
def Obligations.RangeCoderRoundTrip : Prop :=
  ∀ (x y : List Byte) (cap : Nat), x ≠ [] → x.length ≤ cap → x.length ≤ 2 ^ 28 → rcCompress x = .ok y →
    rcDecompress y cap = .ok x

/-- R311 to R314: the stage HC_COMPRESS picks, from the counts of R311 written by index; the stream of the one coder picked, after the tag
`AD EF 01 stage`, is its output, the stage its second result, and no other coder is tried. Whether a coder ever fails here is unknown (93 U8); the clauses for it keep
R288's branch. The effects of the failures are R130's and R333's; that ILEN above IBUF_CAP, or 0, is InvalidParameter whatever bytes of
the input are written is the model's reading (notes/assumptions/21.md). -/
def Obligations.StageFollowsTheMetrics : Prop :=
  ∀ x : List Byte,
    let eq := ((List.range x.length).filter fun i => decide (1 ≤ i) && decide (x[i]? = x[i - 1]?)).length
    let txt := ((List.range x.length).filter fun i =>
      let b := (x.getD i 0#8).toNat
      decide (0x20 ≤ b ∧ b ≤ 0x7E) || decide (b = 0x09) || decide (b = 0x0A) || decide (b = 0x0D)).length
    let st : Nat := if 100 * eq > 30 * x.length then 1 else if 100 * txt > 80 * x.length then 2 else 3
    let coded := if st = 1 then huffCompress x else if st = 2 then bmhCompress x else rcCompress x
    let tag := [0xAD#8, 0xEF#8, 0x01#8, BitVec.ofNat 8 st]
    (stageOf x).id = BitVec.ofNat 8 st ∧
    (∀ k, coded = .error k → hcCompress x = .error k) ∧
    (∀ payload, coded = .ok payload → hcCompress x = .ok (tag ++ payload, BitVec.ofNat 32 st)) ∧
    ∀ s : State, s.caps.InRange →
      (s.caps.ibufCap < s.ilen.toNat ∨ s.ilen = 0 → Fails .hcCompress s .invalidParameter) ∧
      (InputIs s x → x ≠ [] →
        (∀ k, coded = .error k → Fails .hcCompress s .compressionFailed) ∧
        ∀ payload, coded = .ok payload →
          (payload.length + 4 ≤ s.caps.obufCap → Delivers .hcCompress s (tag ++ payload) (BitVec.ofNat 32 st)) ∧
          (s.caps.obufCap < payload.length + 4 → Fails .hcCompress s .compressionFailed))
end

