-- ==== Sys2Proof/Laws/Decode.lean ====
section
/-! SUPPORT. The byte-order helpers and the two halves of SHORT's first byte invert each other, and the tokens the decoder reads keep its
stream's bytes. -/

namespace Sys2Proof

/-- A register is `XLEN` bits wide (00 R7). -/
theorem word_width : Word = BitVec Config.xlen := rfl

/-- A frequency of the Huffman header is big-endian (20 R61, 00 R7 `HUFF_FREQ_ORDER`). -/
@[simp] theorem field32_huffFreqOrder (v : Nat) : field32 Config.huffFreqOrder v = be32 v := rfl
@[simp] theorem ufield32_huffFreqOrder (b0 b1 b2 b3 : Byte) : ufield32 Config.huffFreqOrder b0 b1 b2 b3 = ube32 b0 b1 b2 b3 := rfl

/-- SHORT's first bytes are 0xC0 to 0xCF (30 R101, R104), and they carry their low four bits plus 3. -/
theorem isShortByte_iff (t : Byte) : isShortByte t = true ↔ 0xC0 ≤ t.toNat ∧ t.toNat ≤ 0xCF := by
  simp [isShortByte, Config.lzShortBase, Config.lzShortMaxLen, Config.lzMin]

theorem shortLen_eq {t : Byte} (h : isShortByte t = true) : shortLen t = t.toNat % 16 + 3 := by
  have := (isShortByte_iff t).mp h
  simp only [shortLen, Config.lzShortBase, Config.lzMin, BitVec.reduceToNat]
  omega

/-- The first byte of a length and the length of a first byte (30 R101). -/
theorem shortLen_shortByte {len : Nat} (h : shortLenInRange len = true) :
    isShortByte (shortByte len) = true ∧ shortLen (shortByte len) = len := by
  have key : ∀ k : Fin 16, isShortByte (shortByte (k.val + 3)) = true ∧ shortLen (shortByte (k.val + 3)) = k.val + 3 := by decide
  obtain ⟨h3, h18⟩ : 3 ≤ len ∧ len ≤ 18 := of_decide_eq_true h
  have := key ⟨len - 3, by omega⟩
  rwa [show len - 3 + 3 = len by omega] at this

theorem shortByte_shortLen {t : Byte} (h : isShortByte t = true) :
    shortLenInRange (shortLen t) = true ∧ shortByte (shortLen t) = t := by
  revert t
  decide +kernel

theorem ube16_be16 (v : BitVec 16) : ube16 (v.extractLsb' 8 8) (v.extractLsb' 0 8) = v := by
  apply BitVec.eq_of_toNat_eq
  simp only [ube16, BitVec.toNat_append, BitVec.extractLsb'_toNat, Nat.shiftRight_eq_div_pow]
  rw [← Nat.shiftLeft_add_eq_or_of_lt (Nat.mod_lt _ (by decide)), Nat.shiftLeft_eq]
  have := v.isLt
  omega

theorem be16_ube16 (hi lo : Byte) : be16 (ube16 hi lo) = [hi, lo] := by
  have h : (ube16 hi lo).toNat = hi.toNat * 256 + lo.toNat := by
    simp only [ube16, BitVec.toNat_append]
    rw [← Nat.shiftLeft_add_eq_or_of_lt lo.isLt, Nat.shiftLeft_eq]
  have h1 := hi.isLt
  have h2 := lo.isLt
  have e1 : (ube16 hi lo).extractLsb' 8 8 = hi := by
    apply BitVec.eq_of_toNat_eq
    simp only [BitVec.extractLsb'_toNat, h, Nat.shiftRight_eq_div_pow]
    omega
  have e2 : (ube16 hi lo).extractLsb' 0 8 = lo := by
    apply BitVec.eq_of_toNat_eq
    simp only [BitVec.extractLsb'_toNat, h, Nat.shiftRight_eq_div_pow]
    omega
  simp only [be16, e1, e2]

/-- `UBE32` of `BE32` (00 R11). -/
theorem ube32_be32 {v : Nat} (h : v < 2 ^ 32) :
    ube32 (BitVec.ofNat 8 (v / 2 ^ 24)) (BitVec.ofNat 8 (v / 2 ^ 16)) (BitVec.ofNat 8 (v / 2 ^ 8)) (BitVec.ofNat 8 v) = v := by
  simp only [ube32, BitVec.toNat_ofNat]
  omega

theorem ube32_lt (b0 b1 b2 b3 : Byte) : ube32 b0 b1 b2 b3 < 2 ^ 32 := by
  have h0 := b0.isLt
  have h1 := b1.isLt
  have h2 := b2.isLt
  have h3 := b3.isLt
  simp only [ube32]
  omega

/-- A token consumes at least one byte. -/
theorem decodeToken_shorter {bs rest : List Byte} {i : Instr} (h : decodeToken bs = .ok (i, rest)) : rest.length < bs.length := by
  cases bs with
  | nil => simp [decodeToken] at h
  | cons t bs =>
    simp only [decodeToken] at h
    split at h
    · simp only [Except.ok.injEq, Prod.mk.injEq] at h
      simp [← h.2]
    split at h
    · split at h
      · simp only [Except.ok.injEq, Prod.mk.injEq] at h
        simp only [← h.2, List.length_cons]; omega
      · simp at h
    split at h
    · split at h
      · simp only [Except.ok.injEq, Prod.mk.injEq] at h
        simp only [← h.2, List.length_cons]; omega
      · simp at h
    split at h
    · split at h
      · simp only [Except.ok.injEq, Prod.mk.injEq] at h
        simp only [← h.2, List.length_cons]; omega
      · simp at h
    · simp at h

end Sys2Proof
end

