-- ==== Sys2Proof/Laws/State.lean ====
section
/-! SUPPORT. One lemma per field of State for each named update, true by unfolding, so that no proof unfolds a record update. -/

namespace Sys2Proof.Machine

/-! ## `startCommand` -/

@[simp] theorem startCommand_caps (s : State) (w : Word) : (startCommand s w).caps = s.caps := rfl
@[simp] theorem startCommand_cmd (s : State) (w : Word) : (startCommand s w).cmd = w := rfl
@[simp] theorem startCommand_status (s : State) (w : Word) : (startCommand s w).status = statusStart s := rfl
@[simp] theorem startCommand_errcode (s : State) (w : Word) : (startCommand s w).errcode = 0 := rfl
@[simp] theorem startCommand_arg0 (s : State) (w : Word) : (startCommand s w).arg0 = s.arg0 := rfl
@[simp] theorem startCommand_arg1 (s : State) (w : Word) : (startCommand s w).arg1 = s.arg1 := rfl
@[simp] theorem startCommand_res0 (s : State) (w : Word) : (startCommand s w).res0 = s.res0 := rfl
@[simp] theorem startCommand_res1 (s : State) (w : Word) : (startCommand s w).res1 = s.res1 := rfl
@[simp] theorem startCommand_ilen (s : State) (w : Word) : (startCommand s w).ilen = s.ilen := rfl
@[simp] theorem startCommand_olen (s : State) (w : Word) : (startCommand s w).olen = s.olen := rfl
@[simp] theorem startCommand_brCtrl (s : State) (w : Word) : (startCommand s w).brCtrl = s.brCtrl := rfl
@[simp] theorem startCommand_brLen (s : State) (w : Word) : (startCommand s w).brLen = s.brLen := rfl
@[simp] theorem startCommand_brBits (s : State) (w : Word) : (startCommand s w).brBits = s.brBits := rfl
@[simp] theorem startCommand_brBytes (s : State) (w : Word) : (startCommand s w).brBytes = s.brBytes := rfl
@[simp] theorem startCommand_bwCtrl (s : State) (w : Word) : (startCommand s w).bwCtrl = s.bwCtrl := rfl
@[simp] theorem startCommand_crcCtrl (s : State) (w : Word) : (startCommand s w).crcCtrl = s.crcCtrl := rfl
@[simp] theorem startCommand_crcAcc (s : State) (w : Word) : (startCommand s w).crcAcc = s.crcAcc := rfl
@[simp] theorem startCommand_ident (s : State) (w : Word) : (startCommand s w).ident = s.ident := rfl
@[simp] theorem startCommand_ibuf (s : State) (w : Word) : (startCommand s w).ibuf = s.ibuf := rfl
@[simp] theorem startCommand_obuf (s : State) (w : Word) : (startCommand s w).obuf = s.obuf := rfl
@[simp] theorem startCommand_fetch (s : State) (w : Word) : (startCommand s w).fetch = .command := rfl
@[simp] theorem startCommand_lz (s : State) (w : Word) : (startCommand s w).lz = LzReplay.empty := rfl
@[simp] theorem startCommand_schedule (s : State) (w : Word) : (startCommand s w).schedule = s.schedule := rfl
@[simp] theorem startCommand_hostReads (s : State) (w : Word) : (startCommand s w).hostReads = s.hostReads := rfl
@[simp] theorem startCommand_epoch (s : State) (w : Word) : (startCommand s w).epoch = s.epoch := rfl

/-! ## `completeOk` -/

@[simp] theorem completeOk_caps (s : State) (r0 r1 : Word) : (completeOk s r0 r1).caps = s.caps := rfl
@[simp] theorem completeOk_cmd (s : State) (r0 r1 : Word) : (completeOk s r0 r1).cmd = s.cmd := rfl
@[simp] theorem completeOk_status (s : State) (r0 r1 : Word) : (completeOk s r0 r1).status = statusComplete s false := rfl
@[simp] theorem completeOk_errcode (s : State) (r0 r1 : Word) : (completeOk s r0 r1).errcode = 0 := rfl
@[simp] theorem completeOk_arg0 (s : State) (r0 r1 : Word) : (completeOk s r0 r1).arg0 = s.arg0 := rfl
@[simp] theorem completeOk_arg1 (s : State) (r0 r1 : Word) : (completeOk s r0 r1).arg1 = s.arg1 := rfl
@[simp] theorem completeOk_res0 (s : State) (r0 r1 : Word) : (completeOk s r0 r1).res0 = r0 := rfl
@[simp] theorem completeOk_res1 (s : State) (r0 r1 : Word) : (completeOk s r0 r1).res1 = r1 := rfl
@[simp] theorem completeOk_ilen (s : State) (r0 r1 : Word) : (completeOk s r0 r1).ilen = s.ilen := rfl
@[simp] theorem completeOk_olen (s : State) (r0 r1 : Word) : (completeOk s r0 r1).olen = s.olen := rfl
@[simp] theorem completeOk_brCtrl (s : State) (r0 r1 : Word) : (completeOk s r0 r1).brCtrl = s.brCtrl := rfl
@[simp] theorem completeOk_brLen (s : State) (r0 r1 : Word) : (completeOk s r0 r1).brLen = s.brLen := rfl
@[simp] theorem completeOk_brBits (s : State) (r0 r1 : Word) : (completeOk s r0 r1).brBits = s.brBits := rfl
@[simp] theorem completeOk_brBytes (s : State) (r0 r1 : Word) : (completeOk s r0 r1).brBytes = s.brBytes := rfl
@[simp] theorem completeOk_bwCtrl (s : State) (r0 r1 : Word) : (completeOk s r0 r1).bwCtrl = s.bwCtrl := rfl
@[simp] theorem completeOk_crcCtrl (s : State) (r0 r1 : Word) : (completeOk s r0 r1).crcCtrl = s.crcCtrl := rfl
@[simp] theorem completeOk_crcAcc (s : State) (r0 r1 : Word) : (completeOk s r0 r1).crcAcc = s.crcAcc := rfl
@[simp] theorem completeOk_ident (s : State) (r0 r1 : Word) : (completeOk s r0 r1).ident = s.ident := rfl
@[simp] theorem completeOk_ibuf (s : State) (r0 r1 : Word) : (completeOk s r0 r1).ibuf = s.ibuf := rfl
@[simp] theorem completeOk_obuf (s : State) (r0 r1 : Word) : (completeOk s r0 r1).obuf = s.obuf := rfl
@[simp] theorem completeOk_fetch (s : State) (r0 r1 : Word) : (completeOk s r0 r1).fetch = .command := rfl
@[simp] theorem completeOk_lz (s : State) (r0 r1 : Word) : (completeOk s r0 r1).lz = LzReplay.empty := rfl
@[simp] theorem completeOk_schedule (s : State) (r0 r1 : Word) : (completeOk s r0 r1).schedule = s.schedule := rfl
@[simp] theorem completeOk_hostReads (s : State) (r0 r1 : Word) : (completeOk s r0 r1).hostReads = s.hostReads := rfl
@[simp] theorem completeOk_epoch (s : State) (r0 r1 : Word) : (completeOk s r0 r1).epoch = s.epoch + 1 := rfl

/-! ## `completeErr` -/

@[simp] theorem completeErr_caps (s : State) (k : ErrKind) : (completeErr s k).caps = s.caps := rfl
@[simp] theorem completeErr_cmd (s : State) (k : ErrKind) : (completeErr s k).cmd = s.cmd := rfl
@[simp] theorem completeErr_status (s : State) (k : ErrKind) : (completeErr s k).status = statusComplete s true := rfl
@[simp] theorem completeErr_errcode (s : State) (k : ErrKind) : (completeErr s k).errcode = k.code := rfl
@[simp] theorem completeErr_arg0 (s : State) (k : ErrKind) : (completeErr s k).arg0 = s.arg0 := rfl
@[simp] theorem completeErr_arg1 (s : State) (k : ErrKind) : (completeErr s k).arg1 = s.arg1 := rfl
@[simp] theorem completeErr_res0 (s : State) (k : ErrKind) : (completeErr s k).res0 = 0 := rfl
@[simp] theorem completeErr_res1 (s : State) (k : ErrKind) : (completeErr s k).res1 = 0 := rfl
@[simp] theorem completeErr_ilen (s : State) (k : ErrKind) : (completeErr s k).ilen = s.ilen := rfl
@[simp] theorem completeErr_olen (s : State) (k : ErrKind) : (completeErr s k).olen = s.olen := rfl
@[simp] theorem completeErr_brCtrl (s : State) (k : ErrKind) : (completeErr s k).brCtrl = s.brCtrl := rfl
@[simp] theorem completeErr_brLen (s : State) (k : ErrKind) : (completeErr s k).brLen = s.brLen := rfl
@[simp] theorem completeErr_brBits (s : State) (k : ErrKind) : (completeErr s k).brBits = s.brBits := rfl
@[simp] theorem completeErr_brBytes (s : State) (k : ErrKind) : (completeErr s k).brBytes = s.brBytes := rfl
@[simp] theorem completeErr_bwCtrl (s : State) (k : ErrKind) : (completeErr s k).bwCtrl = s.bwCtrl := rfl
@[simp] theorem completeErr_crcCtrl (s : State) (k : ErrKind) : (completeErr s k).crcCtrl = s.crcCtrl := rfl
@[simp] theorem completeErr_crcAcc (s : State) (k : ErrKind) : (completeErr s k).crcAcc = s.crcAcc := rfl
@[simp] theorem completeErr_ident (s : State) (k : ErrKind) : (completeErr s k).ident = s.ident := rfl
@[simp] theorem completeErr_ibuf (s : State) (k : ErrKind) : (completeErr s k).ibuf = s.ibuf := rfl
@[simp] theorem completeErr_obuf (s : State) (k : ErrKind) : (completeErr s k).obuf = s.obuf := rfl
@[simp] theorem completeErr_fetch (s : State) (k : ErrKind) : (completeErr s k).fetch = .command := rfl
@[simp] theorem completeErr_lz (s : State) (k : ErrKind) : (completeErr s k).lz = LzReplay.empty := rfl
@[simp] theorem completeErr_schedule (s : State) (k : ErrKind) : (completeErr s k).schedule = s.schedule := rfl
@[simp] theorem completeErr_hostReads (s : State) (k : ErrKind) : (completeErr s k).hostReads = s.hostReads := rfl
@[simp] theorem completeErr_epoch (s : State) (k : ErrKind) : (completeErr s k).epoch = s.epoch + 1 := rfl

/-! ## `takeOver` -/

@[simp] theorem takeOver_caps (s : State) : (takeOver s).caps = s.caps := rfl
@[simp] theorem takeOver_cmd (s : State) : (takeOver s).cmd = s.cmd := rfl
@[simp] theorem takeOver_status (s : State) : (takeOver s).status = s.status := rfl
@[simp] theorem takeOver_errcode (s : State) : (takeOver s).errcode = s.errcode := rfl
@[simp] theorem takeOver_arg0 (s : State) : (takeOver s).arg0 = s.arg0 := rfl
@[simp] theorem takeOver_arg1 (s : State) : (takeOver s).arg1 = s.arg1 := rfl
@[simp] theorem takeOver_res0 (s : State) : (takeOver s).res0 = s.res0 := rfl
@[simp] theorem takeOver_res1 (s : State) : (takeOver s).res1 = s.res1 := rfl
@[simp] theorem takeOver_ilen (s : State) : (takeOver s).ilen = s.ilen := rfl
@[simp] theorem takeOver_olen (s : State) : (takeOver s).olen = 0 := rfl
@[simp] theorem takeOver_brCtrl (s : State) : (takeOver s).brCtrl = s.brCtrl := rfl
@[simp] theorem takeOver_brLen (s : State) : (takeOver s).brLen = s.brLen := rfl
@[simp] theorem takeOver_brBits (s : State) : (takeOver s).brBits = s.brBits := rfl
@[simp] theorem takeOver_brBytes (s : State) : (takeOver s).brBytes = s.brBytes := rfl
@[simp] theorem takeOver_bwCtrl (s : State) : (takeOver s).bwCtrl = 0 := rfl
@[simp] theorem takeOver_crcCtrl (s : State) : (takeOver s).crcCtrl = s.crcCtrl := rfl
@[simp] theorem takeOver_crcAcc (s : State) : (takeOver s).crcAcc = s.crcAcc := rfl
@[simp] theorem takeOver_ident (s : State) : (takeOver s).ident = s.ident := rfl
@[simp] theorem takeOver_ibuf (s : State) : (takeOver s).ibuf = s.ibuf := rfl
@[simp] theorem takeOver_obuf (s : State) : (takeOver s).obuf = [] := rfl
@[simp] theorem takeOver_fetch (s : State) : (takeOver s).fetch = s.fetch := rfl
@[simp] theorem takeOver_lz (s : State) : (takeOver s).lz = s.lz := rfl
@[simp] theorem takeOver_schedule (s : State) : (takeOver s).schedule = s.schedule := rfl
@[simp] theorem takeOver_hostReads (s : State) : (takeOver s).hostReads = s.hostReads := rfl
@[simp] theorem takeOver_epoch (s : State) : (takeOver s).epoch = s.epoch := rfl

/-! ## `readerAt` -/

@[simp] theorem readerAt_caps (s : State) (p : Nat) : (readerAt s p).caps = s.caps := rfl
@[simp] theorem readerAt_cmd (s : State) (p : Nat) : (readerAt s p).cmd = s.cmd := rfl
@[simp] theorem readerAt_status (s : State) (p : Nat) : (readerAt s p).status = s.status := rfl
@[simp] theorem readerAt_errcode (s : State) (p : Nat) : (readerAt s p).errcode = s.errcode := rfl
@[simp] theorem readerAt_arg0 (s : State) (p : Nat) : (readerAt s p).arg0 = s.arg0 := rfl
@[simp] theorem readerAt_arg1 (s : State) (p : Nat) : (readerAt s p).arg1 = s.arg1 := rfl
@[simp] theorem readerAt_res0 (s : State) (p : Nat) : (readerAt s p).res0 = s.res0 := rfl
@[simp] theorem readerAt_res1 (s : State) (p : Nat) : (readerAt s p).res1 = s.res1 := rfl
@[simp] theorem readerAt_ilen (s : State) (p : Nat) : (readerAt s p).ilen = s.ilen := rfl
@[simp] theorem readerAt_olen (s : State) (p : Nat) : (readerAt s p).olen = s.olen := rfl
@[simp] theorem readerAt_brCtrl (s : State) (p : Nat) : (readerAt s p).brCtrl = s.brCtrl := rfl
@[simp] theorem readerAt_brLen (s : State) (p : Nat) : (readerAt s p).brLen = s.brLen := rfl
@[simp] theorem readerAt_brBits (s : State) (p : Nat) : (readerAt s p).brBits = BitVec.ofNat 32 p := rfl
@[simp] theorem readerAt_brBytes (s : State) (p : Nat) : (readerAt s p).brBytes = BitVec.ofNat 32 ((p + 7) / 8) := rfl
@[simp] theorem readerAt_bwCtrl (s : State) (p : Nat) : (readerAt s p).bwCtrl = s.bwCtrl := rfl
@[simp] theorem readerAt_crcCtrl (s : State) (p : Nat) : (readerAt s p).crcCtrl = s.crcCtrl := rfl
@[simp] theorem readerAt_crcAcc (s : State) (p : Nat) : (readerAt s p).crcAcc = s.crcAcc := rfl
@[simp] theorem readerAt_ident (s : State) (p : Nat) : (readerAt s p).ident = s.ident := rfl
@[simp] theorem readerAt_ibuf (s : State) (p : Nat) : (readerAt s p).ibuf = s.ibuf := rfl
@[simp] theorem readerAt_obuf (s : State) (p : Nat) : (readerAt s p).obuf = s.obuf := rfl
@[simp] theorem readerAt_fetch (s : State) (p : Nat) : (readerAt s p).fetch = s.fetch := rfl
@[simp] theorem readerAt_lz (s : State) (p : Nat) : (readerAt s p).lz = s.lz := rfl
@[simp] theorem readerAt_schedule (s : State) (p : Nat) : (readerAt s p).schedule = s.schedule := rfl
@[simp] theorem readerAt_hostReads (s : State) (p : Nat) : (readerAt s p).hostReads = s.hostReads := rfl
@[simp] theorem readerAt_epoch (s : State) (p : Nat) : (readerAt s p).epoch = s.epoch := rfl

/-! ## `storeSink` -/

@[simp] theorem storeSink_caps (s : State) (w : BitSink) : (storeSink s w).caps = s.caps := rfl
@[simp] theorem storeSink_cmd (s : State) (w : BitSink) : (storeSink s w).cmd = s.cmd := rfl
@[simp] theorem storeSink_status (s : State) (w : BitSink) : (storeSink s w).status = s.status := rfl
@[simp] theorem storeSink_errcode (s : State) (w : BitSink) : (storeSink s w).errcode = s.errcode := rfl
@[simp] theorem storeSink_arg0 (s : State) (w : BitSink) : (storeSink s w).arg0 = s.arg0 := rfl
@[simp] theorem storeSink_arg1 (s : State) (w : BitSink) : (storeSink s w).arg1 = s.arg1 := rfl
@[simp] theorem storeSink_res0 (s : State) (w : BitSink) : (storeSink s w).res0 = s.res0 := rfl
@[simp] theorem storeSink_res1 (s : State) (w : BitSink) : (storeSink s w).res1 = s.res1 := rfl
@[simp] theorem storeSink_ilen (s : State) (w : BitSink) : (storeSink s w).ilen = s.ilen := rfl
@[simp] theorem storeSink_olen (s : State) (w : BitSink) : (storeSink s w).olen = BitVec.ofNat 32 (s.olen.toNat + w.bytes.length) := rfl
@[simp] theorem storeSink_brCtrl (s : State) (w : BitSink) : (storeSink s w).brCtrl = s.brCtrl := rfl
@[simp] theorem storeSink_brLen (s : State) (w : BitSink) : (storeSink s w).brLen = s.brLen := rfl
@[simp] theorem storeSink_brBits (s : State) (w : BitSink) : (storeSink s w).brBits = s.brBits := rfl
@[simp] theorem storeSink_brBytes (s : State) (w : BitSink) : (storeSink s w).brBytes = s.brBytes := rfl
@[simp] theorem storeSink_bwCtrl (s : State) (w : BitSink) : (storeSink s w).bwCtrl = bwCtrlWord w.k w.acc := rfl
@[simp] theorem storeSink_crcCtrl (s : State) (w : BitSink) : (storeSink s w).crcCtrl = s.crcCtrl := rfl
@[simp] theorem storeSink_crcAcc (s : State) (w : BitSink) : (storeSink s w).crcAcc = s.crcAcc := rfl
@[simp] theorem storeSink_ident (s : State) (w : BitSink) : (storeSink s w).ident = s.ident := rfl
@[simp] theorem storeSink_ibuf (s : State) (w : BitSink) : (storeSink s w).ibuf = s.ibuf := rfl
@[simp] theorem storeSink_obuf (s : State) (w : BitSink) : (storeSink s w).obuf = Memory.writeBytes s.obuf s.olen.toNat w.bytes := rfl
@[simp] theorem storeSink_fetch (s : State) (w : BitSink) : (storeSink s w).fetch = s.fetch := rfl
@[simp] theorem storeSink_lz (s : State) (w : BitSink) : (storeSink s w).lz = s.lz := rfl
@[simp] theorem storeSink_schedule (s : State) (w : BitSink) : (storeSink s w).schedule = s.schedule := rfl
@[simp] theorem storeSink_hostReads (s : State) (w : BitSink) : (storeSink s w).hostReads = s.hostReads := rfl
@[simp] theorem storeSink_epoch (s : State) (w : BitSink) : (storeSink s w).epoch = s.epoch := rfl

/-! ## `dropWrite` -/

@[simp] theorem dropWrite_caps (s : State) : (dropWrite s).caps = s.caps := rfl
@[simp] theorem dropWrite_cmd (s : State) : (dropWrite s).cmd = s.cmd := rfl
@[simp] theorem dropWrite_status (s : State) : (dropWrite s).status = statusHazard s := rfl
@[simp] theorem dropWrite_errcode (s : State) : (dropWrite s).errcode = s.errcode := rfl
@[simp] theorem dropWrite_arg0 (s : State) : (dropWrite s).arg0 = s.arg0 := rfl
@[simp] theorem dropWrite_arg1 (s : State) : (dropWrite s).arg1 = s.arg1 := rfl
@[simp] theorem dropWrite_res0 (s : State) : (dropWrite s).res0 = s.res0 := rfl
@[simp] theorem dropWrite_res1 (s : State) : (dropWrite s).res1 = s.res1 := rfl
@[simp] theorem dropWrite_ilen (s : State) : (dropWrite s).ilen = s.ilen := rfl
@[simp] theorem dropWrite_olen (s : State) : (dropWrite s).olen = s.olen := rfl
@[simp] theorem dropWrite_brCtrl (s : State) : (dropWrite s).brCtrl = s.brCtrl := rfl
@[simp] theorem dropWrite_brLen (s : State) : (dropWrite s).brLen = s.brLen := rfl
@[simp] theorem dropWrite_brBits (s : State) : (dropWrite s).brBits = s.brBits := rfl
@[simp] theorem dropWrite_brBytes (s : State) : (dropWrite s).brBytes = s.brBytes := rfl
@[simp] theorem dropWrite_bwCtrl (s : State) : (dropWrite s).bwCtrl = s.bwCtrl := rfl
@[simp] theorem dropWrite_crcCtrl (s : State) : (dropWrite s).crcCtrl = s.crcCtrl := rfl
@[simp] theorem dropWrite_crcAcc (s : State) : (dropWrite s).crcAcc = s.crcAcc := rfl
@[simp] theorem dropWrite_ident (s : State) : (dropWrite s).ident = s.ident := rfl
@[simp] theorem dropWrite_ibuf (s : State) : (dropWrite s).ibuf = s.ibuf := rfl
@[simp] theorem dropWrite_obuf (s : State) : (dropWrite s).obuf = s.obuf := rfl
@[simp] theorem dropWrite_fetch (s : State) : (dropWrite s).fetch = s.fetch := rfl
@[simp] theorem dropWrite_lz (s : State) : (dropWrite s).lz = s.lz := rfl
@[simp] theorem dropWrite_schedule (s : State) : (dropWrite s).schedule = s.schedule := rfl
@[simp] theorem dropWrite_hostReads (s : State) : (dropWrite s).hostReads = s.hostReads := rfl
@[simp] theorem dropWrite_epoch (s : State) : (dropWrite s).epoch = s.epoch + 1 := rfl

/-! ## `recordRead` -/

@[simp] theorem recordRead_caps (s : State) (v : Word) : (recordRead s v).caps = s.caps := rfl
@[simp] theorem recordRead_cmd (s : State) (v : Word) : (recordRead s v).cmd = s.cmd := rfl
@[simp] theorem recordRead_status (s : State) (v : Word) : (recordRead s v).status = s.status := rfl
@[simp] theorem recordRead_errcode (s : State) (v : Word) : (recordRead s v).errcode = s.errcode := rfl
@[simp] theorem recordRead_arg0 (s : State) (v : Word) : (recordRead s v).arg0 = s.arg0 := rfl
@[simp] theorem recordRead_arg1 (s : State) (v : Word) : (recordRead s v).arg1 = s.arg1 := rfl
@[simp] theorem recordRead_res0 (s : State) (v : Word) : (recordRead s v).res0 = s.res0 := rfl
@[simp] theorem recordRead_res1 (s : State) (v : Word) : (recordRead s v).res1 = s.res1 := rfl
@[simp] theorem recordRead_ilen (s : State) (v : Word) : (recordRead s v).ilen = s.ilen := rfl
@[simp] theorem recordRead_olen (s : State) (v : Word) : (recordRead s v).olen = s.olen := rfl
@[simp] theorem recordRead_brCtrl (s : State) (v : Word) : (recordRead s v).brCtrl = s.brCtrl := rfl
@[simp] theorem recordRead_brLen (s : State) (v : Word) : (recordRead s v).brLen = s.brLen := rfl
@[simp] theorem recordRead_brBits (s : State) (v : Word) : (recordRead s v).brBits = s.brBits := rfl
@[simp] theorem recordRead_brBytes (s : State) (v : Word) : (recordRead s v).brBytes = s.brBytes := rfl
@[simp] theorem recordRead_bwCtrl (s : State) (v : Word) : (recordRead s v).bwCtrl = s.bwCtrl := rfl
@[simp] theorem recordRead_crcCtrl (s : State) (v : Word) : (recordRead s v).crcCtrl = s.crcCtrl := rfl
@[simp] theorem recordRead_crcAcc (s : State) (v : Word) : (recordRead s v).crcAcc = s.crcAcc := rfl
@[simp] theorem recordRead_ident (s : State) (v : Word) : (recordRead s v).ident = s.ident := rfl
@[simp] theorem recordRead_ibuf (s : State) (v : Word) : (recordRead s v).ibuf = s.ibuf := rfl
@[simp] theorem recordRead_obuf (s : State) (v : Word) : (recordRead s v).obuf = s.obuf := rfl
@[simp] theorem recordRead_fetch (s : State) (v : Word) : (recordRead s v).fetch = s.fetch := rfl
@[simp] theorem recordRead_lz (s : State) (v : Word) : (recordRead s v).lz = s.lz := rfl
@[simp] theorem recordRead_schedule (s : State) (v : Word) : (recordRead s v).schedule = s.schedule := rfl
@[simp] theorem recordRead_hostReads (s : State) (v : Word) : (recordRead s v).hostReads = v :: s.hostReads := rfl
@[simp] theorem recordRead_epoch (s : State) (v : Word) : (recordRead s v).epoch = s.epoch := rfl

end Sys2Proof.Machine
end

