-- ==== Sys2Proof/Laws/Flags.lean ====
section
/-! SUPPORT. The flags and the register fields: what each accessor reads from each word the machine builds. -/

namespace Sys2Proof.Machine

/-! ## STATUS -/

theorem statusWord_bit0 (b d e h : Bool) : (statusWord b d e h).getLsbD 0 = b := by
  cases b <;> cases d <;> cases e <;> cases h <;> decide
theorem statusWord_bit1 (b d e h : Bool) : (statusWord b d e h).getLsbD 1 = d := by
  cases b <;> cases d <;> cases e <;> cases h <;> decide
theorem statusWord_bit2 (b d e h : Bool) : (statusWord b d e h).getLsbD 2 = e := by
  cases b <;> cases d <;> cases e <;> cases h <;> decide
theorem statusWord_bit3 (b d e h : Bool) : (statusWord b d e h).getLsbD 3 = h := by
  cases b <;> cases d <;> cases e <;> cases h <;> decide

/-- The flags of a state whose STATUS was built from four flags. -/
theorem flags_of_statusWord {s : State} {b d e h : Bool} (hs : s.status = statusWord b d e h) :
    s.busy = b ∧ s.done = d ∧ s.err = e ∧ s.haz = h := by
  unfold State.busy State.done State.err State.haz
  rw [hs]
  exact ⟨statusWord_bit0 .., statusWord_bit1 .., statusWord_bit2 .., statusWord_bit3 ..⟩

@[simp] theorem completeOk_busy (s : State) (a b : Word) : (completeOk s a b).busy = false :=
  (flags_of_statusWord (s := completeOk s a b) rfl).1
@[simp] theorem completeOk_done (s : State) (a b : Word) : (completeOk s a b).done = true :=
  (flags_of_statusWord (s := completeOk s a b) rfl).2.1
@[simp] theorem completeOk_err (s : State) (a b : Word) : (completeOk s a b).err = false :=
  (flags_of_statusWord (s := completeOk s a b) rfl).2.2.1
@[simp] theorem completeOk_haz (s : State) (a b : Word) : (completeOk s a b).haz = s.haz :=
  (flags_of_statusWord (s := completeOk s a b) rfl).2.2.2

@[simp] theorem completeErr_busy (s : State) (k : ErrKind) : (completeErr s k).busy = false :=
  (flags_of_statusWord (s := completeErr s k) rfl).1
@[simp] theorem completeErr_done (s : State) (k : ErrKind) : (completeErr s k).done = true :=
  (flags_of_statusWord (s := completeErr s k) rfl).2.1
@[simp] theorem completeErr_err (s : State) (k : ErrKind) : (completeErr s k).err = true :=
  (flags_of_statusWord (s := completeErr s k) rfl).2.2.1
@[simp] theorem completeErr_haz (s : State) (k : ErrKind) : (completeErr s k).haz = s.haz :=
  (flags_of_statusWord (s := completeErr s k) rfl).2.2.2

@[simp] theorem startCommand_busy (s : State) (w : Word) : (startCommand s w).busy = true :=
  (flags_of_statusWord (s := startCommand s w) rfl).1
@[simp] theorem startCommand_done (s : State) (w : Word) : (startCommand s w).done = false :=
  (flags_of_statusWord (s := startCommand s w) rfl).2.1
@[simp] theorem startCommand_err (s : State) (w : Word) : (startCommand s w).err = false :=
  (flags_of_statusWord (s := startCommand s w) rfl).2.2.1
@[simp] theorem startCommand_haz (s : State) (w : Word) : (startCommand s w).haz = s.haz :=
  (flags_of_statusWord (s := startCommand s w) rfl).2.2.2

@[simp] theorem dropWrite_busy (s : State) : (dropWrite s).busy = s.busy :=
  (flags_of_statusWord (s := dropWrite s) rfl).1
@[simp] theorem dropWrite_done (s : State) : (dropWrite s).done = s.done :=
  (flags_of_statusWord (s := dropWrite s) rfl).2.1
@[simp] theorem dropWrite_err (s : State) : (dropWrite s).err = s.err :=
  (flags_of_statusWord (s := dropWrite s) rfl).2.2.1
@[simp] theorem dropWrite_haz (s : State) : (dropWrite s).haz = true :=
  (flags_of_statusWord (s := dropWrite s) rfl).2.2.2

/-- The accessors depend on STATUS alone. -/
theorem busy_congr {s t : State} (h : t.status = s.status) : t.busy = s.busy := by simp [State.busy, h]
theorem done_congr {s t : State} (h : t.status = s.status) : t.done = s.done := by simp [State.done, h]
theorem err_congr {s t : State} (h : t.status = s.status) : t.err = s.err := by simp [State.err, h]
theorem haz_congr {s t : State} (h : t.status = s.status) : t.haz = s.haz := by simp [State.haz, h]

/-! ## ERRCODE -/

theorem code_ne_zero (k : ErrKind) : k.code ≠ 0 := by cases k <;> decide

theorem code_injective {k l : ErrKind} (h : k.code = l.code) : k = l := by
  cases k <;> cases l <;> first | rfl | exact absurd h (by decide)

/-! ## BR_CTRL -/

theorem brCtrlWord_bit0 (v k : Bool) : (brCtrlWord v k).getLsbD 0 = v := by cases v <;> cases k <;> decide
theorem brCtrlWord_bit1 (v k : Bool) : (brCtrlWord v k).getLsbD 1 = k := by cases v <;> cases k <;> decide

/-- Invalidating clears VALID and keeps KIND. -/
theorem brInvalidated_bit0 (s : State) : (brInvalidated s).getLsbD 0 = false := by simp [brInvalidated]
theorem brInvalidated_bit1 (s : State) : (brInvalidated s).getLsbD 1 = s.brKind := by simp [brInvalidated, State.brKind]

theorem brCtrlWord_invalidated (v k : Bool) : brCtrlWord v k &&& 0xFFFFFFFE#32 = brCtrlWord false k := by
  cases v <;> cases k <;> decide

/-! ## BW_CTRL -/

theorem bwCtrlWord_toNat (n : Nat) (a : Byte) : (bwCtrlWord n a).toNat = 1 + n % 8 * 256 + a.toNat * 65536 := by
  have h1 := a.isLt
  simp only [bwCtrlWord, BitVec.toNat_ofNat]
  omega

/-- VALID of the word the writer builds. -/
theorem bwCtrlWord_valid (n : Nat) (a : Byte) : (bwCtrlWord n a).getLsbD 0 = true := by
  simp only [BitVec.getLsbD, bwCtrlWord_toNat, Nat.testBit_zero, decide_eq_true_eq]
  omega

theorem bwCtrlWord_nbits (n : Nat) (a : Byte) : ((bwCtrlWord n a).extractLsb' 8 3).toNat = n % 8 := by
  have h1 := a.isLt
  simp only [BitVec.extractLsb'_toNat, bwCtrlWord_toNat, Nat.shiftRight_eq_div_pow]
  omega

theorem bwCtrlWord_acc (n : Nat) (a : Byte) : (bwCtrlWord n a).extractLsb' 16 8 = a := by
  have h1 := a.isLt
  apply BitVec.eq_of_toNat_eq
  simp only [BitVec.extractLsb'_toNat, bwCtrlWord_toNat, Nat.shiftRight_eq_div_pow]
  omega

/-- The fields of a state whose BW_CTRL was built by the writer. -/
theorem writer_of_bwCtrlWord {s : State} {n : Nat} {a : Byte} (h : s.bwCtrl = bwCtrlWord n a) :
    s.bwValid = true ∧ s.bwNbits = n % 8 ∧ s.bwAcc = a := by
  unfold State.bwValid State.bwNbits State.bwAcc
  rw [h]
  exact ⟨bwCtrlWord_valid .., bwCtrlWord_nbits .., bwCtrlWord_acc ..⟩

theorem bwNbits_lt (s : State) : s.bwNbits < 8 := by
  have := (s.bwCtrl.extractLsb' 8 3).isLt
  simpa [State.bwNbits] using this

/-! ## CRC_CTRL -/

theorem crcCtrlWord_state (st : BitVec 2) : (crcCtrlWord st).extractLsb' 0 2 = st := by
  apply BitVec.eq_of_toNat_eq
  have := st.isLt
  simp only [crcCtrlWord, BitVec.extractLsb'_toNat, BitVec.toNat_setWidth, Nat.shiftRight_zero]
  omega

end Sys2Proof.Machine
end

