-- ==== Sys2Proof/Laws/Memory.lean ====
section
/-! SUPPORT. The buffers: a read after a write, and the canonical form kept by every operation. -/

namespace Sys2Proof.Machine

/-! ## Reading what was written -/

theorem read_write_same (m : Memory) (a : Nat) (b : Byte) : (m.write a b).read a = some b := by
  induction m with
  | nil => simp [Memory.write, Memory.read]
  | cons c m ih =>
    obtain ⟨k, v⟩ := c
    simp only [Memory.write]
    split
    · simp [Memory.read]
    · split
      · simp [Memory.read]
      · rename_i h1 h2
        simp [Memory.read, Ne.symm h2, ih]

theorem read_write_other (m : Memory) {a a' : Nat} (b : Byte) (h : a' ≠ a) : (m.write a b).read a' = m.read a' := by
  induction m with
  | nil => simp [Memory.write, Memory.read, Ne.symm h]
  | cons c m ih =>
    obtain ⟨k, v⟩ := c
    simp only [Memory.write]
    split
    · simp [Memory.read, Ne.symm h]
    · split
      · rename_i h1 h2
        subst h2
        simp [Memory.read, Ne.symm h]
      · simp [Memory.read, ih]

theorem read_writeBytes_outside (bs : List Byte) (m : Memory) {a i : Nat} (h : i < a ∨ a + bs.length ≤ i) :
    (m.writeBytes a bs).read i = m.read i := by
  induction bs generalizing m a with
  | nil => rfl
  | cons b bs ih =>
    simp only [List.length_cons] at h
    rw [Memory.writeBytes, ih _ (by omega), read_write_other _ _ (by omega)]

theorem read_writeBytes_inside (bs : List Byte) (m : Memory) {a i : Nat} (h : i < bs.length) :
    (m.writeBytes a bs).read (a + i) = bs[i]? := by
  induction bs generalizing m a i with
  | nil => simp at h
  | cons b bs ih =>
    rw [Memory.writeBytes]
    cases i with
    | zero => rw [read_writeBytes_outside _ _ (by omega), Nat.add_zero, read_write_same]; rfl
    | succ i =>
      have := ih (m.write a b) (a := a + 1) (i := i) (by simpa using h)
      rw [show a + (i + 1) = a + 1 + i by omega, this]
      simp

/-! ## Ranges -/

theorem readRange_length {m : Memory} {a n : Nat} {x : List Byte} (h : m.readRange a n = some x) : x.length = n := by
  induction n generalizing a x with
  | zero => simp [Memory.readRange] at h; simp [← h]
  | succ n ih =>
    simp only [Memory.readRange] at h
    split at h
    · simp at h
    · simp only [Option.map_eq_some_iff] at h
      obtain ⟨y, hy, rfl⟩ := h
      simp [ih hy]

/-- A range is readable exactly as its bytes are. -/
theorem readRange_eq_some_iff {m : Memory} {a n : Nat} {x : List Byte} :
    m.readRange a n = some x ↔ x.length = n ∧ ∀ i, i < n → m.read (a + i) = x[i]? := by
  induction n generalizing a x with
  | zero =>
    simp only [Memory.readRange, Option.some.injEq, Nat.not_lt_zero, false_implies, implies_true, and_true]
    exact ⟨fun h => by simp [← h], fun h => (List.length_eq_zero_iff.mp h).symm⟩
  | succ n ih =>
    simp only [Memory.readRange]
    constructor
    · intro h
      split at h
      · simp at h
      · rename_i b hb
        simp only [Option.map_eq_some_iff] at h
        obtain ⟨y, hy, rfl⟩ := h
        obtain ⟨h1, h2⟩ := ih.mp hy
        refine ⟨by simp [h1], fun i hi => ?_⟩
        cases i with
        | zero => simpa using hb
        | succ i =>
          have := h2 i (by omega)
          rw [show a + (i + 1) = a + 1 + i by omega, this]
          simp
    · rintro ⟨h1, h2⟩
      cases x with
      | nil => simp at h1
      | cons b x =>
        have h0 := h2 0 (by omega)
        simp only [Nat.add_zero, List.getElem?_cons_zero] at h0
        rw [h0]
        simp only [Option.map_eq_some_iff]
        refine ⟨x, ih.mpr ⟨by simpa using h1, fun i hi => ?_⟩, rfl⟩
        have := h2 (i + 1) (by omega)
        rw [show a + 1 + i = a + (i + 1) by omega, this]
        simp

theorem readRange_writeBytes (m : Memory) (a : Nat) (bs : List Byte) : (m.writeBytes a bs).readRange a bs.length = some bs :=
  readRange_eq_some_iff.mpr ⟨rfl, fun _ hi => read_writeBytes_inside bs m hi⟩

theorem readRange_congr {m m' : Memory} {a n : Nat} (h : ∀ i, a ≤ i → i < a + n → m'.read i = m.read i) :
    m'.readRange a n = m.readRange a n := by
  induction n generalizing a with
  | zero => rfl
  | succ n ih =>
    simp only [Memory.readRange]
    rw [h a (by omega) (by omega), ih fun i h1 h2 => h i (by omega) (by omega)]

@[simp] theorem read_nil (a : Nat) : Memory.read [] a = none := rfl

/-! ## The canonical form -/

/-- The canonical form as a statement about the indices. -/
theorem wf_iff_pairwise (m : Memory) : m.wf = true ↔ (m.map Prod.fst).Pairwise (· < ·) := by
  induction m with
  | nil => simp [Memory.wf]
  | cons c m ih =>
    cases m with
    | nil => simp [Memory.wf]
    | cons d m =>
      obtain ⟨a, b⟩ := c
      obtain ⟨k, v⟩ := d
      simp only [Memory.wf, Bool.and_eq_true, decide_eq_true_eq, ih]
      simp only [List.map_cons, List.pairwise_cons, List.mem_cons, forall_eq_or_imp]
      constructor
      · rintro ⟨h1, h2, h3⟩
        exact ⟨⟨h1, fun i hi => Nat.lt_trans h1 (h2 i hi)⟩, h2, h3⟩
      · rintro ⟨⟨h1, _⟩, h2, h3⟩
        exact ⟨h1, h2, h3⟩

/-- The indices after a write. -/
theorem mem_write {m : Memory} {a : Nat} {b : Byte} {c : Host.Cell} (h : c ∈ m.write a b) : c = (a, b) ∨ c ∈ m := by
  induction m with
  | nil => simpa [Memory.write] using h
  | cons d m ih =>
    obtain ⟨k, v⟩ := d
    simp only [Memory.write] at h
    split at h
    · simpa using h
    · split at h
      · rcases List.mem_cons.mp h with h | h
        · exact .inl h
        · exact .inr (List.mem_cons_of_mem _ h)
      · rcases List.mem_cons.mp h with h | h
        · exact .inr (by simp [h])
        · rcases ih h with h | h
          · exact .inl h
          · exact .inr (List.mem_cons_of_mem _ h)

theorem write_wf {m : Memory} (a : Nat) (b : Byte) (h : m.wf = true) : (m.write a b).wf = true := by
  rw [wf_iff_pairwise] at *
  induction m with
  | nil => simp [Memory.write]
  | cons d m ih =>
    obtain ⟨k, v⟩ := d
    simp only [List.map_cons, List.pairwise_cons] at h
    simp only [Memory.write]
    split
    · rename_i h1
      simp only [List.map_cons, List.pairwise_cons, List.mem_cons, forall_eq_or_imp]
      exact ⟨⟨h1, fun i hi => Nat.lt_trans h1 (h.1 i hi)⟩, h⟩
    · split
      · rename_i h1 h2
        subst h2
        simpa using h
      · rename_i h1 h2
        simp only [List.map_cons, List.pairwise_cons]
        refine ⟨fun i hi => ?_, ih h.2⟩
        obtain ⟨c, hc, rfl⟩ := List.mem_map.mp hi
        rcases mem_write hc with rfl | hc
        · simp only; omega
        · exact h.1 _ (List.mem_map_of_mem hc)

theorem writeBytes_wf (bs : List Byte) {m : Memory} (a : Nat) (h : m.wf = true) : (m.writeBytes a bs).wf = true := by
  induction bs generalizing m a with
  | nil => exact h
  | cons b bs ih => exact ih (a + 1) (write_wf a b h)

theorem mem_writeBytes {bs : List Byte} {m : Memory} {a : Nat} {c : Host.Cell} (h : c ∈ m.writeBytes a bs) :
    (a ≤ c.1 ∧ c.1 < a + bs.length) ∨ c ∈ m := by
  induction bs generalizing m a with
  | nil => exact .inr h
  | cons b bs ih =>
    simp only [List.length_cons]
    rcases ih h with h | h
    · exact .inl (by omega)
    · rcases mem_write h with rfl | h
      · exact .inl (by simp only; omega)
      · exact .inr h

/-- A write past the last index appends. -/
theorem write_past {m : Memory} {a : Nat} (b : Byte) (h : ∀ c ∈ m, c.1 < a) : m.write a b = m ++ [(a, b)] := by
  induction m with
  | nil => rfl
  | cons d m ih =>
    obtain ⟨k, v⟩ := d
    have hk : k < a := h _ (List.mem_cons_self)
    simp only [Memory.write]
    rw [if_neg (by omega), if_neg (by omega), ih fun c hc => h c (List.mem_cons_of_mem _ hc)]
    rfl

/-- A buffer that lists exactly the indices below `n`, appended to at `n`, lists exactly those below `n + length`. -/
theorem writeBytes_append_indices {bs : List Byte} {m : Memory} {n : Nat} (h : m.map Prod.fst = List.range n) :
    (m.writeBytes n bs).map Prod.fst = List.range (n + bs.length) := by
  induction bs generalizing m n with
  | nil => simpa [Memory.writeBytes] using h
  | cons b bs ih =>
    have hlt : ∀ c ∈ m, c.1 < n := fun c hc => by
      have : c.1 ∈ m.map Prod.fst := List.mem_map_of_mem hc
      rw [h] at this
      simpa using this
    rw [Memory.writeBytes, write_past b hlt]
    have := ih (m := m ++ [(n, b)]) (n := n + 1) (by simp [h, List.range_succ])
    rw [this, List.length_cons]
    congr 1
    omega

/-- The indices listed are the ones that read. -/
theorem read_isSome_iff {m : Memory} {a : Nat} : (m.read a).isSome ↔ a ∈ m.map Prod.fst := by
  induction m with
  | nil => simp
  | cons c m ih =>
    obtain ⟨k, v⟩ := c
    by_cases h : k = a
    · simp [Memory.read, h]
    · simp [Memory.read, h, ih, Ne.symm h]

/-- A buffer that lists every index below `n` reads as a range. -/
theorem readRange_of_indices {m : Memory} {n : Nat} (h : ∀ i, i < n → i ∈ m.map Prod.fst) : ∃ x, m.readRange 0 n = some x := by
  suffices H : ∀ k a, a + k = n → ∃ x, m.readRange a k = some x from H n 0 (by omega)
  intro k
  induction k with
  | zero => intro a _; exact ⟨[], rfl⟩
  | succ k ih =>
    intro a ha
    obtain ⟨x, hx⟩ := ih (a + 1) (by omega)
    obtain ⟨b, hb⟩ := Option.isSome_iff_exists.mp (read_isSome_iff.mpr (h a (by omega)))
    exact ⟨b :: x, by simp [Memory.readRange, hb, hx]⟩

end Sys2Proof.Machine
end

