-- ==== Sys2Proof/Laws/Ops.lean ====
section
/-! SUPPORT. The shared operations: for each, one lemma that says everything it can do. -/

namespace Sys2Proof.Machine

/-! ## Completing -/

theorem completeOk_status_word (s : State) (a b : Word) :
    (completeOk s a b).status = if s.haz then 0x0000000A#32 else 0x00000002#32 := by
  show statusWord false true false s.haz = _
  cases s.haz <;> decide

theorem completeErr_status_word (s : State) (k : ErrKind) :
    (completeErr s k).status = if s.haz then 0x0000000E#32 else 0x00000006#32 := by
  show statusWord false true true s.haz = _
  cases s.haz <;> decide

/-- Completing a state that differs from `s` in neither HAZ nor the epoch. -/
theorem completedOk_of {s s' : State} (a b : Word) (hz : s'.status = s.status) (he : s'.epoch = s.epoch) :
    CompletedOk s (completeOk s' a b) a b := by
  refine ⟨?_, rfl, rfl, rfl, rfl, rfl, ?_⟩
  · rw [completeOk_status_word, haz_congr hz]
  · simp [he]

theorem completedErr_of {s s' : State} (k : ErrKind) (hz : s'.status = s.status) (he : s'.epoch = s.epoch) :
    CompletedErr s (completeErr s' k) k := by
  refine ⟨?_, rfl, rfl, rfl, rfl, rfl, ?_⟩
  · rw [completeErr_status_word, haz_congr hz]
  · simp [he]

/-- A completed command is no longer busy. -/
theorem CompletedOk.flags {s t : State} {a b : Word} (h : CompletedOk s t a b) :
    t.busy = false ∧ t.done = true ∧ t.err = false ∧ t.haz = s.haz := by
  have h1 : t.status = statusWord false true false s.haz := by rw [h.1]; cases s.haz <;> decide
  exact flags_of_statusWord h1

theorem CompletedErr.flags {s t : State} {k : ErrKind} (h : CompletedErr s t k) :
    t.busy = false ∧ t.done = true ∧ t.err = true ∧ t.haz = s.haz := by
  have h1 : t.status = statusWord false true true s.haz := by rw [h.1]; cases s.haz <;> decide
  exact flags_of_statusWord h1

/-! ## Inputs -/

/-- The input of a range of IBUF: refused, or the bytes. -/
theorem readInput_cases {s : State} {f : List Byte → Result} {o : Result} (h : readInput s f = o) :
    (s.ibuf.readRange 0 s.ilen.toNat = none ∧ o = .refused .unwrittenInput) ∨
      ∃ x, s.ibuf.readRange 0 s.ilen.toNat = some x ∧ o = f x := by
  unfold readInput writtenRange at h
  split at h
  · exact .inl ⟨by assumption, h.symm⟩
  · exact .inr ⟨_, by assumption, h.symm⟩

theorem obufRange_cases {s : State} {f : List Byte → Result} {o : Result} (h : obufRange s f = o) :
    (s.obuf.readRange 0 s.olen.toNat = none ∧ o = .refused .unwrittenInput) ∨
      ∃ x, s.obuf.readRange 0 s.olen.toNat = some x ∧ o = f x := by
  unfold obufRange writtenRange at h
  split at h
  · exact .inl ⟨by assumption, h.symm⟩
  · exact .inr ⟨_, by assumption, h.symm⟩

/-- A CRC command's range: too long for IBUF, unwritten somewhere, or the bytes. -/
theorem sourceRange_cases {s : State} {f : List Byte → Result} {o : Result} (h : sourceRange s f = o) :
    (s.arg0Bit = false ∧ s.caps.ibufCap < s.ilen.toNat ∧ o = failWith s .invalidParameter) ∨
      ((∀ x, ¬ SourceIs s x) ∧ o = .refused .unwrittenInput) ∨ ∃ x, SourceIs s x ∧ o = f x := by
  unfold sourceRange at h
  unfold SourceIs
  split at h
  · rename_i hb
    simp only [hb, if_true]
    rcases obufRange_cases h with ⟨h1, h2⟩ | ⟨x, h1, h2⟩
    · exact .inr (.inl ⟨fun x => by simp [h1], h2⟩)
    · exact .inr (.inr ⟨x, h1, h2⟩)
  · rename_i hb
    simp only [hb, if_false, Bool.false_eq_true]
    unfold ibufRange at h
    split at h
    · rename_i hc
      exact .inl ⟨by simp, hc, h.symm⟩
    · rename_i hc
      rcases readInput_cases h with ⟨h1, h2⟩ | ⟨x, h1, h2⟩
      · exact .inr (.inl ⟨fun x hx => by simp [InputIs, h1] at hx, h2⟩)
      · exact .inr (.inr ⟨x, ⟨by omega, h1⟩, h2⟩)

theorem sourceRange_eq {s : State} {x : List Byte} (h : SourceIs s x) (f : List Byte → Result) : sourceRange s f = f x := by
  unfold SourceIs at h
  unfold sourceRange obufRange ibufRange readInput writtenRange
  split at h
  · rename_i hb
    simp [hb, h]
  · rename_i hb
    have := h.1
    simp [hb, h.2, Nat.not_lt.mpr h.1]

/-! ## Transform commands -/

/-- Frame steps 3 and 4: an error, a refusal, or the non-empty input. -/
theorem transformBytes_cases (s : State) :
    ((s.caps.ibufCap < s.ilen.toNat ∨ s.ilen = 0) ∧ transformBytes s = .error (failWith s .invalidParameter)) ∨
      (s.ilen.toNat ≤ s.caps.ibufCap ∧ s.ilen ≠ 0 ∧ s.ibuf.readRange 0 s.ilen.toNat = none ∧
        transformBytes s = .error (.refused .unwrittenInput)) ∨
      ∃ x, InputIs s x ∧ x ≠ [] ∧ transformBytes s = .ok x := by
  unfold transformBytes
  by_cases hc : s.caps.ibufCap < s.ilen.toNat
  · exact .inl ⟨.inl hc, by rw [if_pos hc]⟩
  by_cases hz : s.ilen = 0
  · exact .inl ⟨.inr hz, by rw [if_neg hc, if_pos hz]⟩
  rw [if_neg hc, if_neg hz]
  cases hx : s.ibuf.readRange 0 s.ilen.toNat with
  | none => exact .inr (.inl ⟨by omega, hz, rfl, rfl⟩)
  | some x =>
    refine .inr (.inr ⟨x, ⟨by omega, hx⟩, ?_, rfl⟩)
    rintro rfl
    have := readRange_length hx
    exact hz (BitVec.eq_of_toNat_eq (by simpa using this.symm))

theorem transformBytes_eq {s : State} {x : List Byte} (hx : InputIs s x) (hne : x ≠ []) : transformBytes s = .ok x := by
  have hlen := readRange_length hx.2
  have hz : s.ilen ≠ 0 := by
    rintro h
    rw [h] at hlen
    exact hne (List.length_eq_zero_iff.mp (by simpa using hlen))
  unfold transformBytes
  rw [if_neg (Nat.not_lt.mpr hx.1), if_neg hz, hx.2]

/-- A transform command's start: a frame error, a refusal, or the non-empty input and the end in `deliver`. -/
theorem transform_cases {s : State} {full : ErrKind} {f : List Byte → Except ErrKind (List Byte × Word)} {o : Result}
    (h : transform s full f = o) :
    ((s.caps.ibufCap < s.ilen.toNat ∨ s.ilen = 0) ∧ o = failWith (takeOver s) .invalidParameter) ∨
      (s.ilen.toNat ≤ s.caps.ibufCap ∧ s.ilen ≠ 0 ∧ s.ibuf.readRange 0 s.ilen.toNat = none ∧ o = .refused .unwrittenInput) ∨
      ∃ x, InputIs s x ∧ x ≠ [] ∧ o = deliver (takeOver s) full (f x) := by
  unfold transform at h
  rcases transformBytes_cases (takeOver s) with ⟨h1, h2⟩ | ⟨h1, h2, h3, h4⟩ | ⟨x, h1, h2, h3⟩
  · rw [h2] at h; exact .inl ⟨h1, h.symm⟩
  · rw [h4] at h; exact .inr (.inl ⟨h1, h2, h3, h.symm⟩)
  · rw [h3] at h; exact .inr (.inr ⟨x, h1, h2, h.symm⟩)

/-- A transform command on a non-empty input. -/
theorem transform_eq {s : State} {x : List Byte} (hx : InputIs s x) (hne : x ≠ []) (full : ErrKind)
    (f : List Byte → Except ErrKind (List Byte × Word)) : transform s full f = deliver (takeOver s) full (f x) := by
  unfold transform
  rw [transformBytes_eq (s := takeOver s) (x := x) hx hne]

/-- The end of a transform command: the error, the output that does not fit, or the output. -/
theorem deliver_cases {s : State} {full : ErrKind} {r : Except ErrKind (List Byte × Word)} {o : Result}
    (h : deliver s full r = o) :
    (∃ k, r = .error k ∧ o = failWith s k) ∨
      (∃ y r1, r = .ok (y, r1) ∧ s.caps.obufCap < y.length ∧ o = failWith s full) ∨
      ∃ y r1, r = .ok (y, r1) ∧ y.length ≤ s.caps.obufCap ∧
        o = succeed { s with obuf := Memory.writeBytes s.obuf 0 y, olen := BitVec.ofNat 32 y.length } (BitVec.ofNat 32 y.length) r1 := by
  unfold deliver at h
  split at h
  · exact .inl ⟨_, rfl, h.symm⟩
  · split at h
    · exact .inr (.inl ⟨_, _, rfl, by assumption, h.symm⟩)
    · exact .inr (.inr ⟨_, _, rfl, by omega, h.symm⟩)

/-- What completing a taken-over state with an error leaves. -/
theorem transformFailed_takeOver (s : State) (k : ErrKind) : TransformFailed s (completeErr (takeOver s) k) k :=
  ⟨completedErr_of k rfl rfl, rfl, fun _ => rfl, rfl, ⟨rfl, rfl, rfl, rfl, rfl, rfl, rfl⟩, ⟨rfl, fun _ => rfl⟩,
    ⟨rfl, rfl, rfl, rfl⟩, ⟨rfl, rfl⟩⟩

/-- What delivering an output that fits leaves. -/
theorem delivered_takeOver {s : State} {y : List Byte} (hcap : s.caps.InRange) (hy : y.length ≤ s.caps.obufCap) (r1 : Word) :
    Delivered s
      (completeOk { takeOver s with obuf := Memory.writeBytes (takeOver s).obuf 0 y, olen := BitVec.ofNat 32 y.length }
        (BitVec.ofNat 32 y.length) r1) y r1 := by
  obtain ⟨-, -, -, h4⟩ := hcap
  have hmod : (BitVec.ofNat 32 y.length).toNat = y.length := by
    rw [BitVec.toNat_ofNat]; exact Nat.mod_eq_of_lt (by omega)
  refine ⟨completedOk_of _ _ rfl rfl, ⟨hmod, ?_⟩, fun a ha => ?_, rfl, ⟨rfl, rfl, rfl, rfl, rfl, rfl, rfl⟩, ⟨rfl, fun _ => rfl⟩,
    ⟨rfl, rfl, rfl, rfl⟩, ⟨rfl, rfl⟩⟩
  · show Memory.readRange (Memory.writeBytes [] 0 y) 0 (BitVec.ofNat 32 y.length).toNat = some y
    rw [hmod]
    exact readRange_writeBytes _ _ _
  · show Memory.read (Memory.writeBytes [] 0 y) a = none
    rw [read_writeBytes_outside _ _ (by omega)]
    rfl

/-- A transform command whose function of the input answers an output that fits delivers it. -/
theorem transform_delivers {s : State} {x y : List Byte} {r1 : Word} {full : ErrKind}
    {f : List Byte → Except ErrKind (List Byte × Word)} (hcap : s.caps.InRange) (hx : InputIs s x) (hne : x ≠ [])
    (hf : f x = .ok (y, r1)) (hy : y.length ≤ s.caps.obufCap) : ∃ t, transform s full f = .next t ∧ Delivered s t y r1 := by
  refine ⟨_, ?_, delivered_takeOver hcap hy r1⟩
  rw [transform_eq hx hne, hf]
  simp only [deliver]
  rw [if_neg (by simpa using hy)]
  rfl

/-- A transform command whose function of the input answers an error fails with it. -/
theorem transform_fails {s : State} {x : List Byte} {k : ErrKind} {full : ErrKind}
    {f : List Byte → Except ErrKind (List Byte × Word)} (hx : InputIs s x) (hne : x ≠ []) (hf : f x = .error k) :
    ∃ t, transform s full f = .next t ∧ TransformFailed s t k := by
  refine ⟨_, ?_, transformFailed_takeOver s k⟩
  rw [transform_eq hx hne, hf]
  rfl

/-- A transform command whose output does not fit fails with its kind. -/
theorem transform_overflows {s : State} {x y : List Byte} {r1 : Word} {full : ErrKind}
    {f : List Byte → Except ErrKind (List Byte × Word)} (hx : InputIs s x) (hne : x ≠ []) (hf : f x = .ok (y, r1))
    (hy : s.caps.obufCap < y.length) : ∃ t, transform s full f = .next t ∧ TransformFailed s t full := by
  refine ⟨_, ?_, transformFailed_takeOver s full⟩
  rw [transform_eq hx hne, hf]
  simp only [deliver]
  rw [if_pos (by simpa using hy)]
  rfl

/-! ## The bit reader -/

theorem withReader_cases {s : State} {body o : Result} (h : withReader s body = o) :
    (s.brValid = false ∧ o = failWith s .invalidParameter) ∨ (s.brValid = true ∧ o = body) := by
  unfold withReader at h
  split at h
  · exact .inr ⟨by assumption, h.symm⟩
  · rename_i hv
    exact .inl ⟨by simpa using hv, h.symm⟩

/-- The source of a reading command: refused, or its bytes. -/
theorem readerSource_cases {s : State} {f : List Byte → Result} {o : Result} (h : readerSource s f = o) :
    (s.ibuf.readRange 0 s.brLen.toNat = none ∧ o = .refused .unwrittenInput) ∨
      ∃ src, s.ibuf.readRange 0 s.brLen.toNat = some src ∧ o = f src := by
  unfold readerSource writtenRange at h
  split at h
  · exact .inl ⟨by assumption, h.symm⟩
  · exact .inr ⟨_, by assumption, h.symm⟩

theorem readerSource_eq {s : State} {src : List Byte} (h : s.ibuf.readRange 0 s.brLen.toNat = some src) (f : List Byte → Result) :
    readerSource s f = f src := by
  unfold readerSource writtenRange
  rw [h]

/-- A reading command over a source with an unwritten byte is refused. -/
theorem readerSource_refused {s : State} {a : Nat} (ha : a < s.brLen.toNat) (h : s.ibuf.read a = none) (f : List Byte → Result) :
    readerSource s f = .refused .unwrittenInput := by
  rcases readerSource_cases (s := s) (f := f) rfl with ⟨-, h2⟩ | ⟨src, h1, -⟩
  · exact h2
  · obtain ⟨hl, hb⟩ := readRange_eq_some_iff.mp h1
    have := hb a ha
    rw [Nat.zero_add, h, List.getElem?_eq_getElem (by omega)] at this
    simp at this

/-- Reading `n` bits: too few are left, or their value and the cursor past them. -/
theorem readBits_cases {s : State} {src : List Byte} {n : Nat} {o : Result} (h : readBits s src n = o) :
    (s.brAvail < n ∧ o = failEof s) ∨
      (n ≤ s.brAvail ∧ o = succeed (readerAt s (s.brBits.toNat + n)) (BitVec.ofNat 32 (peek src s.brBits.toNat n)) 0) := by
  unfold readBits at h
  split at h
  · exact .inl ⟨by assumption, h.symm⟩
  · exact .inr ⟨by omega, h.symm⟩

/-- Most significant bit first: a sequence of bits as the sum of R62. -/
theorem bitsValue_append (as bs : List Bool) : bitsValue (as ++ bs) = bitsValue as * 2 ^ bs.length + bitsValue bs := by
  have key : ∀ (bs : List Bool) (v : Nat), bs.foldl (fun v b => 2 * v + b.toNat) v = v * 2 ^ bs.length + bitsValue bs := by
    intro bs
    induction bs with
    | nil => intro v; simp [bitsValue]
    | cons b bs ih =>
      intro v
      have h0 := ih (2 * 0 + b.toNat)
      simp only [bitsValue, List.foldl_cons, List.length_cons] at *
      rw [ih, h0, Nat.pow_succ]
      ring
  simp only [bitsValue, List.foldl_append]
  exact key bs _

theorem bitsValue_map_range (f : Nat → Bool) (n : Nat) :
    bitsValue ((List.range n).map f) = ((List.range n).map fun i => (f i).toNat * 2 ^ (n - 1 - i)).sum := by
  induction n with
  | zero => rfl
  | succ n ih =>
    rw [List.range_succ, List.map_append, bitsValue_append, ih, List.map_append, List.sum_append]
    congr 1
    · rw [← List.sum_map_mul_right]
      congr 1
      apply List.map_congr_left
      intro i hi
      have : i < n := List.mem_range.mp hi
      simp only [List.map_cons, List.map_nil, List.length_singleton, pow_one]
      rw [Nat.mul_assoc, ← Nat.pow_succ]
      congr 2
      omega
    · simp [bitsValue]

/-- `n` bits are a value below `2^n`. -/
theorem bitsValue_lt (bs : List Bool) : bitsValue bs < 2 ^ bs.length := by
  induction bs using List.reverseRecOn with
  | nil => decide
  | append_singleton bs b ih =>
    rw [bitsValue_append, List.length_append, Nat.pow_add]
    have hb : bitsValue [b] < 2 := by cases b <;> decide
    simp only [List.length_singleton, pow_one]
    omega

/-- `peek` is the sum of R141, and `n` bits are a value below `2^n`. -/
theorem peek_eq_fieldValue (src : List Byte) (p n : Nat) : peek src p n = fieldValue src p n := bitsValue_map_range _ n

theorem peek_lt (src : List Byte) (p n : Nat) : peek src p n < 2 ^ n := by
  simpa [peek] using bitsValue_lt ((List.range n).map fun i => bitAt src (p + i))

/-! ## The bit writer -/

theorem withWriter_cases {s : State} {body o : Result} (h : withWriter s body = o) :
    (s.bwValid = false ∧ o = failWith s .invalidParameter) ∨ (s.bwValid = true ∧ o = body) := by
  unfold withWriter at h
  split at h
  · exact .inr ⟨by assumption, h.symm⟩
  · rename_i hv
    exact .inl ⟨by simpa using hv, h.symm⟩

/-- The incomplete byte holds fewer than eight bits, and the bits below them are 0 (R34). -/
def SinkForm (w : BitSink) : Prop := w.k < 8 ∧ w.acc.toNat % 2 ^ (8 - w.k) = 0

/-- The bits a sink holds: those of its complete bytes and the pending ones. -/
def sinkBits (w : BitSink) : List Bool := bitsOf w.bytes ++ (bitsOfByte w.acc).take w.k

theorem bitsOf_append (a b : List Byte) : bitsOf (a ++ b) = bitsOf a ++ bitsOf b := by simp [bitsOf]

@[simp] theorem bitsOfByte_length (b : Byte) : (bitsOfByte b).length = 8 := by simp [bitsOfByte]

theorem bitsOf_length (s : List Byte) : (bitsOf s).length = 8 * s.length := by
  induction s with
  | nil => rfl
  | cons b s ih =>
    simp only [bitsOf, List.flatMap_cons, List.length_append, bitsOfByte_length, List.length_cons] at *
    omega

/-- One step of the writer on each incomplete byte, by cases on the byte. -/
theorem putBit_step : ∀ (k : Fin 8) (a : Byte), a.toNat % 2 ^ (8 - k.val) = 0 → ∀ b : Bool,
    (bitsOfByte (a ||| (if b then 1#8 <<< (7 - k.val) else 0#8))).take (k.val + 1) = (bitsOfByte a).take k.val ++ [b] ∧
      (a ||| (if b then 1#8 <<< (7 - k.val) else 0#8)).toNat % 2 ^ (8 - (k.val + 1)) = 0 := by
  decide +kernel

/-- `put` adds its bit to the stream (R151). -/
theorem putBit_spec {w : BitSink} (h : SinkForm w) (b : Bool) :
    SinkForm (putBit w b) ∧ sinkBits (putBit w b) = sinkBits w ++ [b] ∧
      8 * (putBit w b).bytes.length + (putBit w b).k = 8 * w.bytes.length + w.k + 1 := by
  obtain ⟨hk, ha⟩ := h
  obtain ⟨h1, h2⟩ := putBit_step ⟨w.k, hk⟩ w.acc ha b
  simp only at h1 h2
  unfold putBit
  simp only
  split
  · rename_i h8
    refine ⟨⟨by simp, by simp⟩, ?_, ?_⟩
    · have h7 : w.k = 7 := by omega
      simp only [sinkBits, bitsOf_append, List.take_zero, List.append_nil, List.append_assoc]
      rw [← h1, h7, List.take_of_length_le (by simp)]
      simp [bitsOf]
    · simp only [List.length_append, List.length_singleton]
      omega
  · refine ⟨⟨by simp only; omega, h2⟩, ?_, ?_⟩
    · simp only [sinkBits, h1, List.append_assoc]
    · simp only
      omega

/-- `put` of several bits adds them in order. -/
theorem putBits_spec (bs : List Bool) : ∀ {w : BitSink}, SinkForm w →
    SinkForm (putBits w bs) ∧ sinkBits (putBits w bs) = sinkBits w ++ bs ∧
      8 * (putBits w bs).bytes.length + (putBits w bs).k = 8 * w.bytes.length + w.k + bs.length := by
  induction bs with
  | nil => intro w h; exact ⟨h, by simp [putBits], by simp [putBits]⟩
  | cons b bs ih =>
    intro w h
    obtain ⟨h1, h2, h3⟩ := putBit_spec h b
    obtain ⟨i1, i2, i3⟩ := ih h1
    refine ⟨i1, ?_, ?_⟩
    · show sinkBits (putBits (putBit w b) bs) = _
      rw [i2, h2]
      simp
    · show 8 * (putBits (putBit w b) bs).bytes.length + (putBits (putBit w b) bs).k = _
      rw [i3, h3, List.length_cons]
      omega

/-- Two ranges side by side. -/
theorem readRange_append {m : Memory} {a n k : Nat} {x y : List Byte} (hx : m.readRange a n = some x)
    (hy : m.readRange (a + n) k = some y) : m.readRange a (n + k) = some (x ++ y) := by
  obtain ⟨h1, h2⟩ := readRange_eq_some_iff.mp hx
  obtain ⟨h3, h4⟩ := readRange_eq_some_iff.mp hy
  refine readRange_eq_some_iff.mpr ⟨by simp [h1, h3], fun i hi => ?_⟩
  by_cases hin : i < n
  · rw [h2 i hin, List.getElem?_append_left (by omega)]
  · have := h4 (i - n) (by omega)
    rw [show a + n + (i - n) = a + i by omega] at this
    rw [this, List.getElem?_append_right (by omega), h1]

/-- Storing a sink: its complete bytes follow the output, the rest is pending (R151). -/
theorem storeSink_spec {s : State} {y : List Byte} {w : BitSink} (hcap : s.caps.InRange) (ho : OutputForm s)
    (hy : s.obuf.readRange 0 s.olen.toNat = some y) (hw : SinkForm w)
    (hfit : s.olen.toNat + w.bytes.length ≤ s.caps.obufCap) :
    OutputForm (storeSink s w) ∧ WriterForm (storeSink s w) ∧ (storeSink s w).bwValid = true ∧
      writerStream (storeSink s w) = some (bitsOf y ++ sinkBits w) ∧
      (storeSink s w).olen.toNat = s.olen.toNat + w.bytes.length ∧ (storeSink s w).bwNbits = w.k ∧
      ∀ a, a < s.olen.toNat ∨ (storeSink s w).olen.toNat ≤ a → (storeSink s w).obuf.read a = s.obuf.read a := by
  obtain ⟨-, -, -, h4⟩ := hcap
  have hol : (storeSink s w).olen.toNat = s.olen.toNat + w.bytes.length := by
    show (BitVec.ofNat 32 _).toNat = _
    rw [BitVec.toNat_ofNat]; exact Nat.mod_eq_of_lt (by omega)
  obtain ⟨hv, hn, ha⟩ := writer_of_bwCtrlWord (s := storeSink s w) rfl
  rw [Nat.mod_eq_of_lt hw.1] at hn
  refine ⟨⟨?_, by rw [hol]; exact hfit⟩, ⟨?_, ?_⟩, hv, ?_, hol, hn, fun a hin => ?_⟩
  · rw [hol]; exact writeBytes_append_indices ho.1
  · rw [hn, ha]; rfl
  · rw [hn, ha]; exact hw.2
  · unfold writerStream
    rw [hol, hn, ha]
    have h1 : (storeSink s w).obuf.readRange 0 s.olen.toNat = some y := by
      rw [← hy]
      exact readRange_congr fun i _ hi => read_writeBytes_outside _ _ (.inl (by omega))
    have h2 : (storeSink s w).obuf.readRange (0 + s.olen.toNat) w.bytes.length = some w.bytes := by
      rw [Nat.zero_add]; exact readRange_writeBytes _ _ _
    rw [readRange_append h1 h2, Option.map_some, sinkBits, bitsOf_append, List.append_assoc]
  · exact read_writeBytes_outside _ _ (by rw [hol] at hin; omega)

/-- The sink a valid writer starts from. -/
theorem sinkForm_sinkOf {s : State} (h : WriterForm s) : SinkForm (sinkOf s) := ⟨bwNbits_lt s, h.2⟩

/-- Writing bits to a valid writer appends them to its stream (R153, R154). -/
theorem writeBits_spec {s : State} {old bs : List Bool} (h : WriterOver s old)
    (hfit : s.olen.toNat + (s.bwNbits + bs.length) / 8 ≤ s.caps.obufCap) :
    ∃ t, writeBits s bs = .next t ∧ WroteStream s t (old ++ bs) := by
  obtain ⟨hcap, hv, hf, ho, hs⟩ := h
  unfold writerStream at hs
  obtain ⟨y, hy, hs⟩ := Option.map_eq_some_iff.mp hs
  obtain ⟨p1, p2, p3⟩ := putBits_spec bs (sinkForm_sinkOf hf)
  have p3' : 8 * (putBits (sinkOf s) bs).bytes.length + (putBits (sinkOf s) bs).k = s.bwNbits + bs.length := by
    rw [p3]; simp [sinkOf]
  have hk := p1.1
  have hlen : (putBits (sinkOf s) bs).bytes.length = (s.bwNbits + bs.length) / 8 := by omega
  obtain ⟨q1, q2, q3, q4, q5, q6, q7⟩ := storeSink_spec hcap ho hy p1 (by omega)
  have hstream : bitsOf y ++ sinkBits (putBits (sinkOf s) bs) = old ++ bs := by
    rw [p2, ← hs]
    simp [sinkBits, sinkOf, bitsOf]
  rw [hstream] at q4
  have hylen := readRange_length hy
  have hres : streamBits (storeSink s (putBits (sinkOf s) bs)) = BitVec.ofNat 32 (old ++ bs).length := by
    unfold streamBits
    rw [q5, q6, ← hs]
    simp only [List.length_append, bitsOf_length, List.length_take, bitsOfByte_length]
    congr 1
    have := bwNbits_lt s
    omega
  refine ⟨_, rfl, ?_⟩
  simp only [hres]
  refine ⟨completedOk_of _ _ rfl rfl, ⟨hcap, q3, q2, q1, q4⟩, q7, ⟨rfl, rfl, rfl, rfl, rfl, rfl, rfl⟩, ⟨rfl, fun _ => rfl⟩,
    ⟨rfl, rfl, rfl, rfl⟩, ⟨rfl, rfl⟩⟩

end Sys2Proof.Machine
end

