-- ==== Sys2Proof/Laws/Codecs.lean ====
section
/-! SUPPORT. The codec functions: the error kinds each can answer, and how the transform commands are built on them. -/

namespace Sys2Proof.Machine

/-! ## LONG's length byte (30 R102): the bias is 0 -/

@[simp] theorem longLenByte_eq (len : Nat) : longLenByte len = BitVec.ofNat 8 len := rfl
@[simp] theorem longLen_eq (b : Byte) : longLen b = b.toNat := rfl

/-! ## Error kinds (60 R332) -/

theorem withNoRes1_error {r : Except ErrKind (List Byte)} {k : ErrKind} (h : withNoRes1 r = .error k) : r = .error k := by
  unfold withNoRes1 at h
  split at h
  · simpa using h
  · simp at h

theorem buildTree_leafQueue_ne {F : Byte → Nat} {v : Byte} (hv : 0 < F v) : (leafQueue F).1 ≠ [] := by
  have hins : ∀ (n : QNode) (q : List QNode), queueInsert n q ≠ [] := by
    intro n q
    cases q with
    | nil => simp [queueInsert]
    | cons m q => simp only [queueInsert]; split <;> simp
  have step : ∀ (vs : List Byte) (acc : List QNode × Nat), v ∈ vs ∨ acc.1 ≠ [] →
      (vs.foldl (fun (acc : List QNode × Nat) v =>
        if 0 < F v then (queueInsert { w := F v, q := acc.2, tree := .leaf v } acc.1, acc.2 + 1) else acc) acc).1 ≠ [] := by
    intro vs
    induction vs with
    | nil => intro acc h; simpa using h
    | cons u vs ih =>
      intro acc h
      rw [List.foldl_cons]
      apply ih
      by_cases hu : 0 < F u
      · rw [if_pos hu]; exact .inr (hins _ _)
      · rw [if_neg hu]
        rcases h with h | h
        · rcases List.mem_cons.mp h with rfl | h
          · exact absurd hv hu
          · exact .inl h
        · exact .inr h
  refine step allBytes _ (.inl ?_)
  have : ∀ b : Byte, b ∈ allBytes := by decide +kernel
  exact this v

theorem huffCompress_error {x : List Byte} {k : ErrKind} (h : huffCompress x = .error k) : k = .compressionFailed := by
  unfold huffCompress at h
  split at h <;> simp_all

theorem parseEntries_error (s : List Byte) {k : ErrKind} (h : parseEntries s = .error k) : k = .truncatedData := by
  induction s using parseEntries.induct with
  | case1 v f0 f1 f2 f3 rest hs => simp [parseEntries, hs] at h
  | case2 v f0 f1 f2 f3 rest hs e he ih =>
    rw [parseEntries, if_neg hs, he] at h
    simp only [Except.error.injEq] at h
    exact ih (h ▸ he)
  | case3 v f0 f1 f2 f3 rest hs es code he ih => rw [parseEntries, if_neg hs, he] at h; simp at h
  | case4 s hs => simp [parseEntries] at h; exact h.symm

theorem walkTree_error {t : HuffTree} {bs : List Bool} {k : ErrKind} (h : walkTree t bs = .error k) : k = .truncatedData := by
  induction t generalizing bs with
  | leaf v => simp [walkTree] at h
  | node l r ihl ihr =>
    cases bs with
    | nil => simp [walkTree] at h; exact h.symm
    | cons b bs =>
      simp only [walkTree] at h
      split at h
      · exact ihl h
      · exact ihr h

theorem decodeSymbol_error {t : HuffTree} {bs : List Bool} {k : ErrKind} (h : decodeSymbol t bs = .error k) :
    k = .truncatedData ∨ k = .decompressionFailed := by
  cases t with
  | leaf v =>
    cases bs with
    | nil => simp [decodeSymbol] at h; exact .inl h.symm
    | cons b bs =>
      simp only [decodeSymbol] at h
      split at h <;> simp at h
      exact .inr h.symm
  | node l r => exact .inl (walkTree_error h)

theorem decodeSymbols_error {t : HuffTree} {n : Nat} {bs : List Bool} {k : ErrKind} (h : decodeSymbols t n bs = .error k) :
    k = .truncatedData ∨ k = .decompressionFailed := by
  induction n generalizing bs with
  | zero => simp [decodeSymbols] at h
  | succ n ih =>
    simp only [decodeSymbols] at h
    split at h
    · rename_i e he
      simp only [Except.error.injEq] at h
      exact h ▸ decodeSymbol_error he
    · split at h
      · rename_i e he
        simp only [Except.error.injEq] at h
        exact ih (h ▸ he)
      · simp at h

theorem huffDecompress_error {s : List Byte} {cap : Nat} {k : ErrKind} (h : huffDecompress s cap = .error k) :
    k = .truncatedData ∨ k = .decompressionFailed := by
  unfold huffDecompress huffParse at h
  split at h
  · rename_i e he
    simp only [Except.error.injEq] at h
    subst h
    split at he
    · rename_i e' he'
      simp only [Except.error.injEq] at he
      exact .inl (he ▸ parseEntries_error s he')
    · split at he
      · simp at he; exact .inr he.symm
      · split at he
        · simp at he; exact .inr he.symm
        · simp at he
  · split at h
    · simp at h; exact .inr h.symm
    · split at h
      · simp at h; exact .inr h.symm
      · exact decodeSymbols_error h

theorem tokenError_kinds (e : DecodeError) : tokenError e = .truncatedData ∨ tokenError e = .decompressionFailed := by
  cases e <;> simp [tokenError]

theorem tokenEffect_error {declared : Nat} {outRev : List Byte} {i : Instr} {k : ErrKind}
    (h : tokenEffect declared outRev i = .error k) : k = .decompressionFailed ∨ k = .sizeMismatch := by
  have hm : ∀ l o, putMatch declared outRev l o = .error k → k = .decompressionFailed ∨ k = .sizeMismatch := by
    intro l o h
    unfold putMatch at h
    split at h
    · simp at h; exact .inl h.symm
    · split at h
      · simp at h; exact .inr h.symm
      · simp at h
  have hl : ∀ v, putLiteral declared outRev v = .error k → k = .decompressionFailed ∨ k = .sizeMismatch := by
    intro v h
    unfold putLiteral at h
    split at h
    · simp at h; exact .inr h.symm
    · simp at h
  cases i <;> simp only [tokenEffect, reduceCtorEq] at h
  · exact hl _ h
  · exact hl _ h
  · exact hm _ _ h
  · split at h
    · simp at h; exact .inl h.symm
    · exact hm _ _ h

theorem replayTokens_error {declared fuel : Nat} {ts outRev : List Byte} {k : ErrKind}
    (h : replayTokens declared fuel ts outRev = .error k) :
    k = .truncatedData ∨ k = .decompressionFailed ∨ k = .sizeMismatch := by
  induction fuel generalizing ts outRev with
  | zero => cases ts <;> simp [replayTokens] at h
  | succ fuel ih =>
    cases ts with
    | nil => simp [replayTokens] at h
    | cons t ts =>
      simp only [replayTokens] at h
      split at h
      · simp only [Except.error.injEq] at h
        rcases tokenError_kinds _ with h' | h' <;> rw [h'] at h <;> simp [← h]
      · split at h
        · rename_i e he
          simp only [Except.error.injEq] at h
          rcases tokenEffect_error he with h' | h' <;> simp [← h, h']
        · exact ih h

theorem lzPrefix_error {s : List Byte} {cap : Nat} {k : ErrKind} (h : lzPrefix s cap = .error k) :
    k = .truncatedData ∨ k = .decompressionFailed := by
  unfold lzPrefix at h
  split at h
  · split at h
    · simp at h; exact .inr h.symm
    · split at h
      · simp at h; exact .inr h.symm
      · split at h
        · simp at h; exact .inr h.symm
        · simp at h
  · simp at h; exact .inl h.symm

theorem replayEnd_error {declared : Nat} {outRev : List Byte} {k : ErrKind} (h : replayEnd declared outRev = .error k) :
    k = .sizeMismatch := by
  unfold replayEnd at h
  split at h <;> simp at h
  exact h.symm

theorem lz77Decompress_error {s : List Byte} {cap : Nat} {k : ErrKind} (h : lz77Decompress s cap = .error k) :
    k = .truncatedData ∨ k = .decompressionFailed ∨ k = .sizeMismatch := by
  unfold lz77Decompress at h
  split at h
  · rename_i e he
    simp only [Except.error.injEq] at h
    rcases lzPrefix_error he with h' | h' <;> simp [← h, h']
  · split at h
    · rename_i e he
      simp only [Except.error.injEq] at h
      exact h ▸ replayTokens_error he
    · exact .inr (.inr (replayEnd_error h))

theorem bmhCompress_error {x : List Byte} {k : ErrKind} (h : bmhCompress x = .error k) : k = .compressionFailed :=
  huffCompress_error h

theorem bmhDecompress_error {s : List Byte} {cap : Nat} {k : ErrKind} (h : bmhDecompress s cap = .error k) :
    k = .truncatedData ∨ k = .decompressionFailed := by
  unfold bmhDecompress at h
  split at h
  · rename_i e he
    simp only [Except.error.injEq] at h
    exact h ▸ huffDecompress_error he
  · unfold bmhContent at h
    split at h
    · split at h
      · simp at h; exact .inr h.symm
      · simp at h
    · simp at h; exact .inr h.symm

theorem rcCompress_error {x : List Byte} {k : ErrKind} (h : rcCompress x = .error k) : k = .compressionFailed := by
  simp only [rcCompress] at h
  split at h <;> simp at h
  exact h.symm

theorem rcDecNormalise_error {d : RcDec} {k : ErrKind} (h : rcDecNormalise d = .error k) : k = .truncatedData := by
  unfold rcDecNormalise at h
  split at h
  · split at h <;> simp at h
    exact h.symm
  · simp at h

theorem decodeBit_error {d : RcDec} {p : Nat} {k : ErrKind} (h : decodeBit d p = .error k) : k = .truncatedData :=
  rcDecNormalise_error h

theorem decodeDecisions_error {c n m : Nat} {t : Probs} {d : RcDec} {k : ErrKind} (h : decodeDecisions c n m t d = .error k) :
    k = .truncatedData := by
  induction n generalizing m t d with
  | zero => simp [decodeDecisions] at h
  | succ n ih =>
    simp only [decodeDecisions] at h
    split at h
    · rename_i e he
      simp only [Except.error.injEq] at h
      exact h ▸ decodeBit_error he
    · exact ih h

theorem decodeBytes_error {n c : Nat} {t : Probs} {d : RcDec} {k : ErrKind} (h : decodeBytes n c t d = .error k) :
    k = .truncatedData := by
  induction n generalizing c t d with
  | zero => simp [decodeBytes] at h
  | succ n ih =>
    simp only [decodeBytes] at h
    split at h
    · rename_i e he
      simp only [Except.error.injEq] at h
      exact h ▸ decodeDecisions_error he
    · split at h
      · rename_i e he
        simp only [Except.error.injEq] at h
        exact ih (h ▸ he)
      · simp at h

theorem rcDecompress_error {s : List Byte} {cap : Nat} {k : ErrKind} (h : rcDecompress s cap = .error k) :
    k = .truncatedData ∨ k = .decompressionFailed := by
  unfold rcDecompress at h
  split at h
  · split at h
    · simp at h; exact .inr h.symm
    · split at h
      · simp at h; exact .inr h.symm
      · split at h
        · rename_i e he
          simp only [Except.error.injEq] at h
          subst h
          unfold rcDecInit at he
          split at he
          · split at he <;> simp at he
            exact .inr he.symm
          · simp at he; exact .inl he.symm
        · exact .inl (decodeBytes_error h)
  · simp at h; exact .inl h.symm

theorem hcCompress_error {x : List Byte} {k : ErrKind} (h : hcCompress x = .error k) : k = .compressionFailed := by
  unfold hcCompress at h
  split at h
  · rename_i e he
    simp only [Except.error.injEq] at h
    subst h
    cases hs : stageOf x <;> simp only [hs, stageCompress] at he
    · exact huffCompress_error he
    · exact bmhCompress_error he
    · exact rcCompress_error he
  · simp at h

theorem stageResult_error {cap : Nat} {st : Stage} {x : List Byte} {k : ErrKind} (h : stageResult cap st x = .error k) :
    k = .truncatedData ∨ k = .decompressionFailed := by
  unfold stageResult at h
  split at h
  · rename_i e he
    simp only [Except.error.injEq] at h
    subst h
    cases st <;> simp only [stageDecompress] at he
    · exact huffDecompress_error he
    · exact bmhDecompress_error he
    · exact rcDecompress_error he
  · simp at h

theorem decodeTag_ok {t : List Byte} {i : Instr} (h : decodeTag t = .ok i) : i = .hcTagHuff ∨ i = .hcTagBmh ∨ i = .hcTagRc := by
  unfold decodeTag at h
  split at h
  · split at h
    · unfold decodeStage at h
      split at h
      · simp at h; exact .inl h.symm
      · split at h
        · simp at h; exact .inr (.inl h.symm)
        · split at h <;> simp at h
          exact .inr (.inr h.symm)
    · simp at h
  · simp at h

theorem hcDecompress_error {t : List Byte} {cap : Nat} {k : ErrKind} (h : hcDecompress t cap = .error k) :
    k = .truncatedData ∨ k = .decompressionFailed ∨ k = .invalidMagic ∨ k = .invalidAlgorithm := by
  unfold hcDecompress at h
  split at h
  · rename_i e he
    simp only [Except.error.injEq] at h
    subst h
    unfold hcTagOf at he
    split at he
    · simp at he; exact .inl he.symm
    · split at he
      · rename_i e' _
        simp only [Except.error.injEq] at he
        cases e' <;> simp [tagError] at he <;> simp [← he]
      · simp at he
  · split at h
    · simp at h; simp [← h]
    · rcases stageResult_error h with h | h <;> simp [h]

/-! ## The transform commands -/

/-- A transform command or a tag row is `transform` around its function of the input, whose errors its row of the matrix allows. -/
theorem exec_codec {i : Instr} (hi : isTransform i = true ∨ i = .hcTagHuff ∨ i = .hcTagBmh ∨ i = .hcTagRc) (s : State) :
    ∃ f, exec i s = transform s (fullKind i) f ∧ (∀ x, InputIs s x → f x = codecOf s x i) ∧
      (∀ x k, f x = .error k → k ∈ kindsRaised i) := by
  cases i <;> first | (simp [isTransform, opcodeOf] at hi; done) | skip
  · exact ⟨_, rfl, fun _ _ => rfl, fun x k h => by simp [kindsRaised, huffCompress_error (withNoRes1_error h)]⟩
  · exact ⟨_, rfl, fun _ _ => rfl, fun x k h => by rcases huffDecompress_error (withNoRes1_error h) with h | h <;> simp [kindsRaised, h]⟩
  · exact ⟨_, rfl, fun _ _ => rfl, fun x k h => by simp at h⟩
  · exact ⟨_, rfl, fun _ _ => rfl,
      fun x k h => by rcases lz77Decompress_error (withNoRes1_error h) with h | h | h <;> simp [kindsRaised, h]⟩
  · exact ⟨_, rfl, fun _ _ => rfl, fun x k h => by simp at h⟩
  · refine ⟨_, rfl, fun x hx => ?_, fun x k h => ?_⟩
    · simp only [codecOf, readRange_length hx.2]
    · split at h <;> simp at h
      simp [kindsRaised, ← h]
  · exact ⟨_, rfl, fun _ _ => rfl, fun x k h => by simp at h⟩
  · exact ⟨_, rfl, fun _ _ => rfl, fun x k h => by simp at h⟩
  · exact ⟨_, rfl, fun _ _ => rfl, fun x k h => by simp [kindsRaised, bmhCompress_error (withNoRes1_error h)]⟩
  · exact ⟨_, rfl, fun _ _ => rfl, fun x k h => by rcases bmhDecompress_error (withNoRes1_error h) with h | h <;> simp [kindsRaised, h]⟩
  · exact ⟨_, rfl, fun _ _ => rfl, fun x k h => by simp [kindsRaised, rcCompress_error (withNoRes1_error h)]⟩
  · exact ⟨_, rfl, fun _ _ => rfl, fun x k h => by rcases rcDecompress_error (withNoRes1_error h) with h | h <;> simp [kindsRaised, h]⟩
  · exact ⟨_, rfl, fun _ _ => rfl, fun x k h => by simp [kindsRaised, hcCompress_error h]⟩
  · exact ⟨_, rfl, fun _ _ => rfl, fun x k h => by rcases hcDecompress_error h with h | h | h | h <;> simp [kindsRaised, h]⟩
  all_goals
    exact ⟨_, rfl, fun _ _ => rfl, fun x k h => by rcases stageResult_error h with h | h <;> simp [kindsRaised, h]⟩

end Sys2Proof.Machine
end

