-- ==== Sys2Proof/Laws/PerInstr.lean ====
section
/-! SUPPORT. Facts proved instruction by instruction. -/

namespace Sys2Proof.Laws

/-- The form of an instruction's code: a command word has RSV 0 (30 R90), a token has one to four bytes (R104), a tag four (R107). -/
def CodeFormat.Statement (i : Instr) : Prop :=
  match encode i with
  | .cmd w => rsvField w = 0#24
  | .token bs => 1 ≤ bs.length ∧ bs.length ≤ 4
  | .tag bs => bs.length = 4

theorem CodeFormat.nop : CodeFormat.Statement (.nop) := rfl
theorem CodeFormat.xfer : CodeFormat.Statement (.xfer) := rfl
theorem CodeFormat.brCreate : CodeFormat.Statement (.brCreate) := rfl
theorem CodeFormat.brReadBit : CodeFormat.Statement (.brReadBit) := rfl
theorem CodeFormat.brReadBits : CodeFormat.Statement (.brReadBits) := rfl
theorem CodeFormat.brReadByte : CodeFormat.Statement (.brReadByte) := rfl
theorem CodeFormat.brSkipBits : CodeFormat.Statement (.brSkipBits) := rfl
theorem CodeFormat.brAlign : CodeFormat.Statement (.brAlign) := rfl
theorem CodeFormat.brSeek : CodeFormat.Statement (.brSeek) := rfl
theorem CodeFormat.bwCreate : CodeFormat.Statement (.bwCreate) := rfl
theorem CodeFormat.bwWriteBit : CodeFormat.Statement (.bwWriteBit) := rfl
theorem CodeFormat.bwWriteBits : CodeFormat.Statement (.bwWriteBits) := rfl
theorem CodeFormat.bwFlush : CodeFormat.Statement (.bwFlush) := rfl
theorem CodeFormat.crcCalc : CodeFormat.Statement (.crcCalc) := rfl
theorem CodeFormat.crcVerify : CodeFormat.Statement (.crcVerify) := rfl
theorem CodeFormat.crcCreate : CodeFormat.Statement (.crcCreate) := rfl
theorem CodeFormat.crcUpdate : CodeFormat.Statement (.crcUpdate) := rfl
theorem CodeFormat.crcFinalize : CodeFormat.Statement (.crcFinalize) := rfl
theorem CodeFormat.crcDestroy : CodeFormat.Statement (.crcDestroy) := rfl
theorem CodeFormat.huffCompress : CodeFormat.Statement (.huffCompress) := rfl
theorem CodeFormat.huffDecompress : CodeFormat.Statement (.huffDecompress) := rfl
theorem CodeFormat.lz77Compress : CodeFormat.Statement (.lz77Compress) := rfl
theorem CodeFormat.lz77Decompress : CodeFormat.Statement (.lz77Decompress) := rfl
theorem CodeFormat.bwtFwd : CodeFormat.Statement (.bwtFwd) := rfl
theorem CodeFormat.bwtInv : CodeFormat.Statement (.bwtInv) := rfl
theorem CodeFormat.mtfEnc : CodeFormat.Statement (.mtfEnc) := rfl
theorem CodeFormat.mtfDec : CodeFormat.Statement (.mtfDec) := rfl
theorem CodeFormat.bmhCompress : CodeFormat.Statement (.bmhCompress) := rfl
theorem CodeFormat.bmhDecompress : CodeFormat.Statement (.bmhDecompress) := rfl
theorem CodeFormat.rcCompress : CodeFormat.Statement (.rcCompress) := rfl
theorem CodeFormat.rcDecompress : CodeFormat.Statement (.rcDecompress) := rfl
theorem CodeFormat.hcCompress : CodeFormat.Statement (.hcCompress) := rfl
theorem CodeFormat.hcDecompress : CodeFormat.Statement (.hcDecompress) := rfl
theorem CodeFormat.lz77Lit (b : Byte) : CodeFormat.Statement (.lz77Lit b) := ⟨by simp [tokenBytes], by simp [tokenBytes]⟩
theorem CodeFormat.lz77Esc (b : Byte) : CodeFormat.Statement (.lz77Esc b) := ⟨by simp [tokenBytes], by simp [tokenBytes]⟩
theorem CodeFormat.lz77Short (len : Nat) (off : Byte) : CodeFormat.Statement (.lz77Short len off) := ⟨by simp [tokenBytes], by simp [tokenBytes]⟩
theorem CodeFormat.lz77Long (len : Byte) (off : BitVec 16) : CodeFormat.Statement (.lz77Long len off) := ⟨by simp [tokenBytes], by simp [tokenBytes, be16]⟩
theorem CodeFormat.hcTagHuff : CodeFormat.Statement (.hcTagHuff) := rfl
theorem CodeFormat.hcTagBmh : CodeFormat.Statement (.hcTagBmh) := rfl
theorem CodeFormat.hcTagRc : CodeFormat.Statement (.hcTagRc) := rfl

end Sys2Proof.Laws
end

