-- ==== Sys2Proof/Tests/Slice0.lean ====
section
/-! SUPPORT. The model's own tests. Expected values are those of the examples and vectors of spec/ (the rule or vector is named at each);
then, for each statement with hypotheses, a concrete state and operands that meet them. -/

namespace Sys2Proof.Tests

set_option Elab.async false

open Sys2Proof.Machine

/-! ## Well-formedness: each check refuses an ill-formed term (R99, R101) -/

theorem test_wellFormed_refuses_lit_80 : (Instr.lz77Lit 0x80#8).wellFormed = false := by decide
theorem test_wellFormed_accepts_lit_7F : (Instr.lz77Lit 0x7F#8).wellFormed = true := by decide
theorem test_wellFormed_refuses_short_2 : (Instr.lz77Short 2 1#8).wellFormed = false := by decide
theorem test_wellFormed_refuses_short_19 : (Instr.lz77Short 19 1#8).wellFormed = false := by decide
theorem test_wellFormed_accepts_short_3_and_18 :
    (Instr.lz77Short 3 0#8).wellFormed = true ∧ (Instr.lz77Short 18 0xFF#8).wellFormed = true := by decide

/-! ## Decoding: every row, its code written out from R92, R99 to R102 and R108 -/

theorem test_decodeNop : decode (.cmd 0x00000000#32) = .ok .nop := by decide
theorem test_decodeXfer : decode (.cmd 0x00000001#32) = .ok .xfer := by decide
theorem test_decodeBrCreate : decode (.cmd 0x00000010#32) = .ok .brCreate := by decide
theorem test_decodeBrReadBit : decode (.cmd 0x00000011#32) = .ok .brReadBit := by decide
theorem test_decodeBrReadBits : decode (.cmd 0x00000012#32) = .ok .brReadBits := by decide
theorem test_decodeBrReadByte : decode (.cmd 0x00000013#32) = .ok .brReadByte := by decide
theorem test_decodeBrSkipBits : decode (.cmd 0x00000014#32) = .ok .brSkipBits := by decide
theorem test_decodeBrAlign : decode (.cmd 0x00000015#32) = .ok .brAlign := by decide
theorem test_decodeBrSeek : decode (.cmd 0x00000016#32) = .ok .brSeek := by decide
theorem test_decodeBwCreate : decode (.cmd 0x00000018#32) = .ok .bwCreate := by decide
theorem test_decodeBwWriteBit : decode (.cmd 0x00000019#32) = .ok .bwWriteBit := by decide
theorem test_decodeBwWriteBits : decode (.cmd 0x0000001A#32) = .ok .bwWriteBits := by decide
theorem test_decodeBwFlush : decode (.cmd 0x0000001C#32) = .ok .bwFlush := by decide
theorem test_decodeCrcCalc : decode (.cmd 0x00000020#32) = .ok .crcCalc := by decide
theorem test_decodeCrcVerify : decode (.cmd 0x00000021#32) = .ok .crcVerify := by decide
theorem test_decodeCrcCreate : decode (.cmd 0x00000022#32) = .ok .crcCreate := by decide
theorem test_decodeCrcUpdate : decode (.cmd 0x00000023#32) = .ok .crcUpdate := by decide
theorem test_decodeCrcFinalize : decode (.cmd 0x00000024#32) = .ok .crcFinalize := by decide
theorem test_decodeCrcDestroy : decode (.cmd 0x00000025#32) = .ok .crcDestroy := by decide
theorem test_decodeHuffCompress : decode (.cmd 0x00000030#32) = .ok .huffCompress := by decide
theorem test_decodeHuffDecompress : decode (.cmd 0x00000031#32) = .ok .huffDecompress := by decide
theorem test_decodeLz77Compress : decode (.cmd 0x00000040#32) = .ok .lz77Compress := by decide
theorem test_decodeLz77Decompress : decode (.cmd 0x00000041#32) = .ok .lz77Decompress := by decide
theorem test_decodeBwtFwd : decode (.cmd 0x00000050#32) = .ok .bwtFwd := by decide
theorem test_decodeBwtInv : decode (.cmd 0x00000051#32) = .ok .bwtInv := by decide
theorem test_decodeMtfEnc : decode (.cmd 0x00000052#32) = .ok .mtfEnc := by decide
theorem test_decodeMtfDec : decode (.cmd 0x00000053#32) = .ok .mtfDec := by decide
theorem test_decodeBmhCompress : decode (.cmd 0x00000054#32) = .ok .bmhCompress := by decide
theorem test_decodeBmhDecompress : decode (.cmd 0x00000055#32) = .ok .bmhDecompress := by decide
theorem test_decodeRcCompress : decode (.cmd 0x00000060#32) = .ok .rcCompress := by decide
theorem test_decodeRcDecompress : decode (.cmd 0x00000061#32) = .ok .rcDecompress := by decide
theorem test_decodeHcCompress : decode (.cmd 0x00000070#32) = .ok .hcCompress := by decide
theorem test_decodeHcDecompress : decode (.cmd 0x00000071#32) = .ok .hcDecompress := by decide
theorem test_decodeLz77Lit : decode (.token [0b01100001#8]) = .ok (.lz77Lit 0x61#8) := by decide
theorem test_decodeLz77Esc : decode (.token [0b10000000#8, 0b11111111#8]) = .ok (.lz77Esc 0xFF#8) := by decide
theorem test_decodeLz77Short : decode (.token [0b11000011#8, 0b00000101#8]) = .ok (.lz77Short 6 0x05#8) := by decide
theorem test_decodeLz77Long :
    decode (.token [0b11111111#8, 0b00010010#8, 0b00010000#8, 0b00000001#8]) = .ok (.lz77Long 0x12#8 0x1001#16) := by decide
theorem test_decodeHcTagHuff : decode (.tag [0xAD#8, 0xEF#8, 0x01#8, 0x01#8]) = .ok .hcTagHuff := by decide
theorem test_decodeHcTagBmh : decode (.tag [0xAD#8, 0xEF#8, 0x01#8, 0x02#8]) = .ok .hcTagBmh := by decide
theorem test_decodeHcTagRc : decode (.tag [0xAD#8, 0xEF#8, 0x01#8, 0x03#8]) = .ok .hcTagRc := by decide

theorem test_decode_refuses_rsv : decode (.cmd 0x00000100#32) = .error .reservedBits := by decide
theorem test_decode_refuses_unassigned :
    [0x02, 0x0F, 0x17, 0x1B, 0x1D, 0x1F, 0x26, 0x2F, 0x32, 0x3F, 0x42, 0x4F, 0x56, 0x5F, 0x62, 0x6F, 0x72, 0xFF].all
      (fun w => decide (decode (.cmd (BitVec.ofNat 32 w)) = .error .unknownOpcode)) = true := by decide +kernel
theorem test_decode_refuses_reserved_token : decode (.token [0x90#8, 0x01#8]) = .error .reservedToken := by decide
theorem test_decode_refuses_cut_token : decode (.token [0xFF#8, 0x04#8, 0x00#8]) = .error .cutShort := by decide
theorem test_decode_refuses_stage : decode (.tag [0xAD#8, 0xEF#8, 0x01#8, 0x07#8]) = .error .unknownStage := by decide
theorem test_decode_refuses_magic : decode (.tag [0xAD#8, 0xEE#8, 0x01#8, 0x01#8]) = .error .badMagic := by decide

/-- The opcode table's numbering: a command word, a token with its first byte lowest, a tag as its big-endian word (R108). -/
theorem test_decodeTableWord :
    decodeTableWord 32 0x00000071 = some .hcDecompress ∧ decodeTableWord 8 0x61 = some (.lz77Lit 0x61#8) ∧
      decodeTableWord 16 0xC3 = some (.lz77Short 6 0#8) ∧ decodeTableWord 24 0x12FF = some (.lz77Long 0x12#8 0#16) ∧
      decodeTableWord 32 0x341212FF = some (.lz77Long 0x12#8 0x1234#16) ∧
      decodeTableWord 32 0xADEF0103 = some .hcTagRc ∧ decodeTableWord 32 0x100 = none := by decide

/-! ## Small states -/

/-- After reset, the bytes given loaded and ILEN set (R110 `LOAD`). -/
def loaded (bs : List Byte) : State := { State.reset with ibuf := Memory.writeBytes [] 0 bs, ilen := BitVec.ofNat 32 bs.length }

/-- A pending command with its operands. -/
def pending (s : State) (i : Instr) (a0 a1 : Word) : State :=
  { s with cmd := ((opcodeOf i).getD 0xFF#8).setWidth 32, status := 1, arg0 := a0, arg1 := a1 }

/-- An earlier output in OBUF. -/
def withOutput (s : State) (y : List Byte) : State :=
  { s with obuf := Memory.writeBytes [] 0 y, olen := BitVec.ofNat 32 y.length }

/-- A reader at a bit position over the loaded input. -/
def readerOn (bs : List Byte) (kind : Bool) (p : Nat) : State :=
  { loaded bs with
    brCtrl := brCtrlWord true kind, brLen := BitVec.ofNat 32 bs.length, brBits := BitVec.ofNat 32 p,
    brBytes := BitVec.ofNat 32 ((p + 7) / 8) }

/-- A writer with pending bits after an output. -/
def writerOn (y : List Byte) (n : Nat) (acc : Byte) : State := { withOutput State.reset y with bwCtrl := bwCtrlWord n acc }

/-- Small capacities, as the overflow vectors use. -/
def withCaps (s : State) (i o : Nat) : State := { s with caps := { ibufCap := i, obufCap := o } }

/-- A field of the state a step answers. -/
def after (r : Result) (f : State → α) : Option α :=
  match r with
  | .next t => some (f t)
  | _ => none

/-- The output, RES0, RES1, STATUS and ERRCODE a step leaves. -/
def outcome (r : Result) : Option (List Host.Cell × Word × Word × Word × Word) :=
  after r fun t => (t.obuf, t.res0, t.res1, t.status, t.errcode)

/-- The result of delivering an output. -/
def delivered (y : List Byte) (r1 : Word) : Option (List Host.Cell × Word × Word × Word × Word) :=
  some (Memory.writeBytes [] 0 y, BitVec.ofNat 32 y.length, r1, 0x2#32, 0#32)

/-- The result of failing with a code. -/
def failed (k : Word) : Option (List Host.Cell × Word × Word × Word × Word) := some ([], 0#32, 0#32, 0x6#32, k)

/-- The registers of the reader, RES0, STATUS and ERRCODE. -/
def readerRow (r : Result) : Option (List Word) := after r fun t => [t.res0, t.brCtrl, t.brLen, t.brBits, t.brBytes, t.status, t.errcode]

/-- OBUF, OLEN, BW_CTRL, RES0 and ERRCODE. -/
def writerRow (r : Result) : Option (List Host.Cell × List Word) := after r fun t => (t.obuf, [t.olen, t.bwCtrl, t.res0, t.errcode])

/-- RES0, RES1, CRC_CTRL, CRC_ACC and ERRCODE. -/
def crcRow (r : Result) : Option (List Word) := after r fun t => [t.res0, t.res1, t.crcCtrl, t.crcAcc, t.errcode]

/-- "123456789". -/
def digits : List Byte := [0x31, 0x32, 0x33, 0x34, 0x35, 0x36, 0x37, 0x38, 0x39]
/-- "banana". -/
def banana : List Byte := [0x62, 0x61, 0x6E, 0x61, 0x6E, 0x61]
/-- "ABBCCCC". -/
def abbcccc : List Byte := [0x41, 0x42, 0x42, 0x43, 0x43, 0x43, 0x43]
/-- R198's example. -/
def abbccccHuff : List Byte :=
  [0x41, 0, 0, 0, 1, 0x42, 0, 0, 0, 2, 0x43, 0, 0, 0, 4, 0xFF, 0xFF, 0xFF, 0xFF, 0xFF, 0x17, 0xC0]
/-- R264's example. -/
def bananaBmh : List Byte :=
  [0, 0, 0, 0, 6, 3, 0, 0, 0, 1, 0x63, 0, 0, 0, 2, 0x6E, 0, 0, 0, 1, 0xFF, 0xFF, 0xFF, 0xFF, 0xFF, 0xE9, 0xC3]
/-- R314's example. -/
def aaaaHc : List Byte := [0xAD, 0xEF, 1, 1, 0x41, 0, 0, 0, 4, 0xFF, 0xFF, 0xFF, 0xFF, 0xFF, 0]

/-! ## One step of each instruction -/

/-- R131: after a failed command with ERRCODE 9, NOP leaves STATUS 2 and ERRCODE 0 (the write to CMD cleared them). -/
theorem test_nop :
    (after (step { hostAccess { State.reset with status := 0x6, errcode := 9 } (.writeReg 0 0) with schedule := [] })
      fun t => [t.status, t.errcode]) = some [0x2#32, 0#32] := by decide
/-- R132's example, its first bytes. -/
theorem test_xfer :
    (after (step (pending (withOutput (loaded [1, 2, 3, 4]) [0x41, 0x00, 0x04]) .xfer 0 0))
      fun t => ([t.res0, t.ilen, t.olen], t.ibuf)) = some ([3#32, 3#32, 3#32], [(0, 0x41), (1, 0x00), (2, 0x04), (3, 4)]) := by decide
/-- R132: an output longer than IBUF fails. -/
theorem test_xfer_too_long :
    (after (step (pending (withCaps (withOutput State.reset [1, 2]) 1 2) .xfer 0 0)) fun t => [t.errcode, t.ilen, t.olen]) =
      some [1#32, 0#32, 2#32] := by decide
/-- V7.8. -/
theorem test_brCreate : readerRow (step (pending (loaded [0xA5, 0x3C]) .brCreate 0xFFFFFFFF 0)) = some [0, 3, 2, 0, 0, 2, 0] := by decide
/-- V7.2. -/
theorem test_brReadBit : readerRow (step (pending (readerOn [0xA5, 0x3C] false 0) .brReadBit 0 0)) = some [1, 1, 2, 1, 1, 2, 0] := by decide
/-- V7.6. -/
theorem test_brReadBit_at_end :
    readerRow (step (pending (readerOn [0xA5, 0x3C] false 16) .brReadBit 0 0)) = some [0, 0, 2, 16, 2, 6, 6] := by decide
/-- V7.19. -/
theorem test_brReadBits :
    readerRow (step (pending (readerOn [0xDE, 0xAD, 0xBE, 0xEF, 0x01] false 3) .brReadBits 32 0)) =
      some [0xF56DF778, 1, 5, 35, 5, 2, 0] := by decide
/-- V7.15. -/
theorem test_brReadBits_33 :
    readerRow (step (pending (readerOn [0xA5, 0x3C] false 0) .brReadBits 33 0)) = some [0, 1, 2, 0, 0, 6, 1] := by decide
/-- V7.4. -/
theorem test_brReadByte :
    readerRow (step (pending (readerOn [0xA5, 0x3C] false 4) .brReadByte 3 0)) = some [0x53, 1, 2, 12, 2, 2, 0] := by decide
/-- V7.5. -/
theorem test_brSkipBits : readerRow (step (pending (readerOn [0xA5, 0x3C] false 12) .brSkipBits 4 0)) = some [0, 1, 2, 16, 2, 2, 0] := by decide
/-- V7.20. -/
theorem test_brSkipBits_no_wrap :
    readerRow (step (pending (readerOn [0xDE, 0xAD, 0xBE, 0xEF, 0x01] false 35) .brSkipBits 0xFFFFFFFF 0)) =
      some [0, 0, 5, 35, 5, 6, 6] := by decide
/-- R148's example. -/
theorem test_brAlign : readerRow (step (pending (readerOn [0xA5, 0x3C] false 13) .brAlign 0 0)) = some [0, 1, 2, 16, 2, 2, 0] := by decide
/-- V7.9. -/
theorem test_brSeek : readerRow (step (pending (readerOn [0xA5, 0x3C] true 16) .brSeek 9 0)) = some [0, 3, 2, 9, 2, 2, 0] := by decide
/-- V7.13. -/
theorem test_brSeek_beyond : readerRow (step (pending (readerOn [0xA5, 0x3C] true 16) .brSeek 17 0)) = some [0, 2, 2, 16, 2, 6, 6] := by decide
/-- V7.30, over an earlier output and writer. -/
theorem test_bwCreate : writerRow (step (pending (writerOn [1, 2] 3 0xA0) .bwCreate 0 0)) = some ([], [0, 1, 0, 0]) := by decide
/-- V7.31, the third write. -/
theorem test_bwWriteBit : writerRow (step (pending (writerOn [] 2 0x80) .bwWriteBit 1 0)) = some ([], [0, 0x00A00301, 3, 0]) := by decide
/-- V7.32. -/
theorem test_bwWriteBits :
    writerRow (step (pending (writerOn [] 3 0xA0) .bwWriteBits 13 0x053C)) = some ([(0, 0xA5), (1, 0x3C)], [2, 1, 0x10, 0]) := by decide
/-- V7.33. -/
theorem test_bwWriteBits_high_bits_ignored :
    writerRow (step (pending (writerOn [0xA5, 0x3C] 0 0) .bwWriteBits 5 0xFFFFFFF6)) =
      some ([(0, 0xA5), (1, 0x3C)], [2, 0x00B00501, 0x15, 0]) := by decide
/-- R155's example. -/
theorem test_bwFlush : writerRow (step (pending (writerOn [] 3 0xA0) .bwFlush 0 0)) = some ([(0, 0xA0)], [1, 1, 8, 0]) := by decide
/-- V7.42. -/
theorem test_bwFlush_full :
    writerRow (step (pending (withCaps (writerOn [0xFF, 0xFF] 1 0x80) 2 2) .bwFlush 0 0)) =
      some ([(0, 0xFF), (1, 0xFF)], [2, 0, 0, 8]) := by decide
/-- V2.20. -/
theorem test_crcCalc : crcRow (step (pending (loaded digits) .crcCalc 0 0)) = some [0xCBF43926, 0, 0, 0, 0] := by decide +kernel
/-- V2.32. -/
theorem test_crcCalc_obuf :
    crcRow (step (pending (withOutput State.reset [0x41, 0x41, 0x41, 0x41]) .crcCalc 1 0)) = some [0x9B0D08F1, 0, 0, 0, 0] := by decide +kernel
/-- V2.21. -/
theorem test_crcVerify :
    crcRow (step (pending (loaded digits) .crcVerify 0 0xCBF43926)) = some [1, 0xCBF43926, 0, 0, 0] := by decide +kernel
/-- V2.22. -/
theorem test_crcVerify_mismatch : crcRow (step (pending (loaded digits) .crcVerify 0 0)) = some [0, 0xCBF43926, 0, 0, 0] := by decide +kernel
/-- V2.25. -/
theorem test_crcCreate : crcRow (step (pending State.reset .crcCreate 0 0)) = some [0, 0, 1, 0xFFFFFFFF, 0] := by decide
/-- R176's example, the second update. -/
theorem test_crcUpdate :
    crcRow (step (pending { loaded [0x35, 0x36, 0x37, 0x38, 0x39] with crcCtrl := 1, crcAcc := 0x641C1F5C } .crcUpdate 0 0)) =
      some [5, 0, 1, 0x340BC6D9, 0] := by decide +kernel
/-- R177's example. -/
theorem test_crcFinalize :
    crcRow (step (pending { State.reset with crcCtrl := 1, crcAcc := 0x340BC6D9 } .crcFinalize 0 0)) =
      some [0xCBF43926, 0, 2, 0x340BC6D9, 0] := by decide
/-- V2.29. -/
theorem test_crcDestroy :
    crcRow (step (pending { State.reset with crcCtrl := 2, crcAcc := 0xFFFFFFFF } .crcDestroy 0 0)) = some [0, 0, 0, 0, 0] := by decide
/-- V2.30. -/
theorem test_crcDestroy_none : crcRow (step (pending State.reset .crcDestroy 0 0)) = some [0, 0, 0, 0, 1] := by decide
/-- R198's example. -/
theorem test_huffCompress : outcome (step (pending (loaded abbcccc) .huffCompress 0 0)) = delivered abbccccHuff 0 := by decide +kernel
/-- R201's example. -/
theorem test_huffDecompress : outcome (step (pending (loaded abbccccHuff) .huffDecompress 0 0)) = delivered abbcccc 0 := by decide +kernel
/-- V3.18. -/
theorem test_huffDecompress_duplicate :
    outcome (step (pending (loaded [0x41, 0, 0, 0, 1, 0x41, 0, 0, 0, 1, 0xFF, 0xFF, 0xFF, 0xFF, 0xFF, 0]) .huffDecompress 0 0)) =
      failed 9 := by decide +kernel
/-- R225's example. -/
theorem test_lz77Compress :
    outcome (step (pending (loaded [0x61, 0x62, 0x63, 0x61, 0x62, 0x63, 0x61, 0x62, 0x63]) .lz77Compress 0 0)) =
      delivered [1, 0, 0, 0, 9, 0x61, 0x62, 0x63, 0xC3, 0x03] 0 := by decide +kernel
/-- V4.9. -/
theorem test_lz77Compress_escapes :
    outcome (step (pending (loaded [0x80, 0xFF, 0x7F]) .lz77Compress 0 0)) =
      delivered [1, 0, 0, 0, 3, 0x80, 0x80, 0x80, 0xFF, 0x7F] 0 := by decide +kernel
/-- R229's example. -/
theorem test_lz77Decompress :
    outcome (step (pending (loaded [1, 0, 0, 0, 8, 0x61, 0xC4, 0x01]) .lz77Decompress 0 0)) =
      delivered [0x61, 0x61, 0x61, 0x61, 0x61, 0x61, 0x61, 0x61] 0 := by decide +kernel
/-- V4.33: the match would exceed the declared size. -/
theorem test_lz77Decompress_mismatch :
    outcome (step (pending (loaded [1, 0, 0, 0, 3, 0x61, 0xC1, 0x01]) .lz77Decompress 0 0)) = failed 10 := by decide +kernel
/-- R253's example. -/
theorem test_bwtFwd :
    outcome (step (pending (loaded banana) .bwtFwd 0 0)) = delivered [0x6E, 0x6E, 0x62, 0x61, 0x61, 0x61] 3 := by decide +kernel
/-- V5.7, periodic: equal rotations by index. -/
theorem test_bwtFwd_periodic :
    outcome (step (pending (loaded [0xFF, 0, 0xFF, 0]) .bwtFwd 0 0)) = delivered [0xFF, 0xFF, 0, 0] 2 := by decide +kernel
/-- R256's example. -/
theorem test_bwtInv :
    outcome (step (pending (loaded [0x6E, 0x6E, 0x62, 0x61, 0x61, 0x61]) .bwtInv 3 0)) = delivered banana 0 := by decide +kernel
/-- V5.9's remark: ARG0 = ILEN is DecompressionFailed. -/
theorem test_bwtInv_index :
    outcome (step (pending (loaded [0x6E, 0x6E, 0x62, 0x61, 0x61, 0x61]) .bwtInv 6 0)) = failed 9 := by decide +kernel
/-- R259's example. -/
theorem test_mtfEnc :
    outcome (step (pending (loaded [0x6E, 0x6E, 0x62, 0x61, 0x61, 0x61]) .mtfEnc 0 0)) =
      delivered [0x6E, 0x00, 0x63, 0x63, 0x00, 0x00] 0 := by decide +kernel
/-- R261's example. -/
theorem test_mtfDec :
    outcome (step (pending (loaded [0x6E, 0x00, 0x63, 0x63, 0x00, 0x00]) .mtfDec 0 0)) =
      delivered [0x6E, 0x6E, 0x62, 0x61, 0x61, 0x61] 0 := by decide +kernel
/-- R264's example. -/
theorem test_bmhCompress : outcome (step (pending (loaded banana) .bmhCompress 0 0)) = delivered bananaBmh 0 := by decide +kernel
/-- R266's example. -/
theorem test_bmhDecompress : outcome (step (pending (loaded bananaBmh) .bmhDecompress 0 0)) = delivered banana 0 := by decide +kernel
/-- V5.31: the primary index is not below the length. -/
theorem test_bmhDecompress_index :
    outcome (step (pending (loaded [0, 0, 0, 0, 3, 1, 0, 0, 0, 1, 0x61, 0, 0, 0, 1, 0xFF, 0xFF, 0xFF, 0xFF, 0xFF, 0xE2])
      .bmhDecompress 0 0)) = failed 9 := by decide +kernel
/-- R290's example. -/
theorem test_rcCompress :
    outcome (step (pending (loaded [0x61]) .rcCompress 0 0)) = delivered [0, 0, 0, 1, 0x00, 0x60, 0xFF, 0xFC, 0x00] 0 := by decide +kernel
/-- V6.2: two bytes. -/
theorem test_rcCompress_two :
    outcome (step (pending (loaded [0x61, 0x62]) .rcCompress 0 0)) =
      delivered [0, 0, 0, 2, 0x00, 0x61, 0x61, 0xFC, 0x00, 0x00] 0 := by decide +kernel
/-- R293's example. -/
theorem test_rcDecompress :
    outcome (step (pending (loaded [0, 0, 0, 1, 0x00, 0x60, 0xFF, 0xFC, 0x00]) .rcDecompress 0 0)) = delivered [0x61] 0 := by decide +kernel
/-- V6.18: the last coder byte is missing. -/
theorem test_rcDecompress_truncated :
    outcome (step (pending (loaded [0, 0, 0, 1, 0, 0, 0, 0, 0]) .rcDecompress 0 0)) = failed 6 := by decide +kernel
/-- R314's example. -/
theorem test_hcCompress : outcome (step (pending (loaded [0x41, 0x41, 0x41, 0x41]) .hcCompress 0 0)) = delivered aaaaHc 1 := by decide +kernel
/-- R312's example: ten bytes with three equal pairs are not stage 1. -/
theorem test_hcCompress_threshold : stageOf [0, 0, 0, 0, 1, 2, 3, 4, 5, 6] = .rc ∧ stageOf banana = .bmh := by decide +kernel
/-- R317's first example. -/
theorem test_hcDecompress : outcome (step (pending (loaded aaaaHc) .hcDecompress 0 0)) = delivered [0x41, 0x41, 0x41, 0x41] 1 := by decide +kernel
/-- R317's last example. -/
theorem test_hcDecompress_stage :
    outcome (step (pending (loaded [0xAD, 0xEF, 0x01, 0x07, 0x00]) .hcDecompress 0 0)) = failed 7 := by decide +kernel

/-- A replay that has produced `out`, newest byte first. -/
def replaying (stream : List Byte) (declared pos : Nat) (outRev : List Byte) : State :=
  { pending (loaded stream) .lz77Decompress 0 0 with fetch := .lzToken, lz := { declared := declared, pos := pos, outRev := outRev } }

/-- R99. -/
theorem test_lz77Lit :
    (after (step (replaying [1, 0, 0, 0, 8, 0x61, 0xC4, 0x01] 8 5 [])) fun t => t.lz) = some { declared := 8, pos := 6, outRev := [0x61] } := by
  decide +kernel
/-- R100, V4.30: ESC of a byte below 0x80. -/
theorem test_lz77Esc :
    (after (step (replaying [1, 0, 0, 0, 2, 0x80, 0x41, 0x80, 0x42] 2 7 [0x41])) fun t => t.lz) =
      some { declared := 2, pos := 9, outRev := [0x42, 0x41] } := by decide +kernel
/-- R101, R228: the overlapping copy. -/
theorem test_lz77Short :
    (after (step (replaying [1, 0, 0, 0, 5, 0x61, 0x62, 0xC0, 0x02] 5 7 [0x62, 0x61])) fun t => t.lz) =
      some { declared := 5, pos := 9, outRev := [0x61, 0x62, 0x61, 0x62, 0x61] } := by decide +kernel
/-- R102, V4.27: LONG with a small offset; then V4.32, length 19. -/
theorem test_lz77Long :
    (after (step (replaying [1, 0, 0, 0, 4, 0x61, 0xFF, 0x03, 0x00, 0x01] 4 6 [0x61])) fun t => t.lz) =
      some { declared := 4, pos := 10, outRev := [0x61, 0x61, 0x61, 0x61] } ∧
    outcome (step (replaying [1, 0, 0, 0, 0x13, 0x61, 0xFF, 0x13, 0x00, 0x01] 0x13 6 [0x61])) = failed 9 := by decide +kernel

/-- A Hardcore stream with its tag to be read. -/
def tagged (st : Byte) (payload : List Byte) : State :=
  { pending (loaded ([0xAD, 0xEF, 0x01, st] ++ payload)) .hcDecompress 0 0 with fetch := .hcTag }

/-- R315, stage 1 on R198's stream. -/
theorem test_hcTagHuff : outcome (step (tagged 1 abbccccHuff)) = delivered abbcccc 1 := by decide +kernel
/-- R315, stage 2 on R264's stream. -/
theorem test_hcTagBmh : outcome (step (tagged 2 bananaBmh)) = delivered banana 2 := by decide +kernel
/-- R315, stage 3 on R290's stream. -/
theorem test_hcTagRc : outcome (step (tagged 3 [0, 0, 0, 1, 0x00, 0x60, 0xFF, 0xFC, 0x00])) = delivered [0x61] 3 := by decide +kernel

/-! ## The step around the commands -/

/-- A row placed after reset runs as the next step. -/
theorem test_withFetchWord :
    (after (step (State.reset.withFetchWord 32 0x22)) fun t => t.crcCtrl) = some 1#32 ∧
      (after (step (State.reset.withFetchWord 16 0x4180)) fun t => t.lz.outRev) = some [0x41#8] := by decide +kernel
/-- R93: an illegal word keeps the output and the writer. -/
theorem test_illegal_word :
    (after (step { writerOn [7] 3 0xA0 with cmd := 0x130#32, status := 1 }) fun t => [t.errcode, t.status, t.olen, t.bwCtrl]) =
      some [1#32, 0x6#32, 1#32, 0x00A00301#32] := by decide
/-- R69, U1: an input with an unwritten byte is refused. -/
theorem test_unwritten_refused :
    step (pending { loaded [1] with ilen := 2 } .mtfEnc 0 0) = .refused .unwrittenInput := rfl
/-- R69, U1, R141: so is a read of a written bit where a later byte of the source is unwritten. -/
theorem test_unwritten_source_refused :
    step (pending { readerOn [1, 2] false 0 with ibuf := [(0, 1)] } .brReadBit 0 0) = .refused .unwrittenInput := rfl
/-- R130 step 4. -/
theorem test_empty_input : outcome (step (pending (writerOn [7] 3 0xA0) .mtfEnc 0 0)) = failed 1 := by decide
/-- R368: a write while busy. -/
theorem test_busy_write :
    (fun t : State => [t.arg0, t.status]) (hostAccess (pending State.reset .nop 5 0) (.writeReg 3 9)) = [5#32, 0x9#32] := by decide
/-- R370. -/
theorem test_input_write_invalidates :
    (fun t : State => [t.brCtrl, t.brBits]) (hostAccess (readerOn [0xA5] true 3) (.writeIbuf 0 0xA5)) = [2#32, 3#32] := by decide
/-- R360. -/
theorem test_reset_while_busy :
    (fun t : State => [t.status, t.cmd, t.ident]) (hostAccess (pending State.reset .nop 5 0) .reset) = [0#32, 0#32, 0x46434507#32] := by decide
/-- V1-style script: the reads of a whole LOAD, command, WAIT and EXPECT (R109, R110). -/
theorem test_script :
    ((Script.after State.reset (Script.load [0x61] ++ Script.cmd .mtfEnc ++ Script.readOutput 1)).map fun t => t.hostReads) =
      some [0x61#32, 1#32, 0x2#32] := by decide +kernel

/-! ## Witnesses: for each statement with hypotheses, a state and operands that meet them, at the boundaries of its clauses -/

theorem witness_DecodeInvertsEncode :
    Instr.wellFormed .nop = true ∧ (Instr.lz77Lit 0x7F).wellFormed = true ∧ (Instr.lz77Esc 0xFF).wellFormed = true ∧
      (Instr.lz77Short 3 0).wellFormed = true ∧ (Instr.lz77Short 18 0xFF).wellFormed = true ∧
      (Instr.lz77Long 0xFF 0xFFFF).wellFormed = true ∧ Instr.wellFormed .hcTagRc = true := by decide
theorem witness_CommandWordsAreUnique : decodeCommand 0x71 = .ok .hcDecompress := by decide
theorem witness_TokenBytesReadBack :
    decodeToken [0xCF, 0x01, 0x61] = .ok (.lz77Short 18 1, [0x61]) ∧
      decodeToken [0xFF, 0x12, 0x10, 0x00] = .ok (.lz77Long 0x12 0x1000, []) := by decide
theorem witness_ReservedTokenBytesFail :
    [0x81#8, 0xBF#8, 0xD0#8, 0xFE#8].all (fun t : Byte =>
      decide ((0x81 ≤ t.toNat ∧ t.toNat ≤ 0xBF) ∨ (0xD0 ≤ t.toNat ∧ t.toNat ≤ 0xFE))) = true := by decide

/-- A host turn; a command, with and without a schedule; an idle engine, with and without. -/
theorem witness_StepTakesTheFirstTurn :
    ({ State.reset with schedule := [.host .reset] } : State).schedule = [.host .reset] ∧
    ((pending State.reset .nop 0 0).busy = true ∧ (pending State.reset .nop 0 0).fetch = .command ∧
      decodeCommand (pending State.reset .nop 0 0).cmd = .ok .nop ∧ (pending State.reset .nop 0 0).schedule = []) ∧
    (let s : State := { pending State.reset .nop 0 0 with schedule := [.engine] }
     s.busy = true ∧ s.fetch = .command ∧ decodeCommand s.cmd = .ok .nop ∧ s.schedule = [.engine]) ∧
    (State.reset.busy = false ∧ State.reset.schedule = []) ∧
    (let s : State := { State.reset with schedule := [.engine] }
     s.busy = false ∧ s.schedule = [.engine]) := by decide
theorem witness_StepRunsTheStreamRow_token :
    let s := replaying [1, 0, 0, 0, 8, 0x61, 0xC4, 0x01] 8 6 [0x61]
    let x : List Byte := [1, 0, 0, 0, 8, 0x61, 0xC4, 0x01]
    s.busy = true ∧ s.schedule = [] ∧ InputIs s x ∧ x ≠ [] ∧ s.fetch = .lzToken ∧
      decodeToken (x.drop s.lz.pos) = .ok (.lz77Short 7 1, []) := by
  refine ⟨?_, ?_, ⟨?_, ?_⟩, ?_, ?_, ?_⟩ <;> decide +kernel
theorem witness_StepRunsTheStreamRow_tag :
    let s := tagged 3 [0]
    let x : List Byte := [0xAD, 0xEF, 1, 3, 0]
    s.busy = true ∧ s.schedule = [] ∧ InputIs s x ∧ x ≠ [] ∧ s.fetch = .hcTag ∧ 5 ≤ x.length ∧ decodeTag x = .ok .hcTagRc := by
  refine ⟨?_, ?_, ⟨?_, ?_⟩, ?_, ?_, ?_, ?_⟩ <;> decide +kernel
/-- RSV 1 with a legal opcode; the least and the greatest illegal opcode. -/
theorem witness_IllegalWordsChangeNothingElse :
    [0x100#32, 0x02#32, 0xFF#32].all (fun w =>
      let s : State := { State.reset with cmd := w, status := 1 }
      decide (s.busy = true ∧ s.fetch = .command ∧ s.schedule = [] ∧
        (s.cmd.toNat / 2 ^ 8 ≠ 0 ∨ s.cmd.toNat % 2 ^ 8 ∉ legalOpcodes))) = true := by decide +kernel

theorem witness_CmdWriteStartsACommand : State.reset.busy = false ∧ (pending State.reset .nop 0 0).busy = true := by decide
theorem witness_BusyWritesAreDropped :
    (pending State.reset .nop 0 0).busy = true ∧ [0, 3, 4, 7].all isRw = true ∧ 0 < (pending State.reset .nop 0 0).caps.ibufCap ∧
      65535 < (pending State.reset .nop 0 0).caps.ibufCap ∧ isRw 1 = false ∧ isRw 17 = false := by decide
theorem witness_HazardFlagIsSticky :
    let s : State := { pending State.reset .nop 0 0 with status := 0x9 }
    step s = .next (completeOk s 0 0) ∧ s.haz = true ∧ s.schedule.head? ≠ some (.host .reset) := ⟨rfl, by decide, by decide⟩
theorem witness_RegisterPortRules : 16 < 17 ∧ State.reset.busy = false := by decide
theorem witness_HostReadsChangeNothing :
    isHostRead (.readReg 1) = true ∧ isHostRead (.readIbuf 0) = true ∧ isHostRead (.readObuf 65536) = true := by decide
/-- Idle with a written input byte and an output; busy with a word that is not XFER's. -/
theorem witness_HostReadsReturnTheState :
    (let s := withOutput (loaded [1, 2]) [3, 4]
     s.busy = false ∧ 1 < s.caps.ibufCap ∧ s.ibuf.read 1 = some 2 ∧ OutputForm s ∧ OutputIs s [3, 4] ∧ [3#8, 4#8][1]? = some 4#8) ∧
    (pending State.reset .nop 0 0).cmd ≠ 0x00000001#32 := by
  refine ⟨⟨?_, ?_, ?_, ⟨?_, ?_⟩, ⟨?_, ?_⟩, ?_⟩, ?_⟩ <;> decide +kernel
theorem witness_InputWritesInvalidateTheReader :
    let s := readerOn [0xA5] true 3
    s.busy = false ∧ 0 < s.caps.ibufCap ∧ 65535 < s.caps.ibufCap ∧ s.caps.ibufCap ≤ 65536 := by decide

/-- The invariant of a state with a pending NOP, an input, an output, a reader, a writer and a CRC context, and its step. -/
theorem witness_StepKeepsTheInvariant :
    let s : State :=
      { pending (readerOn [0xA5, 0x3C] true 9) .nop 0 0 with
        obuf := [(0, 0xFF)], olen := 1, bwCtrl := 0x00A00301, crcCtrl := 1, crcAcc := 0xFFFFFFFF }
    s.Inv ∧ step s = .next (completeOk s 0 0) := by
  refine ⟨⟨?_, ?_, ?_, ⟨?_, ?_⟩, ?_, ?_, ?_, ?_, ?_, ?_, ?_, fun _ => ⟨?_, ?_⟩, ?_, ?_, ?_⟩, rfl⟩
  case refine_10 => exact .inl (by decide)
  all_goals decide +kernel

/-- A succeeding and a failing command, for the statements about every instruction's next state. -/
theorem witness_EngineNeverWritesOperands :
    exec .nop State.reset = .next (completeOk State.reset 0 0) ∧
      exec .crcDestroy State.reset = .next (completeErr State.reset .invalidParameter) := ⟨rfl, rfl⟩
theorem witness_OnlyCrcCommandsTouchTheCrcContext :
    isCrcStreamCommand .nop = false ∧ isCrcStreamCommand .crcCalc = false ∧
      exec .nop State.reset = .next (completeOk State.reset 0 0) ∧ HostAction.readReg 0 ≠ .reset := ⟨rfl, rfl, rfl, by decide⟩
theorem witness_ContextsSurviveOtherCommands :
    isCommand .nop = true ∧ Instr.nop ≠ .xfer ∧ isReaderCommand .nop = false ∧ isTransform .nop = false ∧
      isWriterCommand .nop = false ∧ exec .nop State.reset = .next (completeOk State.reset 0 0) ∧
      isCommand .mtfEnc = true ∧ isTransform .mtfEnc = true ∧
      exec .mtfEnc State.reset = .next (completeErr (takeOver State.reset) .invalidParameter) :=
  ⟨rfl, by decide, rfl, rfl, rfl, rfl, rfl, rfl, rfl⟩
theorem witness_CommandsCompleteInOneTurn :
    isCommand .hcDecompress = true ∧
      exec .hcDecompress State.reset = .next (completeErr (takeOver State.reset) .invalidParameter) := ⟨rfl, rfl⟩
theorem witness_ErrorKindsFollowTheMatrix :
    isCommand .brReadBit = true ∧ exec .brReadBit State.reset = .next (completeErr State.reset .invalidParameter) := ⟨rfl, rfl⟩
/-- A failing transform; a reader that ran out of bits and none; a writer that overflowed and none; a failing CRC command. -/
theorem witness_FailingCommandsLeaveNoOutput :
    (after (exec .mtfEnc State.reset) (·.err) = some true ∧ isTransform .mtfEnc = true) ∧
    (after (exec .brReadBit (readerOn [0xA5] true 8)) (fun t => (t.err, t.errcode)) = some (true, 6) ∧ isReaderCommand .brReadBit = true) ∧
    after (exec .brReadBit State.reset) (fun t => (t.err, t.errcode)) = some (true, 1) ∧
    (after (exec .bwFlush (withCaps (writerOn [0xFF] 1 0x80) 1 1)) (fun t => (t.err, t.errcode)) = some (true, 8) ∧
      isWriterCommand .bwFlush = true) ∧
    after (exec .bwFlush State.reset) (fun t => (t.err, t.errcode)) = some (true, 1) ∧
    (after (exec .crcDestroy State.reset) (·.err) = some true ∧ isTransform .crcDestroy = false ∧
      isReaderCommand .crcDestroy = false ∧ isWriterCommand .crcDestroy = false) := by decide
theorem witness_EveryInstructionRunsOnWrittenData : AllWritten (withOutput (readerOn [0xA5, 0x3C] true 3) [7]) := by
  refine ⟨?_, ?_, ?_⟩ <;> decide +kernel
theorem witness_UnwrittenInputIsRefused :
    let s : State := { loaded [1] with ilen := 2 }
    isTransform .mtfEnc = true ∧ s.arg0Bit = false ∧ s.ilen.toNat ≤ s.caps.ibufCap ∧
      ∃ a, a < s.ilen.toNat ∧ s.ibuf.read a = none := ⟨rfl, rfl, by decide, 1, by decide, rfl⟩
theorem witness_UnwrittenInputIsRefused_reader :
    let s : State := { readerOn [1, 2] false 0 with ibuf := [(0, 1)] }
    s.brValid = true ∧ ∃ a, a < s.brLen.toNat ∧ s.ibuf.read a = none := ⟨rfl, 1, by decide, rfl⟩
theorem witness_FrameChecksComeFirst :
    isTransform .rcCompress = true ∧ State.reset.ilen = 0 ∧
      (let s : State := { State.reset with ilen := 65537 }
       s.caps.ibufCap < s.ilen.toNat ∧ s.arg0Bit = false) := by decide
/-- Two states with the same one-byte input and different contexts, outputs and results. -/
theorem witness_TransformsDependOnTheirInputOnly :
    let s := pending (loaded [0x61]) .mtfEnc 0 0
    let s' : State := { pending (withOutput (readerOn [0x61] true 3) [9]) .mtfEnc 0 0 with crcCtrl := 1, res0 := 5 }
    isTransform .mtfEnc = true ∧ s'.caps = s.caps ∧ s'.arg0 = s.arg0 ∧ s'.ilen = s.ilen ∧
      (∀ a, a < s.ilen.toNat → s'.ibuf.read a = s.ibuf.read a) ∧ (after (exec .mtfEnc s) (·.err) = some false) ∧
      after (exec .mtfEnc s') (·.err) = some false := by
  refine ⟨?_, ?_, ?_, ?_, ?_, ?_, ?_⟩ <;> decide +kernel

/-- An output that just fits IBUF, and one that is one byte longer. -/
theorem witness_XferMovesTheOutput :
    (let s := withCaps (withOutput State.reset [1, 2]) 2 2
     OutputIs s [1, 2] ∧ [1#8, 2#8].length ≤ s.caps.ibufCap) ∧
    (let s := withCaps (withOutput State.reset [1, 2]) 1 2
     s.caps.ibufCap < s.olen.toNat) := by
  refine ⟨⟨⟨?_, ?_⟩, ?_⟩, ?_⟩ <;> decide
theorem witness_BrCreateMakesAReader :
    State.reset.ilen.toNat ≤ State.reset.caps.ibufCap ∧ (withCaps (loaded [1, 2]) 2 2).ilen.toNat ≤ (withCaps (loaded [1, 2]) 2 2).caps.ibufCap := by
  decide
/-- The last bit, the last 32 bits, the last byte of a source. -/
theorem witness_ReadsReturnTheBitsAtTheCursor :
    (let s := readerOn [0xA5, 0x3C] false 15
     ReaderOver s [0xA5, 0x3C] ∧ s.brBits.toNat + 1 ≤ 8 * s.brLen.toNat) ∧
    (let s := pending (readerOn [0xDE, 0xAD, 0xBE, 0xEF, 0x01] false 8) .brReadBits 32 0
     ReaderOver s [0xDE, 0xAD, 0xBE, 0xEF, 0x01] ∧ 1 ≤ s.arg0.toNat ∧ s.arg0.toNat ≤ 32 ∧
       s.brBits.toNat + s.arg0.toNat ≤ 8 * s.brLen.toNat) ∧
    (let s := readerOn [0xA5, 0x3C] false 8
     ReaderOver s [0xA5, 0x3C] ∧ s.brBits.toNat + 8 ≤ 8 * s.brLen.toNat) := by
  refine ⟨⟨?_, ?_⟩, ⟨?_, ?_, ?_, ?_⟩, ?_, ?_⟩
  all_goals first | (refine ⟨?_, ?_, ?_, ?_, ?_⟩ <;> decide +kernel) | decide +kernel
/-- Skipping all that is left; aligning at the end; seeking to the end. -/
theorem witness_MovesSetTheCursor :
    (let s := pending (readerOn [0xA5, 0x3C] true 12) .brSkipBits 4 0
     s.caps.InRange ∧ s.brValid = true ∧ s.brLen.toNat ≤ s.caps.ibufCap ∧ s.brBits.toNat ≤ 8 * s.brLen.toNat ∧
       s.brBits.toNat + s.arg0.toNat ≤ 8 * s.brLen.toNat) ∧
    (let s := pending (readerOn [0xA5, 0x3C] true 16) .brSeek 16 0
     s.caps.InRange ∧ s.brValid = true ∧ s.brLen.toNat ≤ s.caps.ibufCap ∧ s.brBits.toNat ≤ 8 * s.brLen.toNat ∧
       s.brKind = true ∧ s.arg0.toNat ≤ 8 * s.brLen.toNat) := by decide +kernel
/-- No reader; at the end of input; counts 0 and 33; one bit too many; a buffer-backed seek; a seek one bit beyond. -/
theorem witness_ReaderFailures :
    State.reset.brValid = false ∧
    (let s := pending (readerOn [0xA5] true 8) .brReadBits 1 0
     s.brValid = true ∧ s.brBits.toNat ≤ 8 * s.brLen.toNat ∧ (∀ a, a < s.brLen.toNat → s.ibuf.read a ≠ none) ∧
       8 * s.brLen.toNat < s.brBits.toNat + 1 ∧
       1 ≤ s.arg0.toNat ∧ s.arg0.toNat ≤ 32 ∧ 8 * s.brLen.toNat < s.brBits.toNat + s.arg0.toNat ∧
       8 * s.brLen.toNat < s.brBits.toNat + 8) ∧
    (let s := pending (readerOn [0xA5] false 0) .brReadBits 0 0
     s.brValid = true ∧ s.brBits.toNat ≤ 8 * s.brLen.toNat ∧ (∀ a, a < s.brLen.toNat → s.ibuf.read a ≠ none) ∧ s.arg0.toNat < 1 ∧
       s.brKind = false) ∧
    (let s := pending (readerOn [0xA5] false 0) .brReadBits 33 0
     s.brValid = true ∧ s.brBits.toNat ≤ 8 * s.brLen.toNat ∧ (∀ a, a < s.brLen.toNat → s.ibuf.read a ≠ none) ∧ 32 < s.arg0.toNat ∧
       8 * s.brLen.toNat < s.brBits.toNat + s.arg0.toNat) ∧
    (let s := pending (readerOn [0xA5] true 0) .brSeek 9 0
     s.brValid = true ∧ s.brBits.toNat ≤ 8 * s.brLen.toNat ∧ s.brKind = true ∧ 8 * s.brLen.toNat < s.arg0.toNat) := by decide

/-- A writer whose stream is a byte and three bits; the last bit of a byte; 32 bits; a flush of pending bits into the last byte of OBUF, and
one with nothing pending on a full OBUF. -/
theorem witness_WritesAppendToTheStream :
    (let s := pending (writerOn [0xA5] 7 0xFE) .bwWriteBits 32 0
     WriterOver s [true, false, true, false, false, true, false, true, true, true, true, true, true, true, true] ∧
       ¬ (s.bwNbits = 7 ∧ s.olen.toNat = s.caps.obufCap) ∧ 1 ≤ s.arg0.toNat ∧ s.arg0.toNat ≤ 32 ∧
       s.olen.toNat + (s.bwNbits + s.arg0.toNat) / 8 ≤ s.caps.obufCap) ∧
    (let s := withCaps (writerOn [0xA5] 1 0x80) 1 2
     WriterOver s [true, false, true, false, false, true, false, true, true] ∧ s.olen.toNat < s.caps.obufCap) ∧
    (let s := withCaps (writerOn [0xA5] 0 0) 1 1
     WriterOver s [true, false, true, false, false, true, false, true] ∧ s.bwNbits = 0) := by
  refine ⟨⟨⟨?_, ?_, ⟨?_, ?_⟩, ⟨?_, ?_⟩, ?_⟩, ?_, ?_, ?_, ?_⟩, ⟨⟨?_, ?_, ⟨?_, ?_⟩, ⟨?_, ?_⟩, ?_⟩, ?_⟩,
    ⟨?_, ?_, ⟨?_, ?_⟩, ⟨?_, ?_⟩, ?_⟩, ?_⟩ <;> decide +kernel
/-- No writer; a full OBUF with seven and with one bit pending; counts 0 and 33; one byte too many. -/
theorem witness_WriterFailures :
    State.reset.bwValid = false ∧
    (let s := withCaps (writerOn [0xFF] 7 0xFE) 1 1
     s.bwValid = true ∧ s.bwNbits = 7 ∧ s.olen.toNat = s.caps.obufCap ∧ 0 < s.bwNbits) ∧
    (let s := pending (writerOn [] 0 0) .bwWriteBits 0 0
     s.bwValid = true ∧ s.arg0.toNat < 1) ∧
    (let s := pending (writerOn [] 0 0) .bwWriteBits 33 0
     s.bwValid = true ∧ 32 < s.arg0.toNat) ∧
    (let s := pending (withCaps (writerOn [0xFF] 0 0) 1 1) .bwWriteBits 8 0
     s.bwValid = true ∧ 1 ≤ s.arg0.toNat ∧ s.arg0.toNat ≤ 32 ∧
       s.caps.obufCap < s.olen.toNat + (s.bwNbits + s.arg0.toNat) / 8) := by decide

/-- A range in IBUF, the empty range, and a range in OBUF. -/
theorem witness_OneShotCrcReturnsTheChecksum :
    SourceIs (loaded [1, 2]) [1, 2] ∧ SourceIs State.reset [] ∧ SourceIs (pending (withOutput State.reset [3]) .crcCalc 1 0) [3] := by
  refine ⟨?_, ?_, ?_⟩
  · show InputIs _ _
    exact ⟨by decide, by decide⟩
  · show InputIs _ _
    exact ⟨by decide, by decide⟩
  · show Memory.readRange _ _ _ = _
    decide
theorem witness_CrcStreamCommandsComplete :
    let s : State := { loaded [1, 2] with crcCtrl := 1 }
    s.crcState = 1#2 ∧ s.crcState ≠ 0#2 ∧ SourceIs s [1, 2] := by
  refine ⟨by decide, by decide, ?_⟩
  show InputIs _ _
  exact ⟨by decide, by decide⟩
theorem witness_CrcContextErrors :
    State.reset.crcState ≠ 1#2 ∧ State.reset.crcState = 0#2 ∧ ({ State.reset with crcCtrl := 2 } : State).crcState ≠ 1#2 ∧
      SourceIs State.reset [] := by
  refine ⟨by decide, by decide, by decide, ?_⟩
  show InputIs _ _
  exact ⟨by decide, by decide⟩

theorem witness_EncodersDeliver_coders :
    abbcccc ≠ [] ∧ InputIs (loaded abbcccc) abbcccc ∧ (loaded abbcccc).caps.InRange ∧ huffCompress abbcccc = .ok abbccccHuff ∧
      abbccccHuff.length ≤ (loaded abbcccc).caps.obufCap ∧ bmhCompress banana = .ok bananaBmh := by
  refine ⟨?_, ⟨?_, ?_⟩, ?_, ?_, ?_, ?_⟩ <;> decide +kernel
/-- One byte, and an OBUF that the nine bytes of its range-coder stream just fill. -/
theorem witness_EncodersDeliver_bytes :
    let s := withCaps (loaded [0x61]) 1 9
    s.caps.InRange ∧ InputIs s [0x61] ∧ lz77Compress [0x61] = [1, 0, 0, 0, 1, 0x61] ∧ (bwtForward [0x61]).1 = [0x61] ∧
      mtfEncode [0x61] = [0x61] ∧ rcCompress [0x61] = .ok [0, 0, 0, 1, 0x00, 0x60, 0xFF, 0xFC, 0x00] ∧ 9 ≤ s.caps.obufCap := by
  refine ⟨?_, ⟨?_, ?_⟩, ?_, ?_, ?_, ?_, ?_⟩ <;> decide +kernel
theorem witness_EncodersDeliver_hardcore : hcCompress [0x41, 0x41, 0x41, 0x41] = .ok (aaaaHc, 1) := by decide +kernel
theorem witness_DecodersDeliver_coders :
    InputIs (loaded abbccccHuff) abbccccHuff ∧ (loaded abbccccHuff).caps.InRange ∧ huffDecompress abbccccHuff 65536 = .ok abbcccc ∧
      bmhDecompress bananaBmh 65536 = .ok banana ∧ rcDecompress [0, 0, 0, 1, 0x00, 0x60, 0xFF, 0xFC, 0x00] 65536 = .ok [0x61] ∧
      lz77Decompress [1, 0, 0, 0, 8, 0x61, 0xC4, 0x01] 65536 = .ok (List.replicate 8 0x61) ∧
      hcDecompress aaaaHc 65536 = .ok ([0x41, 0x41, 0x41, 0x41], 1) := by
  refine ⟨⟨?_, ?_⟩, ?_, ?_, ?_, ?_, ?_, ?_⟩ <;> decide +kernel
/-- The last index BWT_INV takes, and the three tags' payloads. -/
theorem witness_DecodersDeliver_others :
    (pending (loaded banana) .bwtInv 5 0).arg0.toNat < banana.length ∧ (mtfDecode [0x61]).length ≤ State.reset.caps.obufCap ∧
      huffDecompress (([0xAD, 0xEF, 1, 1] ++ abbccccHuff).drop 4) 65536 = .ok abbcccc ∧
      bmhDecompress (([0xAD, 0xEF, 1, 2] ++ bananaBmh).drop 4) 65536 = .ok banana ∧
      rcDecompress ([0xAD, 0xEF, 1, 3, 0, 0, 0, 1, 0x00, 0x60, 0xFF, 0xFC, 0x00].drop 4) 65536 = .ok [0x61] := by
  refine ⟨?_, ?_, ?_, ?_, ?_⟩ <;> decide +kernel
/-- A function that errs, and an output of two bytes for an OBUF of one. -/
theorem witness_CodecErrorsAreReported :
    (isTransform .huffDecompress = true ∧ InputIs (loaded [0x41]) [0x41] ∧
      codecOf (loaded [0x41]) [0x41] .huffDecompress = .error .truncatedData) ∧
    (let s := withCaps (loaded [0x61, 0x62]) 2 1
     InputIs s [0x61, 0x62] ∧ codecOf s [0x61, 0x62] .mtfDec = .ok ([0x61, 0x62], 0) ∧ s.caps.obufCap < [0x61, 0x62].length) := by
  refine ⟨⟨?_, ⟨?_, ?_⟩, ?_⟩, ⟨?_, ?_⟩, ?_, ?_⟩ <;> decide +kernel

/-- One byte to go; an overlapping match of the greatest length that just fits; the greatest offset of SHORT. -/
theorem witness_TokensExtendTheReplay :
    (let s := replaying [] 2 6 [0x61]
     s.lz.outRev.length < s.lz.declared) ∧
    (let s := replaying [] 19 6 [0x61]
     1 ≤ s.lz.outRev.length ∧ s.lz.outRev.length + 18 ≤ s.lz.declared) ∧
    (let s := replaying [] 258 6 (List.replicate 255 0x61)
     255 ≤ s.lz.outRev.length ∧ s.lz.outRev.length + 3 ≤ s.lz.declared) ∧
    (let s := replaying [] 4099 6 (List.replicate 4096 0x61)
     4096 ≤ s.lz.outRev.length ∧ s.lz.outRev.length + 3 ≤ s.lz.declared) := by decide +kernel
/-- A full output; a length of 2 and of 19; an offset of 0, one beyond the output and 4097; a match one byte too long. -/
theorem witness_TokenErrors :
    (replaying [] 1 6 [0x61]).lz.outRev.length = (replaying [] 1 6 [0x61]).lz.declared ∧
    ((2#8).toNat < 3 ∧ 18 < (19#8).toNat) ∧
    ((0#8).toNat = 0 ∧ (replaying [] 9 6 [0x61]).lz.outRev.length < (2#8).toNat) ∧
    ((0#16).toNat = 0 ∧ 4096 < (4097#16).toNat) ∧
    (let s := replaying [] 3 6 [0x61]
     1 ≤ (1#8).toNat ∧ (1#8).toNat ≤ s.lz.outRev.length ∧ s.lz.declared < s.lz.outRev.length + 3) ∧
    (let s := replaying [] 3 6 [0x61]
     3 ≤ (3#8).toNat ∧ (3#8).toNat ≤ 18 ∧ 1 ≤ (1#16).toNat ∧ (1#16).toNat ≤ 4096 ∧ (1#16).toNat ≤ s.lz.outRev.length ∧
       s.lz.declared < s.lz.outRev.length + (3#8).toNat) := by decide

theorem witness_TokenStepsReplayTheCommand :
    let s := pending (loaded [1, 0, 0, 0, 8, 0x61, 0xC4, 0x01]) .lz77Decompress 0 0
    s.busy = true ∧ s.schedule = [] ∧ InputIs s [1, 0, 0, 0, 8, 0x61, 0xC4, 0x01] ∧
      lzPrefix [1, 0, 0, 0, 8, 0x61, 0xC4, 0x01] s.caps.obufCap = .ok (8, [0x61, 0xC4, 0x01]) := by
  refine ⟨?_, ?_, ⟨?_, ?_⟩, ?_⟩ <;> decide +kernel
theorem witness_TagStepIsTheCommand :
    (pending (loaded aaaaHc) .hcDecompress 0 0).busy = true ∧ (pending (loaded aaaaHc) .hcDecompress 0 0).schedule = [] := by decide

/-- The end of the input, two bytes before it, and a position with a match. -/
theorem witness_FindMatchIsTheLongestNearest :
    (6 ≤ banana.length ∧ min 18 (banana.length - 6) < 3) ∧ (3 ≤ banana.length ∧ 3 ≤ min 18 (banana.length - 3)) ∧
      (let x : List Byte := [0x61, 0x61, 0x61, 0x61]
       1 ≤ x.length ∧ (findMatch (x.drop 1) ((List.range 1).reverse.map fun j => x.drop j)) = (3, 1)) := by decide +kernel
theorem witness_RoundTrips :
    [0x61#8] ≠ [] ∧ [0x61#8].length ≤ 1 ∧ [0x61#8].length ≤ 2 ^ 28 ∧
      rcCompress [0x61] = .ok [0, 0, 0, 1, 0x00, 0x60, 0xFF, 0xFC, 0x00] := by
  refine ⟨?_, ?_, ?_, ?_⟩ <;> decide +kernel
theorem witness_RangeCoderKeepsItsBounds :
    (31 ≤ 31 ∧ 31 ≤ 2017 ∧ 31 ≤ 2017 ∧ 2017 ≤ 2017) ∧
      (2 ^ 24 ≤ rcEncInit.range ∧ rcEncInit.range < 2 ^ 32 ∧ rcEncInit.low + rcEncInit.range ≤ 2 ^ 33) ∧
      (let e : RcEnc := { rcEncInit with low := 2 ^ 33 - 2 ^ 24, range := 2 ^ 24 }
       2 ^ 24 ≤ e.range ∧ e.range < 2 ^ 32 ∧ e.low + e.range ≤ 2 ^ 33) ∧ 1 ≤ rcEncInit.cacheSize := by decide

/-- A stage 1 stream of 15 bytes that just fits OBUF, and one that does not; an empty input. -/
theorem witness_StageFollowsTheMetrics :
    (let s := withCaps (loaded [0x41, 0x41, 0x41, 0x41]) 4 15
     s.caps.InRange ∧ InputIs s [0x41, 0x41, 0x41, 0x41] ∧ huffCompress [0x41, 0x41, 0x41, 0x41] = .ok (aaaaHc.drop 4) ∧
       (aaaaHc.drop 4).length + 4 ≤ s.caps.obufCap) ∧
    (let s := withCaps (loaded [0x41, 0x41, 0x41, 0x41]) 4 14
     s.caps.InRange ∧ InputIs s [0x41, 0x41, 0x41, 0x41] ∧ s.caps.obufCap < (aaaaHc.drop 4).length + 4) ∧
    State.reset.caps.InRange ∧ State.reset.ilen = 0 := by
  refine ⟨⟨?_, ⟨?_, ?_⟩, ?_, ?_⟩, ⟨?_, ⟨?_, ?_⟩, ?_⟩, ?_, ?_⟩ <;> decide +kernel
/-- Inputs of the other two stages. -/
theorem witness_StageFollowsTheMetrics_others :
    stageOf banana = .bmh ∧ bmhCompress banana = .ok bananaBmh ∧ stageOf [0] = .rc ∧
      rcCompress [0x61] = .ok [0, 0, 0, 1, 0x00, 0x60, 0xFF, 0xFC, 0x00] := by
  refine ⟨?_, ?_, ?_, ?_⟩ <;> decide +kernel

end Sys2Proof.Tests
end

section
/-! SUPPORT. The invariant of the machine in two parts, the flags and the contexts of the commands, and the rules by which each update of
the state keeps them. -/

namespace Sys2Proof.Machine

-- As in the tests: one thread, so that the check stays inside its memory limit.
set_option Elab.async false

/-! ## The two parts -/

/-- STATUS and ERRCODE as R26 and R331 have them. -/
structure FlagForm (s : State) : Prop where
  word : s.status = statusWord s.busy s.done s.err s.haz
  notBusyAndDone : ¬ (s.busy = true ∧ s.done = true)
  errImpliesDone : s.err = true → s.done = true
  errIffCode : s.err = true ↔ s.errcode ≠ 0
  codeKnown : s.errcode = 0 ∨ ∃ k : ErrKind, k.raised = true ∧ s.errcode = k.code

/-- IBUF is canonical and inside its capacity. -/
def InputForm (s : State) : Prop := s.ibuf.wf = true ∧ ∀ c ∈ s.ibuf, c.1 < s.caps.ibufCap

/-- The bounds of R40 on a valid reader's registers. -/
def ReaderBounds (s : State) : Prop :=
  s.brLen = s.ilen ∧ s.brLen.toNat ≤ s.caps.ibufCap ∧ s.brBits.toNat ≤ 8 * s.brLen.toNat ∧
    s.brBytes.toNat = (s.brBits.toNat + 7) / 8

/-- The bit reader's registers, valid or not (R30, R40). -/
def ReaderForm (s : State) : Prop :=
  s.brCtrl = brCtrlWord s.brValid s.brKind ∧ (s.brValid = true → ReaderBounds s)

/-- BW_CTRL with a writer and without one (R41). -/
def WriterOrNone (s : State) : Prop := (s.bwValid = true → WriterForm s) ∧ (s.bwValid = false → s.bwCtrl = 0)

/-- The values of CRC_CTRL (R35). -/
def CrcForm (s : State) : Prop := s.crcCtrl = 0#32 ∨ s.crcCtrl = 1#32 ∨ s.crcCtrl = 2#32

/-- What the invariant says of everything but STATUS and ERRCODE. -/
structure Contexts (s : State) : Prop where
  caps : s.caps.InRange
  input : InputForm s
  output : OutputForm s
  reader : ReaderForm s
  writer : WriterOrNone s
  crc : CrcForm s
  identity : s.ident = Config.idValue

/-- The invariant is its two parts. -/
theorem inv_iff (s : State) : s.Inv ↔ FlagForm s ∧ Contexts s := by
  constructor
  · intro h
    exact ⟨⟨h.statusForm, h.notBusyAndDone, h.errImpliesDone, h.errIffCode, h.codeKnown⟩,
      ⟨h.capsInRange, ⟨h.ibufCanonical, h.ibufInside⟩, h.outputForm, ⟨h.readerForm, h.readerBounds⟩,
        ⟨h.writerForm, h.writerGone⟩, h.crcForm, h.identity⟩⟩
  · rintro ⟨hf, hcaps, ⟨hwf, hin⟩, hout, ⟨hbr, hbounds⟩, ⟨hwriter, hgone⟩, hcrc, hid⟩
    exact ⟨hcaps, hwf, hin, hout, hf.word, hf.notBusyAndDone, hf.errImpliesDone, hf.errIffCode, hf.codeKnown, hbr, hbounds,
      hwriter, hgone, hcrc, hid⟩

theorem State.Inv.flags {s : State} (h : s.Inv) : FlagForm s := ((inv_iff s).mp h).1
theorem State.Inv.contexts {s : State} (h : s.Inv) : Contexts s := ((inv_iff s).mp h).2
theorem inv_of_parts {s : State} (hf : FlagForm s) (hc : Contexts s) : s.Inv := (inv_iff s).mpr ⟨hf, hc⟩

/-- A state with nothing but what the contexts depend on. -/
def contextsOnly (s : State) : State :=
  { s with cmd := 0, status := 0, errcode := 0, arg0 := 0, arg1 := 0, res0 := 0, res1 := 0, crcAcc := 0, fetch := .command,
           lz := LzReplay.empty, schedule := [], hostReads := [], epoch := 0 }

theorem contexts_contextsOnly (s : State) : Contexts (contextsOnly s) ↔ Contexts s :=
  ⟨fun h => ⟨h.caps, h.input, h.output, h.reader, h.writer, h.crc, h.identity⟩,
    fun h => ⟨h.caps, h.input, h.output, h.reader, h.writer, h.crc, h.identity⟩⟩

theorem Contexts.congr {s t : State} (h : Contexts s) (he : contextsOnly t = contextsOnly s) : Contexts t := by
  rwa [← contexts_contextsOnly, he, contexts_contextsOnly]

/-! ## The flags -/

/-- A STATUS built from flags that agree with ERRCODE. -/
theorem flagForm_of_statusWord {t : State} {b d e hz : Bool} (hs : t.status = statusWord b d e hz)
    (hbd : ¬ (b = true ∧ d = true)) (hed : e = true → d = true) (hec : e = true ↔ t.errcode ≠ 0)
    (hk : t.errcode = 0 ∨ ∃ k : ErrKind, k.raised = true ∧ t.errcode = k.code) : FlagForm t := by
  obtain ⟨rfl, rfl, rfl, rfl⟩ := flags_of_statusWord hs
  exact ⟨hs, hbd, hed, hec, hk⟩

/-- No error is pending: ERR is 0 and so is ERRCODE. -/
theorem flagForm_of_noError {t : State} {b d hz : Bool} (hs : t.status = statusWord b d false hz)
    (hbd : ¬ (b = true ∧ d = true)) (he : t.errcode = 0) : FlagForm t :=
  flagForm_of_statusWord hs hbd (by simp) (by simp [he]) (.inl he)

theorem completeOk_flagForm (s : State) (r0 r1 : Word) : FlagForm (completeOk s r0 r1) :=
  flagForm_of_noError (completeOk_status s r0 r1) (by simp) rfl

theorem completeErr_flagForm (s : State) {k : ErrKind} (hk : k.raised = true) : FlagForm (completeErr s k) :=
  flagForm_of_statusWord (completeErr_status s k) (by simp) (by simp) ⟨fun _ => code_ne_zero k, fun _ => rfl⟩
    (.inr ⟨k, hk, rfl⟩)

theorem startCommand_flagForm (s : State) (w : Word) : FlagForm (startCommand s w) :=
  flagForm_of_noError (startCommand_status s w) (by simp) rfl

theorem resetEvent_flagForm (s : State) : FlagForm (resetEvent s) :=
  flagForm_of_noError (b := false) (d := false) (hz := false) rfl (by simp) rfl

theorem dropWrite_flagForm {s : State} (h : FlagForm s) : FlagForm (dropWrite s) :=
  flagForm_of_statusWord (dropWrite_status s) h.notBusyAndDone h.errImpliesDone h.errIffCode h.codeKnown

/-- The flags of a state depend on STATUS and ERRCODE alone. -/
theorem FlagForm.congr {s t : State} (h : FlagForm s) (hs : t.status = s.status) (he : t.errcode = s.errcode) : FlagForm t :=
  flagForm_of_statusWord (hs.trans h.word) h.notBusyAndDone h.errImpliesDone (he ▸ h.errIffCode) (he ▸ h.codeKnown)

/-- A step that touches neither the flags nor the contexts keeps the invariant. -/
theorem State.Inv.congr {s t : State} (h : s.Inv) (hs : t.status = s.status) (he : t.errcode = s.errcode)
    (hc : contextsOnly t = contextsOnly s) : t.Inv :=
  inv_of_parts (h.flags.congr hs he) (h.contexts.congr hc)

/-! ## The input -/

theorem inputForm_writeBytes {s : State} (h : InputForm s) {bs : List Byte} {a : Nat} (hfit : a + bs.length ≤ s.caps.ibufCap) :
    InputForm { s with ibuf := Memory.writeBytes s.ibuf a bs } := by
  obtain ⟨hwf, hin⟩ := h
  refine ⟨writeBytes_wf bs a hwf, fun c hc => ?_⟩
  rcases mem_writeBytes hc with ⟨-, hlt⟩ | hold
  · exact Nat.lt_of_lt_of_le hlt hfit
  · exact hin c hold

/-! ## The bit reader -/

/-- A reader made invalid has no bounds to meet (R370, R150). -/
theorem readerForm_of_invalidated {s t : State} (h : ReaderForm s) (ht : t.brCtrl = brInvalidated s) : ReaderForm t := by
  have hv : t.brValid = false := by rw [State.brValid, ht, brInvalidated_bit0]
  have hk : t.brKind = s.brKind := by rw [State.brKind, ht, brInvalidated_bit1]
  have hword : brInvalidated s = brCtrlWord false s.brKind := by rw [brInvalidated, h.1, brCtrlWord_invalidated]
  exact ⟨by rw [ht, hv, hk, hword], fun hvalid => by simp [hv] at hvalid⟩

/-- A reader that BR_CTRL declares valid needs its bounds only. -/
theorem readerForm_of_brCtrlWord {t : State} {v k : Bool} (ht : t.brCtrl = brCtrlWord v k) (hb : ReaderBounds t) :
    ReaderForm t := by
  have hv : t.brValid = v := by rw [State.brValid, ht, brCtrlWord_bit0]
  have hk : t.brKind = k := by rw [State.brKind, ht, brCtrlWord_bit1]
  exact ⟨by rw [ht, hv, hk], fun _ => hb⟩

/-- A reader at the start of `IBUF[0..ILEN)`. -/
theorem readerBounds_of_start {t : State} (hlen : t.brLen = t.ilen) (hcap : t.ilen.toNat ≤ t.caps.ibufCap)
    (hbits : t.brBits = 0) (hbytes : t.brBytes = 0) : ReaderBounds t :=
  ⟨hlen, hlen ▸ hcap, by simp [hbits], by simp [hbits, hbytes]⟩

/-- The cursor of a valid reader may stand anywhere up to the end of its source. -/
theorem readerForm_readerAt {s : State} (h : Contexts s) (hv : s.brValid = true) {p : Nat} (hp : p ≤ 8 * s.brLen.toNat) :
    ReaderForm (readerAt s p) := by
  obtain ⟨hword, hbounds⟩ := h.reader
  obtain ⟨hlen, hcap, -, -⟩ := hbounds hv
  obtain ⟨-, hmax, -, -⟩ := h.caps
  have hbits : (readerAt s p).brBits.toNat = p := by
    rw [readerAt_brBits, BitVec.toNat_ofNat]; exact Nat.mod_eq_of_lt (by omega)
  have hbytes : (readerAt s p).brBytes.toNat = (p + 7) / 8 := by
    rw [readerAt_brBytes, BitVec.toNat_ofNat]; exact Nat.mod_eq_of_lt (by omega)
  exact readerForm_of_brCtrlWord (readerAt_brCtrl s p ▸ hword) ⟨hlen, hcap, by rw [hbits]; exact hp, by rw [hbits, hbytes]⟩

theorem contexts_readerAt {s : State} (h : Contexts s) (hv : s.brValid = true) {p : Nat} (hp : p ≤ 8 * s.brLen.toNat) :
    Contexts (readerAt s p) :=
  { h with reader := readerForm_readerAt h hv hp }

/-! ## The output and the bit writer -/

theorem writerOrNone_of_zero {t : State} (ht : t.bwCtrl = 0) : WriterOrNone t :=
  ⟨fun hv => by simp [State.bwValid, ht] at hv, fun _ => ht⟩

theorem writerOrNone_of_form {t : State} (hv : t.bwValid = true) (hf : WriterForm t) : WriterOrNone t :=
  ⟨fun _ => hf, fun hn => by simp [hv] at hn⟩

/-- A sink with no bit pending. -/
theorem sinkForm_nothingPending (bs : List Byte) : SinkForm { bytes := bs, acc := 0, k := 0 } := ⟨by simp, by simp⟩

/-- A writer with no bit pending. -/
theorem writerOrNone_of_nothingPending {t : State} (ht : t.bwCtrl = bwCtrlWord 0 0) : WriterOrNone t := by
  obtain ⟨hv, hk, ha⟩ := writer_of_bwCtrlWord ht
  exact writerOrNone_of_form hv ⟨by rw [ht, hk, ha], by simp [ha]⟩

/-- Storing a sink whose bytes fit keeps the output and the writer. -/
theorem contexts_storeSink {s : State} (h : Contexts s) {w : BitSink} (hw : SinkForm w)
    (hfit : s.olen.toNat + w.bytes.length ≤ s.caps.obufCap) : Contexts (storeSink s w) := by
  obtain ⟨y, hy⟩ : ∃ y, s.obuf.readRange 0 s.olen.toNat = some y :=
    readRange_of_indices fun i hi => by rw [h.output.1]; exact List.mem_range.mpr hi
  obtain ⟨hout, hform, hvalid, -⟩ := storeSink_spec h.caps h.output hy hw hfit
  exact { h with output := hout, writer := writerOrNone_of_form hvalid hform }

/-- No output and no writer (frame step 2 of R130). -/
theorem contexts_takeOver {s : State} (h : Contexts s) : Contexts (takeOver s) :=
  { h with output := ⟨rfl, Nat.zero_le _⟩, writer := writerOrNone_of_zero rfl }

/-- An output that fits, stored in an empty OBUF. -/
theorem outputForm_of_stored {s : State} (h : s.caps.InRange) {y : List Byte} (hfit : y.length ≤ s.caps.obufCap) :
    OutputForm { s with obuf := Memory.writeBytes [] 0 y, olen := BitVec.ofNat 32 y.length } := by
  obtain ⟨-, -, -, hmax⟩ := h
  have hlen : (BitVec.ofNat 32 y.length).toNat = y.length := by
    rw [BitVec.toNat_ofNat]; exact Nat.mod_eq_of_lt (by omega)
  have hidx : (Memory.writeBytes [] 0 y).map Prod.fst = List.range (0 + y.length) := writeBytes_append_indices rfl
  refine ⟨?_, ?_⟩
  · rw [hidx, hlen, Nat.zero_add]
  · rw [hlen]; exact hfit

end Sys2Proof.Machine
end

section
/-! SUPPORT. Results whose next state, if there is one, meets the invariant: one rule for each shared operation of Machine/Ops.lean and of
the reader, the writer and the CRC range. -/

namespace Sys2Proof.Machine

-- As in the tests: one thread, so that the check stays inside its memory limit.
set_option Elab.async false

/-- If the result is a next state, that state meets the invariant. -/
def EndsInInv (o : Result) : Prop := ∀ t, o = .next t → t.Inv

theorem endsInInv_next {s : State} (h : s.Inv) : EndsInInv (.next s) := by
  rintro t ⟨⟩
  exact h

theorem endsInInv_refused (r : Refusal) : EndsInInv (.refused r) := by
  rintro t ⟨⟩

/-! ## Completing -/

theorem succeed_endsInInv {s : State} {r0 r1 : Word} (h : Contexts s) : EndsInInv (succeed s r0 r1) :=
  endsInInv_next (inv_of_parts (completeOk_flagForm s r0 r1) (h.congr rfl))

theorem failWith_endsInInv {s : State} {k : ErrKind} (h : Contexts s) (hk : k.raised = true) : EndsInInv (failWith s k) :=
  endsInInv_next (inv_of_parts (completeErr_flagForm s hk) (h.congr rfl))

/-! ## Inputs -/

theorem obufRange_endsInInv {s : State} {f : List Byte → Result}
    (hf : ∀ y, y.length = s.olen.toNat → EndsInInv (f y)) : EndsInInv (obufRange s f) := by
  rcases obufRange_cases (s := s) (f := f) rfl with ⟨-, ho⟩ | ⟨y, hy, ho⟩ <;> rw [ho]
  · exact endsInInv_refused _
  · exact hf y (readRange_length hy)

theorem sourceRange_endsInInv {s : State} (h : Contexts s) {f : List Byte → Result} (hf : ∀ x, EndsInInv (f x)) :
    EndsInInv (sourceRange s f) := by
  rcases sourceRange_cases (s := s) (f := f) rfl with ⟨-, -, ho⟩ | ⟨-, ho⟩ | ⟨x, -, ho⟩ <;> rw [ho]
  · exact failWith_endsInInv h rfl
  · exact endsInInv_refused _
  · exact hf x

theorem transformBytes_error_endsInInv {s : State} (h : Contexts s) {r : Result} (hr : transformBytes s = .error r) :
    EndsInInv r := by
  rcases transformBytes_cases s with ⟨-, hb⟩ | ⟨-, -, -, hb⟩ | ⟨x, -, -, hb⟩ <;> rw [hb] at hr <;> cases hr
  · exact failWith_endsInInv h rfl
  · exact endsInInv_refused _

/-! ## The transform commands -/

theorem deliver_endsInInv {s : State} (h : Contexts s) {full : ErrKind} (hfull : full.raised = true)
    {r : Except ErrKind (List Byte × Word)} (hr : ∀ k, r = .error k → k.raised = true) :
    EndsInInv (deliver (takeOver s) full r) := by
  have h0 := contexts_takeOver h
  rcases deliver_cases (s := takeOver s) (full := full) (r := r) rfl with
    ⟨k, hk, ho⟩ | ⟨y, r1, -, -, ho⟩ | ⟨y, r1, -, hfit, ho⟩ <;> rw [ho]
  · exact failWith_endsInInv h0 (hr k hk)
  · exact failWith_endsInInv h0 hfull
  · exact succeed_endsInInv { h0 with output := outputForm_of_stored (s := takeOver s) h.caps hfit }

theorem transform_endsInInv {s : State} (h : Contexts s) {full : ErrKind} (hfull : full.raised = true)
    {f : List Byte → Except ErrKind (List Byte × Word)} (hf : ∀ x k, f x = .error k → k.raised = true) :
    EndsInInv (transform s full f) := by
  rcases transform_cases (s := s) (full := full) (f := f) rfl with ⟨-, ho⟩ | ⟨-, -, -, ho⟩ | ⟨x, -, -, ho⟩ <;> rw [ho]
  · exact failWith_endsInInv (contexts_takeOver h) rfl
  · exact endsInInv_refused _
  · exact deliver_endsInInv h hfull (hf x)

/-! ## The bit reader -/

theorem withReader_endsInInv {s : State} (h : Contexts s) {body : Result} (hb : s.brValid = true → EndsInInv body) :
    EndsInInv (withReader s body) := by
  rcases withReader_cases (s := s) (body := body) rfl with ⟨-, ho⟩ | ⟨hv, ho⟩ <;> rw [ho]
  · exact failWith_endsInInv h rfl
  · exact hb hv

theorem readerSource_endsInInv {s : State} {f : List Byte → Result} (hf : ∀ src, EndsInInv (f src)) :
    EndsInInv (readerSource s f) := by
  rcases readerSource_cases (s := s) (f := f) rfl with ⟨-, ho⟩ | ⟨src, -, ho⟩ <;> rw [ho]
  · exact endsInInv_refused _
  · exact hf src

theorem failEof_endsInInv {s : State} (h : Contexts s) : EndsInInv (failEof s) := by
  unfold failEof
  exact failWith_endsInInv { h with reader := readerForm_of_invalidated h.reader rfl } rfl

/-- Moving forward by no more than `avail` stays inside the source (R141). -/
theorem advance_le {s : State} (h : Contexts s) (hv : s.brValid = true) {n : Nat} (hn : n ≤ s.brAvail) :
    s.brBits.toNat + n ≤ 8 * s.brLen.toNat := by
  obtain ⟨-, -, hbits, -⟩ := h.reader.2 hv
  unfold State.brAvail at hn
  omega

theorem readBits_endsInInv {s : State} (h : Contexts s) (hv : s.brValid = true) (src : List Byte) (n : Nat) :
    EndsInInv (readBits s src n) := by
  rcases readBits_cases (s := s) (src := src) (n := n) rfl with ⟨-, ho⟩ | ⟨hn, ho⟩ <;> rw [ho]
  · exact failEof_endsInInv h
  · exact succeed_endsInInv (contexts_readerAt h hv (advance_le h hv hn))

/-! ## The bit writer -/

theorem withWriter_endsInInv {s : State} (h : Contexts s) {body : Result} (hb : s.bwValid = true → EndsInInv body) :
    EndsInInv (withWriter s body) := by
  rcases withWriter_cases (s := s) (body := body) rfl with ⟨-, ho⟩ | ⟨hv, ho⟩ <;> rw [ho]
  · exact failWith_endsInInv h rfl
  · exact hb hv

theorem writerOverflow_endsInInv {s : State} (h : Contexts s) : EndsInInv (writerOverflow s) := by
  unfold writerOverflow
  exact failWith_endsInInv { h with writer := writerOrNone_of_zero rfl } rfl

/-- How many bytes writing bits completes (R151). -/
theorem putBits_sinkOf_bytes {s : State} (hf : WriterForm s) (bs : List Bool) :
    (putBits (sinkOf s) bs).bytes.length = (s.bwNbits + bs.length) / 8 := by
  obtain ⟨⟨hk, -⟩, -, hcount⟩ := putBits_spec bs (sinkForm_sinkOf hf)
  simp only [sinkOf, List.length_nil] at hcount hk ⊢
  omega

theorem writeBits_endsInInv {s : State} (h : Contexts s) (hv : s.bwValid = true) {bs : List Bool}
    (hfit : s.olen.toNat + (s.bwNbits + bs.length) / 8 ≤ s.caps.obufCap) : EndsInInv (writeBits s bs) := by
  have hf : WriterForm s := h.writer.1 hv
  obtain ⟨hsink, -⟩ := putBits_spec bs (sinkForm_sinkOf hf)
  exact succeed_endsInInv (contexts_storeSink h hsink (by rw [putBits_sinkOf_bytes hf]; exact hfit))

end Sys2Proof.Machine
end

section
/-! SUPPORT. Every instruction's next state meets the invariant, family by family. -/

namespace Sys2Proof.Machine

-- As in the tests: one thread, so that the check stays inside its memory limit.
set_option Elab.async false

/-! ## Control -/

theorem execXfer_endsInInv {s : State} (h : Contexts s) : EndsInInv (execXfer s) := by
  unfold execXfer
  split
  case isTrue => exact failWith_endsInInv h rfl
  case isFalse hcap =>
    refine obufRange_endsInInv fun y hy => succeed_endsInInv ?_
    have hin := inputForm_writeBytes h.input (bs := y) (a := 0) (by omega)
    exact { h with input := hin, reader := readerForm_of_invalidated h.reader rfl }

/-! ## The bit reader -/

theorem execBrCreate_endsInInv {s : State} (h : Contexts s) : EndsInInv (execBrCreate s) := by
  unfold execBrCreate
  split
  case isTrue => exact failWith_endsInInv h rfl
  case isFalse hcap =>
    have hlen := Nat.not_lt.mp hcap
    exact succeed_endsInInv { h with reader := readerForm_of_brCtrlWord rfl (readerBounds_of_start rfl hlen rfl rfl) }

theorem execBrReadBit_endsInInv {s : State} (h : Contexts s) : EndsInInv (execBrReadBit s) :=
  withReader_endsInInv h fun hv => readerSource_endsInInv fun src => readBits_endsInInv h hv src 1

theorem execBrReadBits_endsInInv {s : State} (h : Contexts s) : EndsInInv (execBrReadBits s) := by
  refine withReader_endsInInv h fun hv => readerSource_endsInInv fun src => ?_
  split
  case isTrue => exact failWith_endsInInv h rfl
  case isFalse => exact readBits_endsInInv h hv src _

theorem execBrReadByte_endsInInv {s : State} (h : Contexts s) : EndsInInv (execBrReadByte s) :=
  withReader_endsInInv h fun hv => readerSource_endsInInv fun src => readBits_endsInInv h hv src 8

theorem execBrSkipBits_endsInInv {s : State} (h : Contexts s) : EndsInInv (execBrSkipBits s) := by
  refine withReader_endsInInv h fun hv => ?_
  split
  case isTrue => exact failEof_endsInInv h
  case isFalse hn => exact succeed_endsInInv (contexts_readerAt h hv (advance_le h hv (Nat.not_lt.mp hn)))

/-- Rounding up to a byte boundary stays inside a source of whole bytes (R148). -/
theorem ceil8_le {p n : Nat} (h : p ≤ 8 * n) : ceil8 p ≤ 8 * n := by
  unfold ceil8
  omega

theorem execBrAlign_endsInInv {s : State} (h : Contexts s) : EndsInInv (execBrAlign s) := by
  refine withReader_endsInInv h fun hv => ?_
  obtain ⟨-, -, hbits, -⟩ := h.reader.2 hv
  exact succeed_endsInInv (contexts_readerAt h hv (ceil8_le hbits))

theorem execBrSeek_endsInInv {s : State} (h : Contexts s) : EndsInInv (execBrSeek s) := by
  refine withReader_endsInInv h fun hv => ?_
  split
  case isFalse => exact failWith_endsInInv h rfl
  case isTrue =>
    split
    case isTrue => exact failEof_endsInInv h
    case isFalse hp => exact succeed_endsInInv (contexts_readerAt h hv (Nat.not_lt.mp hp))

/-! ## The bit writer -/

theorem execBwCreate_endsInInv {s : State} (h : Contexts s) : EndsInInv (execBwCreate s) := by
  unfold execBwCreate
  exact succeed_endsInInv { h with output := ⟨rfl, Nat.zero_le _⟩, writer := writerOrNone_of_nothingPending rfl }

theorem execBwWriteBit_endsInInv {s : State} (h : Contexts s) : EndsInInv (execBwWriteBit s) := by
  refine withWriter_endsInInv h fun hv => ?_
  split
  case isTrue => exact writerOverflow_endsInInv h
  case isFalse hroom =>
    have hk := bwNbits_lt s
    have hle := h.output.2
    refine writeBits_endsInInv h hv ?_
    rw [List.length_singleton]
    omega

theorem execBwWriteBits_endsInInv {s : State} (h : Contexts s) : EndsInInv (execBwWriteBits s) := by
  refine withWriter_endsInInv h fun hv => ?_
  split
  case isTrue => exact failWith_endsInInv h rfl
  case isFalse =>
    split
    case isTrue => exact writerOverflow_endsInInv h
    case isFalse hroom =>
      refine writeBits_endsInInv h hv ?_
      simpa [lowBits] using hroom

theorem execBwFlush_endsInInv {s : State} (h : Contexts s) : EndsInInv (execBwFlush s) := by
  refine withWriter_endsInInv h fun _ => ?_
  split
  case isFalse => exact succeed_endsInInv h
  case isTrue =>
    split
    case isTrue => exact writerOverflow_endsInInv h
    case isFalse hroom =>
      have hfit : s.olen.toNat + [s.bwAcc].length ≤ s.caps.obufCap := by
        have hle := h.output.2
        rw [List.length_singleton]
        omega
      exact succeed_endsInInv (contexts_storeSink h (sinkForm_nothingPending _) hfit)

/-! ## The CRC context -/

theorem execCrcCalc_endsInInv {s : State} (h : Contexts s) : EndsInInv (execCrcCalc s) :=
  sourceRange_endsInInv h fun _ => succeed_endsInInv h

theorem execCrcVerify_endsInInv {s : State} (h : Contexts s) : EndsInInv (execCrcVerify s) :=
  sourceRange_endsInInv h fun _ => succeed_endsInInv h

theorem execCrcCreate_endsInInv {s : State} (h : Contexts s) : EndsInInv (execCrcCreate s) := by
  unfold execCrcCreate
  exact succeed_endsInInv { h with crc := .inr (.inl rfl) }

theorem execCrcUpdate_endsInInv {s : State} (h : Contexts s) : EndsInInv (execCrcUpdate s) := by
  refine sourceRange_endsInInv h fun x => ?_
  split
  case isTrue => exact succeed_endsInInv (h.congr rfl)
  case isFalse => exact failWith_endsInInv h rfl

theorem execCrcFinalize_endsInInv {s : State} (h : Contexts s) : EndsInInv (execCrcFinalize s) := by
  unfold execCrcFinalize
  split
  case isTrue => exact succeed_endsInInv { h with crc := .inr (.inr rfl) }
  case isFalse => exact failWith_endsInInv h rfl

theorem execCrcDestroy_endsInInv {s : State} (h : Contexts s) : EndsInInv (execCrcDestroy s) := by
  unfold execCrcDestroy
  split
  case isTrue => exact failWith_endsInInv h rfl
  case isFalse => exact succeed_endsInInv { h with crc := .inl rfl }

/-! ## The codecs -/

/-- The kinds of the error matrix are kinds the engine raises (R331, R332). -/
theorem raised_of_mem_kindsRaised {i : Instr} {k : ErrKind} (h : k ∈ kindsRaised i) : k.raised = true := by
  have hall : (kindsRaised i).all ErrKind.raised = true := by cases i <;> rfl
  exact List.all_eq_true.mp hall k h

theorem fullKind_raised (i : Instr) : (fullKind i).raised = true := by cases i <;> rfl

/-- A transform command, or the tag row of its stage. -/
theorem codec_endsInInv {i : Instr} (hi : isTransform i = true ∨ i = .hcTagHuff ∨ i = .hcTagBmh ∨ i = .hcTagRc) {s : State}
    (h : Contexts s) : EndsInInv (exec i s) := by
  obtain ⟨f, hexec, -, hkinds⟩ := exec_codec hi s
  rw [hexec]
  exact transform_endsInInv h (fullKind_raised i) fun x k hk => raised_of_mem_kindsRaised (hkinds x k hk)

theorem tokenEffect_error_raised {declared : Nat} {outRev : List Byte} {i : Instr} {k : ErrKind}
    (h : tokenEffect declared outRev i = .error k) : k.raised = true := by
  rcases tokenEffect_error h with rfl | rfl <;> rfl

/-- A token changes the replay's scratch alone, or ends the command with an error. -/
theorem runToken_endsInInv {s : State} (h : s.Inv) (i : Instr) (len : Nat) : EndsInInv (runToken s i len) := by
  unfold runToken
  split
  next k hk => exact failWith_endsInInv (contexts_takeOver h.contexts) (tokenEffect_error_raised hk)
  next outRev _ => exact endsInInv_next (h.congr rfl rfl rfl)

/-! ## Every instruction -/

theorem exec_endsInInv {s : State} (h : s.Inv) (i : Instr) : EndsInInv (exec i s) := by
  have c := h.contexts
  cases i with
  | nop => exact succeed_endsInInv c
  | xfer => exact execXfer_endsInInv c
  | brCreate => exact execBrCreate_endsInInv c
  | brReadBit => exact execBrReadBit_endsInInv c
  | brReadBits => exact execBrReadBits_endsInInv c
  | brReadByte => exact execBrReadByte_endsInInv c
  | brSkipBits => exact execBrSkipBits_endsInInv c
  | brAlign => exact execBrAlign_endsInInv c
  | brSeek => exact execBrSeek_endsInInv c
  | bwCreate => exact execBwCreate_endsInInv c
  | bwWriteBit => exact execBwWriteBit_endsInInv c
  | bwWriteBits => exact execBwWriteBits_endsInInv c
  | bwFlush => exact execBwFlush_endsInInv c
  | crcCalc => exact execCrcCalc_endsInInv c
  | crcVerify => exact execCrcVerify_endsInInv c
  | crcCreate => exact execCrcCreate_endsInInv c
  | crcUpdate => exact execCrcUpdate_endsInInv c
  | crcFinalize => exact execCrcFinalize_endsInInv c
  | crcDestroy => exact execCrcDestroy_endsInInv c
  | lz77Lit | lz77Esc | lz77Short | lz77Long => exact runToken_endsInInv h _ _
  | hcTagHuff => exact codec_endsInInv (.inr (.inl rfl)) c
  | hcTagBmh => exact codec_endsInInv (.inr (.inr (.inl rfl))) c
  | hcTagRc => exact codec_endsInInv (.inr (.inr (.inr rfl))) c
  | huffCompress | huffDecompress | lz77Compress | lz77Decompress | bwtFwd | bwtInv | mtfEnc | mtfDec | bmhCompress
  | bmhDecompress | rcCompress | rcDecompress | hcCompress | hcDecompress => exact codec_endsInInv (.inl rfl) c

end Sys2Proof.Machine
end

section
/-! SUPPORT. The invariant through fetch, the host's accesses and one step. -/

namespace Sys2Proof.Machine

-- As in the tests: one thread, so that the check stays inside its memory limit.
set_option Elab.async false

/-! ## A turn of the engine -/

theorem hcTagOf_error_raised {t : List Byte} {k : ErrKind} (h : hcTagOf t = .error k) : k.raised = true := by
  unfold hcTagOf at h
  split at h
  · cases h; rfl
  · split at h
    next e _ =>
      cases h
      cases e <;> rfl
    next => cases h

theorem tokenError_raised (e : DecodeError) : (tokenError e).raised = true := by
  rcases tokenError_kinds e with h | h <;> rw [h] <;> rfl

theorem finishReplay_endsInInv {s : State} (h : Contexts s) : EndsInInv (finishReplay s) :=
  deliver_endsInInv h rfl fun k hk => by rw [replayEnd_error (withNoRes1_error hk)]; rfl

/-- A turn that ends without an instruction: an illegal word, a stream without a tag or a token, or the end of the tokens. -/
theorem fetchInstr_error_endsInInv {s : State} (h : Contexts s) {r : Result} (hr : fetchInstr s = .error r) : EndsInInv r := by
  have h0 := contexts_takeOver h
  cases hf : s.fetch with
  | command =>
    simp only [fetchInstr, hf] at hr
    split at hr <;> cases hr
    exact failWith_endsInInv h rfl
  | hcTag =>
    simp only [fetchInstr, hf] at hr
    split at hr
    next hb => cases hr; exact transformBytes_error_endsInInv h0 hb
    next =>
      split at hr <;> cases hr
      next hk => exact failWith_endsInInv h0 (hcTagOf_error_raised hk)
  | lzToken =>
    simp only [fetchInstr, hf] at hr
    split at hr
    next hb => cases hr; exact transformBytes_error_endsInInv h0 hb
    next =>
      split at hr
      next => cases hr; exact finishReplay_endsInInv h
      next =>
        split at hr <;> cases hr
        exact failWith_endsInInv h0 (tokenError_raised _)

theorem engineTurn_endsInInv {s : State} (h : s.Inv) : EndsInInv (engineTurn s) := by
  unfold engineTurn
  split
  case isFalse => exact endsInInv_next h
  case isTrue =>
    split
    next hr => exact fetchInstr_error_endsInInv h.contexts hr
    next i _ => exact exec_endsInInv h i

/-! ## A turn of the host -/

theorem resetEvent_inv {s : State} (h : s.Inv) : (resetEvent s).Inv :=
  inv_of_parts (resetEvent_flagForm s)
    { caps := h.contexts.caps
      input := ⟨rfl, fun c hc => by cases hc⟩
      output := ⟨rfl, Nat.zero_le _⟩
      reader := readerForm_of_brCtrlWord (v := false) (k := false) rfl (readerBounds_of_start rfl (Nat.zero_le _) rfl rfl)
      writer := writerOrNone_of_zero rfl
      crc := .inl rfl
      identity := rfl }

theorem recordRead_inv {s : State} (h : s.Inv) (v : Word) : (recordRead s v).Inv :=
  h.congr rfl rfl rfl

theorem dropWrite_inv {s : State} (h : s.Inv) : (dropWrite s).Inv :=
  inv_of_parts (dropWrite_flagForm h.flags) (h.contexts.congr rfl)

theorem hostWriteReg_inv {s : State} (h : s.Inv) (r : Nat) (v : Word) : (hostWriteReg s r v).Inv := by
  have c := h.contexts
  unfold hostWriteReg
  split
  case isFalse => exact h.congr rfl rfl rfl
  case isTrue =>
    split
    case isTrue => exact dropWrite_inv h
    case isFalse =>
      split
      case isTrue => exact inv_of_parts (startCommand_flagForm _ v) (c.congr rfl)
      case isFalse =>
        split
        case isTrue => exact h.congr rfl rfl rfl
        case isFalse =>
          split
          case isTrue => exact h.congr rfl rfl rfl
          case isFalse => exact inv_of_parts (h.flags.congr rfl rfl) { c with reader := readerForm_of_invalidated c.reader rfl }

theorem hostWriteIbuf_inv {s : State} (h : s.Inv) (i : Nat) (b : Byte) : (hostWriteIbuf s i b).Inv := by
  have c := h.contexts
  unfold hostWriteIbuf
  split
  case isFalse => exact h.congr rfl rfl rfl
  case isTrue hi =>
    split
    case isTrue => exact dropWrite_inv h
    case isFalse =>
      have hin := inputForm_writeBytes c.input (bs := [b]) (a := i) hi
      exact inv_of_parts (h.flags.congr rfl rfl) { c with input := hin, reader := readerForm_of_invalidated c.reader rfl }

theorem hostAccess_inv {s : State} (h : s.Inv) (a : HostAction) : (hostAccess s a).Inv := by
  cases a with
  | reset => exact resetEvent_inv h
  | writeReg r v => exact hostWriteReg_inv h r v
  | writeIbuf i b => exact hostWriteIbuf_inv h i b
  | readReg | readIbuf | readObuf => exact recordRead_inv h _

/-! ## One step -/

/-- The turns to come are no part of the invariant. -/
theorem inv_withSchedule {s : State} (h : s.Inv) (rest : List Turn) : State.Inv { s with schedule := rest } :=
  h.congr rfl rfl rfl

theorem step_endsInInv {s : State} (h : s.Inv) : EndsInInv (step s) := by
  unfold step
  split
  next => exact engineTurn_endsInInv h
  next rest _ => exact engineTurn_endsInInv (inv_withSchedule h rest)
  next a rest _ => exact endsInInv_next (hostAccess_inv (inv_withSchedule h rest) a)

/-- Settles O18: the invariant is kept by each turn, the engine's by a rule for each shared operation and each instruction. -/
theorem stepKeepsTheInvariant : Obligations.StepKeepsTheInvariant :=
  fun _ t h hstep => step_endsInInv h t hstep

end Sys2Proof.Machine
end

section
/-! SUPPORT. What a result leaves alone of the state it started from: one rule for each shared operation of Machine/Ops.lean, of the reader
and of the writer. A view is what one looks at of a state; a rule about the flags or about a field no command writes is one for a view. -/

namespace Sys2Proof.Machine

-- As in the tests: one thread, so that the check stays inside its memory limit.
set_option Elab.async false

/-- If the result is a next state, the view of it is the view of `s`. -/
def Leaves {α : Type} (π : State → α) (s : State) (o : Result) : Prop := ∀ t, o = .next t → π t = π s

/-- A view of nothing that completing a command writes: not STATUS, ERRCODE, RES0, RES1, nor the model's own fields of a completion. -/
structure IgnoresCompletion {α : Type} (π : State → α) : Prop where
  ok : ∀ s r0 r1, π (completeOk s r0 r1) = π s
  err : ∀ s k, π (completeErr s k) = π s

variable {α : Type} {π : State → α} {s s' : State}

theorem next_leaves (h : π s' = π s) : Leaves π s (.next s') := by
  rintro t ⟨⟩
  exact h

theorem refused_leaves (r : Refusal) : Leaves π s (.refused r) := by
  rintro t ⟨⟩

/-! ## Completing -/

theorem succeed_leaves (hπ : IgnoresCompletion π) (h : π s' = π s) (r0 r1 : Word) : Leaves π s (succeed s' r0 r1) :=
  next_leaves ((hπ.ok s' r0 r1).trans h)

theorem failWith_leaves (hπ : IgnoresCompletion π) (h : π s' = π s) (k : ErrKind) : Leaves π s (failWith s' k) :=
  next_leaves ((hπ.err s' k).trans h)

/-! ## Inputs -/

theorem obufRange_leaves {f : List Byte → Result} (hf : ∀ y, Leaves π s (f y)) : Leaves π s (obufRange s f) := by
  rcases obufRange_cases (s := s) (f := f) rfl with ⟨-, ho⟩ | ⟨y, -, ho⟩ <;> rw [ho]
  · exact refused_leaves _
  · exact hf y

theorem sourceRange_leaves (hπ : IgnoresCompletion π) {f : List Byte → Result} (hf : ∀ x, Leaves π s (f x)) :
    Leaves π s (sourceRange s f) := by
  rcases sourceRange_cases (s := s) (f := f) rfl with ⟨-, -, ho⟩ | ⟨-, ho⟩ | ⟨x, -, ho⟩ <;> rw [ho]
  · exact failWith_leaves hπ rfl _
  · exact refused_leaves _
  · exact hf x

/-! ## The transform commands -/

/-- A view of neither the output nor the writer survives `deliver` after frame step 2. -/
theorem deliver_leaves (hπ : IgnoresCompletion π) (h0 : π (takeOver s) = π s)
    (hout : ∀ m n, π { takeOver s with obuf := m, olen := n } = π s) (full : ErrKind) (r : Except ErrKind (List Byte × Word)) :
    Leaves π s (deliver (takeOver s) full r) := by
  rcases deliver_cases (s := takeOver s) (full := full) (r := r) rfl with ⟨k, -, ho⟩ | ⟨y, r1, -, -, ho⟩ | ⟨y, r1, -, -, ho⟩ <;>
    rw [ho]
  · exact failWith_leaves hπ h0 k
  · exact failWith_leaves hπ h0 full
  · exact succeed_leaves hπ (hout _ _) _ _

theorem transform_leaves (hπ : IgnoresCompletion π) (h0 : π (takeOver s) = π s)
    (hout : ∀ m n, π { takeOver s with obuf := m, olen := n } = π s) (full : ErrKind)
    (f : List Byte → Except ErrKind (List Byte × Word)) : Leaves π s (transform s full f) := by
  rcases transform_cases (s := s) (full := full) (f := f) rfl with ⟨-, ho⟩ | ⟨-, -, -, ho⟩ | ⟨x, -, -, ho⟩ <;> rw [ho]
  · exact failWith_leaves hπ h0 _
  · exact refused_leaves _
  · exact deliver_leaves hπ h0 hout full (f x)

/-- A token changes the replay's scratch alone, or ends the command with an error. -/
theorem runToken_leaves (hπ : IgnoresCompletion π) (h0 : π (takeOver s) = π s) (hlz : ∀ z, π { s with lz := z } = π s) (i : Instr)
    (len : Nat) : Leaves π s (runToken s i len) := by
  unfold runToken
  split
  next k _ => exact failWith_leaves hπ h0 k
  next => exact next_leaves (hlz _)

/-! ## The bit reader -/

theorem withReader_leaves (hπ : IgnoresCompletion π) {body : Result} (hb : Leaves π s body) : Leaves π s (withReader s body) := by
  rcases withReader_cases (s := s) (body := body) rfl with ⟨-, ho⟩ | ⟨-, ho⟩ <;> rw [ho]
  · exact failWith_leaves hπ rfl _
  · exact hb

theorem readerSource_leaves {f : List Byte → Result} (hf : ∀ src, Leaves π s (f src)) : Leaves π s (readerSource s f) := by
  rcases readerSource_cases (s := s) (f := f) rfl with ⟨-, ho⟩ | ⟨src, -, ho⟩ <;> rw [ho]
  · exact refused_leaves _
  · exact hf src

theorem failEof_leaves (hπ : IgnoresCompletion π) (h : π { s with brCtrl := brInvalidated s } = π s) : Leaves π s (failEof s) :=
  failWith_leaves hπ h _

theorem readBits_leaves (hπ : IgnoresCompletion π) (heof : π { s with brCtrl := brInvalidated s } = π s)
    (hat : ∀ p, π (readerAt s p) = π s) (src : List Byte) (n : Nat) : Leaves π s (readBits s src n) := by
  rcases readBits_cases (s := s) (src := src) (n := n) rfl with ⟨-, ho⟩ | ⟨-, ho⟩ <;> rw [ho]
  · exact failEof_leaves hπ heof
  · exact succeed_leaves hπ (hat _) _ _

/-! ## The bit writer -/

theorem withWriter_leaves (hπ : IgnoresCompletion π) {body : Result} (hb : Leaves π s body) : Leaves π s (withWriter s body) := by
  rcases withWriter_cases (s := s) (body := body) rfl with ⟨-, ho⟩ | ⟨-, ho⟩ <;> rw [ho]
  · exact failWith_leaves hπ rfl _
  · exact hb

theorem writerOverflow_leaves (hπ : IgnoresCompletion π) (h : π { s with bwCtrl := 0 } = π s) : Leaves π s (writerOverflow s) :=
  failWith_leaves hπ h _

theorem writeBits_leaves (hπ : IgnoresCompletion π) (h : ∀ w, π (storeSink s w) = π s) (bs : List Bool) :
    Leaves π s (writeBits s bs) :=
  succeed_leaves hπ (h _) _ _

end Sys2Proof.Machine
end

section
/-! SUPPORT. What every instruction leaves alone: the operands, and, but for the CRC streaming commands, the CRC context. -/

namespace Sys2Proof.Machine

-- As in the tests: one thread, so that the check stays inside its memory limit.
set_option Elab.async false

/-! ## The views -/

/-- The fields that `KeepsOperands` names. -/
def operandsOf (s : State) : Caps × Word × Word × Word × Word × List Turn × List Word :=
  (s.caps, s.cmd, s.arg0, s.arg1, s.ident, s.schedule, s.hostReads)

/-- The two registers of the CRC context. -/
def crcOf (s : State) : Word × Word := (s.crcCtrl, s.crcAcc)

/-- Both at once, so that the instructions are gone through once. -/
def operandsAndCrc (s : State) : (Caps × Word × Word × Word × Word × List Turn × List Word) × (Word × Word) :=
  (operandsOf s, crcOf s)

theorem keepsOperands_iff (s t : State) : KeepsOperands s t ↔ operandsOf t = operandsOf s := by
  simp only [KeepsOperands, operandsOf, Prod.mk.injEq]

theorem keepsCrc_iff (s t : State) : KeepsCrc s t ↔ crcOf t = crcOf s := by
  simp only [KeepsCrc, crcOf, Prod.mk.injEq]

theorem operandsOf_ignoresCompletion : IgnoresCompletion operandsOf := ⟨fun _ _ _ => rfl, fun _ _ => rfl⟩
theorem operandsAndCrc_ignoresCompletion : IgnoresCompletion operandsAndCrc := ⟨fun _ _ _ => rfl, fun _ _ => rfl⟩

theorem Leaves.operands {s : State} {o : Result} (h : Leaves operandsAndCrc s o) : Leaves operandsOf s o :=
  fun t ht => congrArg Prod.fst (h t ht)

theorem Leaves.crc {s : State} {o : Result} (h : Leaves operandsAndCrc s o) : Leaves crcOf s o :=
  fun t ht => congrArg Prod.snd (h t ht)

/-! ## The instructions that leave the operands and the CRC context -/

section
variable (s : State)

theorem execXfer_leaves : Leaves operandsAndCrc s (execXfer s) := by
  unfold execXfer
  split
  case isTrue => exact failWith_leaves operandsAndCrc_ignoresCompletion rfl _
  case isFalse => exact obufRange_leaves fun _ => succeed_leaves operandsAndCrc_ignoresCompletion rfl _ _

theorem readBits_leaves_operandsAndCrc (src : List Byte) (n : Nat) : Leaves operandsAndCrc s (readBits s src n) :=
  readBits_leaves operandsAndCrc_ignoresCompletion rfl (fun _ => rfl) src n

theorem execBrCreate_leaves : Leaves operandsAndCrc s (execBrCreate s) := by
  unfold execBrCreate
  split
  case isTrue => exact failWith_leaves operandsAndCrc_ignoresCompletion rfl _
  case isFalse => exact succeed_leaves operandsAndCrc_ignoresCompletion rfl _ _

theorem execBrReadBit_leaves : Leaves operandsAndCrc s (execBrReadBit s) :=
  withReader_leaves operandsAndCrc_ignoresCompletion (readerSource_leaves fun src => readBits_leaves_operandsAndCrc s src 1)

theorem execBrReadBits_leaves : Leaves operandsAndCrc s (execBrReadBits s) := by
  refine withReader_leaves operandsAndCrc_ignoresCompletion (readerSource_leaves fun src => ?_)
  split
  case isTrue => exact failWith_leaves operandsAndCrc_ignoresCompletion rfl _
  case isFalse => exact readBits_leaves_operandsAndCrc s src _

theorem execBrReadByte_leaves : Leaves operandsAndCrc s (execBrReadByte s) :=
  withReader_leaves operandsAndCrc_ignoresCompletion (readerSource_leaves fun src => readBits_leaves_operandsAndCrc s src 8)

theorem execBrSkipBits_leaves : Leaves operandsAndCrc s (execBrSkipBits s) := by
  refine withReader_leaves operandsAndCrc_ignoresCompletion ?_
  split
  case isTrue => exact failEof_leaves operandsAndCrc_ignoresCompletion rfl
  case isFalse => exact succeed_leaves operandsAndCrc_ignoresCompletion rfl _ _

theorem execBrAlign_leaves : Leaves operandsAndCrc s (execBrAlign s) :=
  withReader_leaves operandsAndCrc_ignoresCompletion (succeed_leaves operandsAndCrc_ignoresCompletion rfl _ _)

theorem execBrSeek_leaves : Leaves operandsAndCrc s (execBrSeek s) := by
  refine withReader_leaves operandsAndCrc_ignoresCompletion ?_
  split
  case isFalse => exact failWith_leaves operandsAndCrc_ignoresCompletion rfl _
  case isTrue =>
    split
    case isTrue => exact failEof_leaves operandsAndCrc_ignoresCompletion rfl
    case isFalse => exact succeed_leaves operandsAndCrc_ignoresCompletion rfl _ _

theorem writeBits_leaves_operandsAndCrc (bs : List Bool) : Leaves operandsAndCrc s (writeBits s bs) :=
  writeBits_leaves operandsAndCrc_ignoresCompletion (fun _ => rfl) bs

theorem writerOverflow_leaves_operandsAndCrc : Leaves operandsAndCrc s (writerOverflow s) :=
  writerOverflow_leaves operandsAndCrc_ignoresCompletion rfl

theorem execBwWriteBit_leaves : Leaves operandsAndCrc s (execBwWriteBit s) := by
  refine withWriter_leaves operandsAndCrc_ignoresCompletion ?_
  split
  case isTrue => exact writerOverflow_leaves_operandsAndCrc s
  case isFalse => exact writeBits_leaves_operandsAndCrc s _

theorem execBwWriteBits_leaves : Leaves operandsAndCrc s (execBwWriteBits s) := by
  refine withWriter_leaves operandsAndCrc_ignoresCompletion ?_
  split
  case isTrue => exact failWith_leaves operandsAndCrc_ignoresCompletion rfl _
  case isFalse =>
    split
    case isTrue => exact writerOverflow_leaves_operandsAndCrc s
    case isFalse => exact writeBits_leaves_operandsAndCrc s _

theorem execBwFlush_leaves : Leaves operandsAndCrc s (execBwFlush s) := by
  refine withWriter_leaves operandsAndCrc_ignoresCompletion ?_
  split
  case isFalse => exact succeed_leaves operandsAndCrc_ignoresCompletion rfl _ _
  case isTrue =>
    split
    case isTrue => exact writerOverflow_leaves_operandsAndCrc s
    case isFalse => exact succeed_leaves operandsAndCrc_ignoresCompletion rfl _ _

/-- The one-shot CRC commands compute on the side of the context (R173, R174). -/
theorem sourceRange_succeed_leaves (r0 r1 : List Byte → Word) :
    Leaves operandsAndCrc s (sourceRange s fun x => succeed s (r0 x) (r1 x)) :=
  sourceRange_leaves operandsAndCrc_ignoresCompletion fun _ => succeed_leaves operandsAndCrc_ignoresCompletion rfl _ _

theorem codec_leaves {i : Instr} (hi : isTransform i = true ∨ i = .hcTagHuff ∨ i = .hcTagBmh ∨ i = .hcTagRc) :
    Leaves operandsAndCrc s (exec i s) := by
  obtain ⟨f, hexec, -, -⟩ := exec_codec hi s
  rw [hexec]
  exact transform_leaves operandsAndCrc_ignoresCompletion rfl (fun _ _ => rfl) _ f

theorem token_leaves (i : Instr) (len : Nat) : Leaves operandsAndCrc s (runToken s i len) :=
  runToken_leaves operandsAndCrc_ignoresCompletion rfl (fun _ => rfl) i len

end

/-- Every instruction outside the CRC stream leaves the operands and the CRC context. -/
theorem exec_leaves_operandsAndCrc {i : Instr} (hi : isCrcStreamCommand i = false) (s : State) :
    Leaves operandsAndCrc s (exec i s) := by
  cases i with
  | nop | bwCreate => exact succeed_leaves operandsAndCrc_ignoresCompletion rfl _ _
  | xfer => exact execXfer_leaves s
  | brCreate => exact execBrCreate_leaves s
  | brReadBit => exact execBrReadBit_leaves s
  | brReadBits => exact execBrReadBits_leaves s
  | brReadByte => exact execBrReadByte_leaves s
  | brSkipBits => exact execBrSkipBits_leaves s
  | brAlign => exact execBrAlign_leaves s
  | brSeek => exact execBrSeek_leaves s
  | bwWriteBit => exact execBwWriteBit_leaves s
  | bwWriteBits => exact execBwWriteBits_leaves s
  | bwFlush => exact execBwFlush_leaves s
  | crcCalc | crcVerify => exact sourceRange_succeed_leaves s _ _
  | crcCreate | crcUpdate | crcFinalize | crcDestroy => cases hi
  | lz77Lit | lz77Esc | lz77Short | lz77Long => exact token_leaves s _ _
  | hcTagHuff => exact codec_leaves s (.inr (.inl rfl))
  | hcTagBmh => exact codec_leaves s (.inr (.inr (.inl rfl)))
  | hcTagRc => exact codec_leaves s (.inr (.inr (.inr rfl)))
  | huffCompress | huffDecompress | lz77Compress | lz77Decompress | bwtFwd | bwtInv | mtfEnc | mtfDec | bmhCompress
  | bmhDecompress | rcCompress | rcDecompress | hcCompress | hcDecompress => exact codec_leaves s (.inl rfl)

/-! ## The CRC streaming commands -/

theorem execCrcUpdate_leaves (s : State) : Leaves operandsOf s (execCrcUpdate s) := by
  refine sourceRange_leaves operandsOf_ignoresCompletion fun x => ?_
  split
  case isTrue => exact succeed_leaves operandsOf_ignoresCompletion rfl _ _
  case isFalse => exact failWith_leaves operandsOf_ignoresCompletion rfl _

theorem execCrcFinalize_leaves (s : State) : Leaves operandsOf s (execCrcFinalize s) := by
  unfold execCrcFinalize
  split
  case isTrue => exact succeed_leaves operandsOf_ignoresCompletion rfl _ _
  case isFalse => exact failWith_leaves operandsOf_ignoresCompletion rfl _

theorem execCrcDestroy_leaves (s : State) : Leaves operandsOf s (execCrcDestroy s) := by
  unfold execCrcDestroy
  split
  case isTrue => exact failWith_leaves operandsOf_ignoresCompletion rfl _
  case isFalse => exact succeed_leaves operandsOf_ignoresCompletion rfl _ _

/-- Every instruction leaves the operands. -/
theorem exec_leaves_operandsOf (i : Instr) (s : State) : Leaves operandsOf s (exec i s) := by
  cases i with
  | crcCreate => exact succeed_leaves operandsOf_ignoresCompletion rfl _ _
  | crcUpdate => exact execCrcUpdate_leaves s
  | crcFinalize => exact execCrcFinalize_leaves s
  | crcDestroy => exact execCrcDestroy_leaves s
  | _ => exact (exec_leaves_operandsAndCrc rfl s).operands

/-- Settles O20, by the rules for what each shared operation leaves. -/
theorem engineNeverWritesOperands : Obligations.EngineNeverWritesOperands :=
  fun i s t ht => (keepsOperands_iff s t).mpr (exec_leaves_operandsOf i s t ht)

end Sys2Proof.Machine
end

section
/-! SUPPORT. The host's accesses, case by case: what a write to each register number makes of the state, and what no access of the host but
reset changes. -/

namespace Sys2Proof.Machine

-- As in the tests: one thread, so that the check stays inside its memory limit.
set_option Elab.async false

/-! ## Writes to the register port -/

theorem isRw_iff (r : Nat) : isRw r = true ↔ r = 0 ∨ r = 3 ∨ r = 4 ∨ r = 7 := by
  simp [isRw, or_assoc]

/-- A write to a read-only register or to no register (R23). -/
theorem hostWriteReg_notRw (s : State) {r : Nat} (hr : isRw r = false) (v : Word) :
    hostWriteReg s r v = { s with epoch := s.epoch + 1 } :=
  if_neg fun h => by simp [(isRw_iff r).mpr h] at hr

/-- A write to a writable register while busy (R368). -/
theorem hostWriteReg_busy {s : State} (hb : s.busy = true) {r : Nat} (hr : isRw r = true) (v : Word) :
    hostWriteReg s r v = dropWrite s := by
  rw [hostWriteReg, if_pos ((isRw_iff r).mp hr), if_pos hb]

section
variable {s : State} (hb : s.busy = false) (v : Word)
include hb

theorem hostWriteReg_cmd : hostWriteReg s 0 v = startCommand { s with epoch := s.epoch + 1 } v := by
  simp [hostWriteReg, hb]

theorem hostWriteReg_arg0 : hostWriteReg s 3 v = { s with arg0 := v, epoch := s.epoch + 1 } := by
  simp [hostWriteReg, hb]

theorem hostWriteReg_arg1 : hostWriteReg s 4 v = { s with arg1 := v, epoch := s.epoch + 1 } := by
  simp [hostWriteReg, hb]

theorem hostWriteReg_ilen :
    hostWriteReg s 7 v = { s with ilen := v, brCtrl := brInvalidated s, epoch := s.epoch + 1 } := by
  simp [hostWriteReg, hb]

end

/-! ## Register numbers above 16 -/

theorem isRw_of_gt {r : Nat} (hr : 16 < r) : isRw r = false := by
  rw [Bool.eq_false_iff, ne_eq, isRw_iff]
  omega

theorem registerValue_of_gt (s : State) {r : Nat} (hr : 16 < r) : registerValue s r = 0 := by
  obtain ⟨n, rfl⟩ := Nat.exists_eq_add_of_le' hr
  rfl

theorem readableNow_of_gt (s : State) {r : Nat} (hr : 16 < r) : readableNow s r = true := by
  simp [readableNow, hr]

theorem hostReadReg_of_gt (s : State) {r : Nat} (hr : 16 < r) : hostReadReg s r = 0 := by
  rw [hostReadReg, if_pos (readableNow_of_gt s hr), registerValue_of_gt s hr]

/-- Settles O12, by the cases of a register write and the numbers above 16. -/
theorem registerPortRules : Obligations.RegisterPortRules :=
  fun s _ v => ⟨fun hr => ⟨hostReadReg_of_gt s hr, hostWriteReg_notRw s (isRw_of_gt hr) v⟩,
    fun hb => ⟨hostWriteReg_arg0 hb v, hostWriteReg_arg1 hb v⟩⟩

/-! ## The CRC context under the host's accesses -/

theorem crcOf_hostWriteReg (s : State) (r : Nat) (v : Word) : crcOf (hostWriteReg s r v) = crcOf s := by
  cases hr : isRw r with
  | false => rw [hostWriteReg_notRw s hr]; rfl
  | true =>
    cases hb : s.busy with
    | true => rw [hostWriteReg_busy hb hr]; rfl
    | false =>
      rcases (isRw_iff r).mp hr with rfl | rfl | rfl | rfl
      · rw [hostWriteReg_cmd hb]; rfl
      · rw [hostWriteReg_arg0 hb]; rfl
      · rw [hostWriteReg_arg1 hb]; rfl
      · rw [hostWriteReg_ilen hb]; rfl

theorem crcOf_hostWriteIbuf (s : State) (i : Nat) (b : Byte) : crcOf (hostWriteIbuf s i b) = crcOf s := by
  unfold hostWriteIbuf
  split
  case isFalse => rfl
  case isTrue =>
    split
    case isTrue => rfl
    case isFalse => rfl

theorem crcOf_hostAccess (s : State) {a : HostAction} (ha : a ≠ .reset) : crcOf (hostAccess s a) = crcOf s := by
  cases a with
  | reset => exact absurd rfl ha
  | writeReg r v => exact crcOf_hostWriteReg s r v
  | writeIbuf i b => exact crcOf_hostWriteIbuf s i b
  | readReg | readIbuf | readObuf => rfl

/-- Settles O21: the instructions by the rules for what each shared operation leaves, the host's accesses case by case. -/
theorem onlyCrcCommandsTouchTheCrcContext : Obligations.OnlyCrcCommandsTouchTheCrcContext :=
  ⟨fun _ s t hi ht => (keepsCrc_iff s t).mpr ((exec_leaves_operandsAndCrc hi s).crc t ht),
    fun s _ ha => (keepsCrc_iff s _).mpr (crcOf_hostAccess s ha)⟩

end Sys2Proof.Machine
end

section
/-! SUPPORT. One step, turn by turn, and the state after reset. -/

namespace Sys2Proof.Machine

-- As in the tests: one thread, so that the check stays inside its memory limit.
set_option Elab.async false

/-! ## One step -/

theorem step_host {s : State} {a : HostAction} {rest : List Turn} (h : s.schedule = .host a :: rest) :
    step s = .next (hostAccess { s with schedule := rest } a) := by
  rw [step, h]

theorem step_engine {s : State} {rest : List Turn} (h : s.schedule = .engine :: rest) :
    step s = engineTurn { s with schedule := rest } := by
  rw [step, h]

theorem step_noSchedule {s : State} (h : s.schedule = []) : step s = engineTurn s := by
  rw [step, h]

/-- An idle engine does nothing (R366). -/
theorem engineTurn_idle {s : State} (hb : s.busy = false) : engineTurn s = .next s := by
  rw [engineTurn, if_neg (by simp [hb])]

theorem fetchInstr_command {s : State} {i : Instr} (hf : s.fetch = .command) (hi : decodeCommand s.cmd = .ok i) :
    fetchInstr s = .ok i := by
  rw [fetchInstr, hf, hi]

/-- A busy engine runs the instruction it fetches (R366). -/
theorem engineTurn_fetched {s : State} {i : Instr} (hb : s.busy = true) (hi : fetchInstr s = .ok i) : engineTurn s = exec i s := by
  rw [engineTurn, if_pos hb, hi]

/-- Settles O6, by the three forms of the schedule and the two of BUSY. -/
theorem stepTakesTheFirstTurn : Obligations.StepTakesTheFirstTurn := by
  refine fun s rest => ⟨fun a h => step_host h, fun i hb hf hi => ?_, fun hb => ?_⟩
  · have hfetch := fetchInstr_command hf hi
    exact ⟨fun h => (step_noSchedule h).trans (engineTurn_fetched hb hfetch),
      fun h => (step_engine h).trans (engineTurn_fetched hb (fetchInstr_command hf hi))⟩
  · exact ⟨fun h => (step_noSchedule h).trans (engineTurn_idle hb), fun h => (step_engine h).trans (engineTurn_idle hb)⟩

/-! ## Reset -/

/-- Settles O17: the reset column of R21, register by register, and two buffers without a written byte. -/
theorem resetLeavesZeroRegisters : Obligations.ResetLeavesZeroRegisters :=
  ⟨rfl, rfl, rfl, rfl, rfl, rfl, rfl, rfl, rfl, rfl, rfl, rfl, rfl, rfl, rfl, rfl, rfl, fun _ => rfl, fun _ => rfl⟩

/-- Every instance whose capacities are in range meets the invariant after reset: no error, no context, no written byte. -/
theorem resetOf_inv {c : Caps} (hc : c.InRange) : (State.resetOf c).Inv :=
  inv_of_parts (flagForm_of_noError (b := false) (d := false) (hz := false) rfl (by simp) rfl)
    { caps := hc
      input := ⟨rfl, fun c hc => by cases hc⟩
      output := ⟨rfl, Nat.zero_le _⟩
      reader := readerForm_of_brCtrlWord (v := false) (k := false) rfl (readerBounds_of_start rfl (Nat.zero_le _) rfl rfl)
      writer := writerOrNone_of_zero rfl
      crc := .inl rfl
      identity := rfl }

theorem resetCaps_inRange : resetCaps.InRange := by decide

/-- Settles O19, from the invariant of every instance's reset state. -/
theorem resetMeetsTheInvariant : Obligations.ResetMeetsTheInvariant := resetOf_inv resetCaps_inRange

end Sys2Proof.Machine
end

section
/-! SUPPORT. A range that holds a byte never written: it has no bytes, and the commands that read it are refused (20 R69, 93 U1). -/

namespace Sys2Proof.Machine

-- As in the tests: one thread, so that the check stays inside its memory limit.
set_option Elab.async false

/-- No bytes can be read from a range with an unwritten index. -/
theorem readRange_of_unwritten {m : Memory} {a n i : Nat} (hi : i < n) (hun : m.read (a + i) = none) : m.readRange a n = none := by
  cases hr : m.readRange a n with
  | none => rfl
  | some x =>
    obtain ⟨hlen, hread⟩ := readRange_eq_some_iff.mp hr
    have hget : x[i]? = none := (hread i hi).symm.trans hun
    have hle : x.length ≤ i := List.getElem?_eq_none_iff.mp hget
    omega

/-- No sequence of bytes is the input where one of its bytes is unwritten. -/
theorem not_inputIs_of_unwritten {s : State} {a : Nat} (ha : a < s.ilen.toNat) (hun : s.ibuf.read a = none) (x : List Byte) :
    ¬ InputIs s x := by
  rintro ⟨-, hread⟩
  rw [readRange_of_unwritten ha ((Nat.zero_add a).symm ▸ hun)] at hread
  cases hread

/-- A transform command whose input fits IBUF and holds an unwritten byte is refused: the frame checks pass, as ILEN is not 0 then. -/
theorem transform_refused {s : State} (hcap : s.ilen.toNat ≤ s.caps.ibufCap) {a : Nat} (ha : a < s.ilen.toNat)
    (hun : s.ibuf.read a = none) (full : ErrKind) (f : List Byte → Except ErrKind (List Byte × Word)) :
    transform s full f = .refused .unwrittenInput := by
  rcases transform_cases (s := s) (full := full) (f := f) rfl with ⟨hlong | hzero, -⟩ | ⟨-, -, -, ho⟩ | ⟨x, hx, -, -⟩
  · exact absurd hlong (Nat.not_lt.mpr hcap)
  · rw [hzero] at ha
    exact absurd ha (Nat.not_lt_zero a)
  · exact ho
  · exact absurd hx (not_inputIs_of_unwritten ha hun x)

/-- A CRC command with source IBUF whose range fits and holds an unwritten byte is refused. -/
theorem sourceRange_refused {s : State} (hsrc : s.arg0Bit = false) (hcap : s.ilen.toNat ≤ s.caps.ibufCap) {a : Nat}
    (ha : a < s.ilen.toNat) (hun : s.ibuf.read a = none) (f : List Byte → Result) :
    sourceRange s f = .refused .unwrittenInput := by
  rcases sourceRange_cases (s := s) (f := f) rfl with ⟨-, hlong, -⟩ | ⟨-, ho⟩ | ⟨x, hx, -⟩
  · exact absurd hlong (Nat.not_lt.mpr hcap)
  · exact ho
  · rw [SourceIs, if_neg (by simp [hsrc])] at hx
    exact absurd hx (not_inputIs_of_unwritten ha hun x)

/-- A reading command with a valid reader over a source that holds an unwritten byte is refused, whatever it does with the source. -/
theorem readingCommand_refused {s : State} (hv : s.brValid = true) {a : Nat} (ha : a < s.brLen.toNat)
    (hun : s.ibuf.read a = none) (f : List Byte → Result) : withReader s (readerSource s f) = .refused .unwrittenInput := by
  rcases withReader_cases (s := s) (body := readerSource s f) rfl with ⟨hinvalid, -⟩ | ⟨-, ho⟩
  · exact absurd hv (by simp [hinvalid])
  · exact ho.trans (readerSource_refused ha hun f)

/-- Settles O27: a transform command is `transform` of its codec, a CRC command starts with `sourceRange`, a reading command with
`readerSource` behind the check for a reader. -/
theorem unwrittenInputIsRefused : Obligations.UnwrittenInputIsRefused := by
  refine fun i s => ⟨?_, ?_⟩
  · rintro (htransform | ⟨hsrc, rfl | rfl | rfl⟩) hcap ⟨a, ha, hun⟩
    · obtain ⟨f, hexec, -, -⟩ := exec_codec (.inl htransform) s
      exact hexec.trans (transform_refused hcap ha hun (fullKind i) f)
    all_goals exact sourceRange_refused hsrc hcap ha hun _
  · rintro (rfl | rfl | rfl) hv ⟨a, ha, hun⟩
    all_goals exact readingCommand_refused hv ha hun _

end Sys2Proof.Machine
end

section
/-! SUPPORT. The host's reads and its writes to the input (20 R65 to R69, 70 R369, R370): the value each read returns, and what a write to
IBUF or ILEN makes of the state. -/

namespace Sys2Proof.Machine

-- As in the tests: one thread, so that the check stays inside its memory limit.
set_option Elab.async false

/-! ## Reads change nothing but the record -/

/-- The value that a read of the host returns, a byte in bits 7 to 0; the other accesses return none. -/
def readValue (s : State) : HostAction → Word
  | .readReg r => hostReadReg s r
  | .readIbuf i => (hostReadIbuf s i).setWidth 32
  | .readObuf i => (hostReadObuf s i).setWidth 32
  | .reset | .writeReg _ _ | .writeIbuf _ _ => 0

theorem hostAccess_read (s : State) {a : HostAction} (ha : isHostRead a = true) : hostAccess s a = recordRead s (readValue s a) := by
  cases a with
  | readReg | readIbuf | readObuf => rfl
  | reset | writeReg | writeIbuf => cases ha

@[simp] theorem registerValue_recordRead (s : State) (v : Word) (r : Nat) : registerValue (recordRead s v) r = registerValue s r := by
  unfold registerValue
  split <;> rfl

@[simp] theorem readableNow_recordRead (s : State) (v : Word) (r : Nat) : readableNow (recordRead s v) r = readableNow s r := rfl

@[simp] theorem hostReadReg_recordRead (s : State) (v : Word) (r : Nat) : hostReadReg (recordRead s v) r = hostReadReg s r := by
  simp [hostReadReg]

@[simp] theorem hostReadIbuf_recordRead (s : State) (v : Word) (i : Nat) : hostReadIbuf (recordRead s v) i = hostReadIbuf s i := rfl

@[simp] theorem hostReadObuf_recordRead (s : State) (v : Word) (i : Nat) : hostReadObuf (recordRead s v) i = hostReadObuf s i := rfl

/-- What a read returns does not depend on what was read before it (R65): the record is no input of a read, and the epoch stays. -/
theorem readValue_recordRead (s : State) (v : Word) (a : HostAction) : readValue (recordRead s v) a = readValue s a := by
  cases a with
  | readReg r => exact hostReadReg_recordRead s v r
  | readIbuf i => exact congrArg (BitVec.setWidth 32) (hostReadIbuf_recordRead s v i)
  | readObuf i => exact congrArg (BitVec.setWidth 32) (hostReadObuf_recordRead s v i)
  | reset | writeReg | writeIbuf => rfl

/-- A read repeats its value after another read. -/
theorem readValue_hostAccess (s : State) {b : HostAction} (hb : isHostRead b = true) (a : HostAction) :
    readValue (hostAccess s b) a = readValue s a := by
  rw [hostAccess_read s hb, readValue_recordRead]

/-- Settles O13: a read puts its value at the front of the record, and the record is no input of a read. -/
theorem hostReadsChangeNothing : Obligations.HostReadsChangeNothing := by
  refine fun s a ha => ⟨readValue s a, hostAccess_read s ha, fun b hb => ?_⟩
  have hrepeat := hostAccess_read (hostAccess s b) ha
  rwa [readValue_hostAccess s hb] at hrepeat

/-! ## What a read returns -/

theorem hostReadReg_of_readable {s : State} {r : Nat} (h : readableNow s r = true) : hostReadReg s r = registerValue s r :=
  if_pos h

theorem readableNow_idle {s : State} (hb : s.busy = false) (r : Nat) : readableNow s r = true := by
  simp [readableNow, hb]

/-- CMD, STATUS, ARG0, ARG1 and ID are readable while busy too (R369). -/
theorem readableNow_always (s : State) {r : Nat} (hr : r = 0 ∨ r = 1 ∨ r = 3 ∨ r = 4 ∨ r = 16) : readableNow s r = true := by
  rcases hr with rfl | rfl | rfl | rfl | rfl <;> simp [readableNow]

/-- ILEN is readable while busy unless XFER, which writes it, is pending (R369). -/
theorem readableNow_ilen {s : State} (h : s.busy = false ∨ s.cmd ≠ 0x00000001#32) : readableNow s 7 = true := by
  rcases h with hidle | hcmd
  · exact readableNow_idle hidle 7
  · simp [readableNow, pendingXfer, hcmd]

theorem hostReadReg_always (s : State) {r : Nat} (hr : r = 0 ∨ r = 1 ∨ r = 3 ∨ r = 4 ∨ r = 16) :
    hostReadReg s r = registerValue s r :=
  hostReadReg_of_readable (readableNow_always s hr)

section
variable {s : State} (hb : s.busy = false)
include hb

theorem hostReadReg_idle (r : Nat) : hostReadReg s r = registerValue s r := hostReadReg_of_readable (readableNow_idle hb r)

/-- A written byte of IBUF (R67, R69). -/
theorem hostReadIbuf_written {i : Nat} {b : Byte} (hi : i < s.caps.ibufCap) (hr : s.ibuf.read i = some b) :
    hostReadIbuf s i = b := by
  simp [hostReadIbuf, hb, hi, hr]

/-- A listed byte of OBUF below OLEN (R68, R69). -/
theorem hostReadObuf_valid {i : Nat} {b : Byte} (hlen : i < s.olen.toNat) (hcap : i < s.caps.obufCap)
    (hr : s.obuf.read i = some b) : hostReadObuf s i = b := by
  simp [hostReadObuf, hb, hlen, hcap, hr]

/-- A byte of the last output: it is below OLEN, which is within the capacity. -/
theorem hostReadObuf_output {y : List Byte} {i : Nat} {b : Byte} (hform : OutputForm s) (hout : OutputIs s y)
    (hget : y[i]? = some b) : hostReadObuf s i = b := by
  obtain ⟨hlen, hread⟩ := hout
  have hi : i < s.olen.toNat := by
    obtain ⟨hlt, -⟩ := List.getElem?_eq_some_iff.mp hget
    rwa [hlen]
  have hbyte : s.obuf.read i = some b := by
    rw [← hget, ← (readRange_eq_some_iff.mp hread).2 i hi, Nat.zero_add]
  exact hostReadObuf_valid hb hi (Nat.lt_of_lt_of_le hi hform.2) hbyte

end

/-- Settles O14: the registers by the numbers that are readable, the buffers by their written bytes. -/
theorem hostReadsReturnTheState : Obligations.HostReadsReturnTheState := by
  refine fun s => ⟨fun h => hostReadReg_of_readable (readableNow_ilen h), hostReadReg_always s (by simp),
    hostReadReg_always s (by simp), hostReadReg_always s (by simp), hostReadReg_always s (by simp),
    hostReadReg_always s (by simp), fun hb => ?_⟩
  have hreg := hostReadReg_idle hb
  exact ⟨hreg 2, hreg 5, hreg 6, hreg 8, hreg 9, hreg 10, hreg 11, hreg 12, hreg 13, hreg 14, hreg 15,
    fun _ _ hi hr => hostReadIbuf_written hb hi hr, fun _ _ _ hform hout hget => hostReadObuf_output hb hform hout hget⟩

/-! ## Writes to the input -/

/-- The state after a host write that leaves the bytes `m` in IBUF and `v` in ILEN (R370): the bit reader is invalid. -/
def inputWritten (s : State) (m : Memory) (v : Word) : State :=
  { s with ibuf := m, ilen := v, brCtrl := brInvalidated s, epoch := s.epoch + 1 }

theorem hostWriteIbuf_idle {s : State} (hb : s.busy = false) {i : Nat} (hi : i < s.caps.ibufCap) (b : Byte) :
    hostWriteIbuf s i b = inputWritten s (s.ibuf.write i b) s.ilen := by
  rw [hostWriteIbuf, if_pos hi, if_neg (by simp [hb])]
  rfl

theorem hostWriteIbuf_outside {s : State} {i : Nat} (hi : s.caps.ibufCap ≤ i) (b : Byte) :
    hostWriteIbuf s i b = { s with epoch := s.epoch + 1 } :=
  if_neg (Nat.not_lt.mpr hi)

/-- The bit reader is invalid and its other registers are as before, and so are the flags, the operands and what `HostKeeps` names. -/
def ReaderInvalidatedOnly (s t : State) : Prop :=
  t.brValid = false ∧ t.brKind = s.brKind ∧ t.brLen = s.brLen ∧ t.brBits = s.brBits ∧ t.brBytes = s.brBytes ∧
    t.status = s.status ∧ t.errcode = s.errcode ∧ t.cmd = s.cmd ∧ t.arg0 = s.arg0 ∧ t.arg1 = s.arg1 ∧ HostKeeps s t

theorem hostKeeps_inputWritten (s : State) (m : Memory) (v : Word) : HostKeeps s (inputWritten s m v) :=
  ⟨rfl, rfl, rfl, rfl, ⟨rfl, fun _ => rfl⟩, rfl, ⟨rfl, rfl⟩, rfl, rfl, rfl⟩

theorem inputWritten_readerInvalidatedOnly (s : State) (m : Memory) (v : Word) : ReaderInvalidatedOnly s (inputWritten s m v) :=
  ⟨brInvalidated_bit0 s, brInvalidated_bit1 s, rfl, rfl, rfl, rfl, rfl, rfl, rfl, rfl, hostKeeps_inputWritten s m v⟩

/-- Settles O15: both writes are `inputWritten`, one with a byte stored and one with a new length. -/
theorem inputWritesInvalidateTheReader : Obligations.InputWritesInvalidateTheReader := by
  refine fun s hb => ⟨?_, ?_, fun i b hi => hostWriteIbuf_outside hi b⟩
  · rintro i b hi t rfl
    have hw : hostAccess s (.writeIbuf i b) = inputWritten s (s.ibuf.write i b) s.ilen := hostWriteIbuf_idle hb hi b
    rw [hw]
    exact ⟨read_write_same s.ibuf i b, fun _ ha => read_write_other s.ibuf b ha, rfl, inputWritten_readerInvalidatedOnly s _ _⟩
  · rintro v t rfl
    have hw : hostAccess s (.writeReg 7 v) = inputWritten s s.ibuf v := hostWriteReg_ilen hb v
    rw [hw]
    exact ⟨rfl, fun _ => rfl, inputWritten_readerInvalidatedOnly s _ _⟩

end Sys2Proof.Machine
end

section
/-! SUPPORT. The housekeeping commands and the errors of a command (40 R130 to R132, 60 R333): what NOP and XFER leave, the frame checks on
the length of the input, and the errors of the codec functions. -/

namespace Sys2Proof.Machine

-- As in the tests: one thread, so that the check stays inside its memory limit.
set_option Elab.async false

/-! ## Completing the state a command started from -/

theorem keepsRest_completeOk (s : State) (r0 r1 : Word) : KeepsRest s (completeOk s r0 r1) :=
  ⟨⟨rfl, rfl, rfl, rfl, rfl, rfl, rfl⟩, ⟨rfl, fun _ => rfl⟩, ⟨rfl, fun _ => rfl⟩, rfl, ⟨rfl, rfl, rfl, rfl⟩, ⟨rfl, rfl⟩⟩

theorem keepsRest_completeErr (s : State) (k : ErrKind) : KeepsRest s (completeErr s k) :=
  ⟨⟨rfl, rfl, rfl, rfl, rfl, rfl, rfl⟩, ⟨rfl, fun _ => rfl⟩, ⟨rfl, fun _ => rfl⟩, rfl, ⟨rfl, rfl, rfl, rfl⟩, ⟨rfl, rfl⟩⟩

theorem completeErr_failedOnly (s : State) (k : ErrKind) : FailedOnly s (completeErr s k) k :=
  ⟨completedErr_of k rfl rfl, keepsRest_completeErr s k⟩

/-- A result that is an error of the state the command started from changes nothing else (R333). -/
theorem failsOnly_of_failWith {s : State} {k : ErrKind} {o : Result} (ho : o = failWith s k) : ∃ t, o = .next t ∧ FailedOnly s t k :=
  ⟨completeErr s k, ho, completeErr_failedOnly s k⟩

/-! ## The frame checks on ILEN (R130 steps 2 to 4) -/

/-- An input that is too long or empty stops a transform command before it reads a byte: there is no non-empty input within IBUF then, and
the refusal of an unwritten byte comes after both checks. -/
theorem transform_frameError {s : State} (hlen : s.caps.ibufCap < s.ilen.toNat ∨ s.ilen = 0) (full : ErrKind)
    (f : List Byte → Except ErrKind (List Byte × Word)) : transform s full f = failWith (takeOver s) .invalidParameter := by
  have not_both_passed (hcap : s.ilen.toNat ≤ s.caps.ibufCap) (hne : s.ilen ≠ 0) : False :=
    hlen.elim (Nat.not_lt.mpr hcap) hne
  rcases transform_cases (s := s) (full := full) (f := f) rfl with ⟨-, ho⟩ | ⟨hcap, hne, -, -⟩ | ⟨x, ⟨hcap, hread⟩, hx, -⟩
  · exact ho
  · exact (not_both_passed hcap hne).elim
  · refine (not_both_passed hcap fun hzero => ?_).elim
    rw [hzero] at hread
    exact hx (List.length_eq_zero_iff.mp (readRange_length hread))

/-- A CRC command with source IBUF checks the length before it reads a byte. -/
theorem sourceRange_tooLong {s : State} (hsrc : s.arg0Bit = false) (hlong : s.caps.ibufCap < s.ilen.toNat)
    (f : List Byte → Result) : sourceRange s f = failWith s .invalidParameter := by
  rw [sourceRange, if_neg (by simp [hsrc]), ibufRange, if_pos hlong]

theorem execBrCreate_tooLong {s : State} (hlong : s.caps.ibufCap < s.ilen.toNat) : execBrCreate s = failWith s .invalidParameter :=
  if_pos hlong

/-- Settles O28: a transform command is `transform` of its codec, which takes the output over before the checks; BR_CREATE and the CRC
commands fail on the state they started from. -/
theorem frameChecksComeFirst : Obligations.FrameChecksComeFirst := by
  refine fun i s => ⟨fun htransform hlen => ?_, ?_⟩
  · obtain ⟨f, hexec, -, -⟩ := exec_codec (.inl htransform) s
    exact ⟨_, hexec.trans (transform_frameError hlen (fullKind i) f), transformFailed_takeOver s .invalidParameter⟩
  · rintro (rfl | ⟨hsrc, rfl | rfl | rfl⟩) hlong
    · exact failsOnly_of_failWith (execBrCreate_tooLong hlong)
    all_goals exact failsOnly_of_failWith (sourceRange_tooLong hsrc hlong _)

/-! ## The errors of the codec functions (R130 step 5, R343) -/

/-- Settles O46: on a non-empty input a transform command or a tag row is `transform` of a function that agrees with its codec, and
`transform` fails with that function's error or, where its output does not fit, with the kind of D19. -/
theorem codecErrorsAreReported : Obligations.CodecErrorsAreReported := by
  intro i s x hi hx hne
  obtain ⟨f, hexec, hcodec, -⟩ := exec_codec hi s
  have hfx : f x = codecOf s x i := hcodec x hx
  unfold Fails
  rw [hexec]
  exact ⟨fun _ herr => transform_fails hx hne (hfx.trans herr),
    fun _ _ hok hlong => transform_overflows hx hne (hfx.trans hok) hlong⟩

/-! ## NOP (R131) -/

/-- Settles O30: NOP completes the state as it is. -/
theorem nopCompletes : Obligations.NopCompletes :=
  ⟨rfl, fun s => ⟨completeOk s 0 0, rfl, completedOk_of 0 0 rfl rfl, keepsRest_completeOk s 0 0⟩⟩

/-! ## XFER (R132) -/

theorem obufRange_eq {s : State} {y : List Byte} (hy : OutputIs s y) (f : List Byte → Result) : obufRange s f = f y := by
  rw [obufRange, writtenRange, hy.2]

/-- The state XFER completes: the bytes `y` at the front of IBUF, their number in ILEN, and no bit reader. -/
def transferred (s : State) (y : List Byte) : State :=
  { s with ibuf := Memory.writeBytes s.ibuf 0 y, ilen := s.olen, brCtrl := brInvalidated s }

theorem execXfer_fits {s : State} {y : List Byte} (hy : OutputIs s y) (hfit : y.length ≤ s.caps.ibufCap) :
    execXfer s = succeed (transferred s y) s.olen 0 := by
  have hlen : ¬ s.caps.ibufCap < s.olen.toNat := by rw [hy.1]; exact Nat.not_lt.mpr hfit
  rw [execXfer, if_neg hlen, obufRange_eq hy]
  rfl

theorem execXfer_tooLong {s : State} (hlong : s.caps.ibufCap < s.olen.toNat) : execXfer s = failWith s .invalidParameter :=
  if_pos hlong

theorem readRange_transferred {s : State} {y : List Byte} (hy : OutputIs s y) :
    (transferred s y).ibuf.readRange 0 s.olen.toNat = some y := by
  rw [hy.1]
  exact readRange_writeBytes s.ibuf 0 y

theorem read_transferred_above {s : State} {y : List Byte} (hy : OutputIs s y) {a : Nat} (ha : s.olen.toNat ≤ a) :
    (transferred s y).ibuf.read a = s.ibuf.read a := by
  rw [hy.1] at ha
  exact read_writeBytes_outside y s.ibuf (.inr ((Nat.zero_add _).symm ▸ ha))

/-- Settles O31: an output that fits is written over the front of IBUF, and a longer one fails before a byte is read. -/
theorem xferMovesTheOutput : Obligations.XferMovesTheOutput := by
  refine fun s => ⟨fun y hy hfit => ?_, fun hlong => failsOnly_of_failWith (execXfer_tooLong hlong)⟩
  exact ⟨completeOk (transferred s y) s.olen 0, execXfer_fits hy hfit, completedOk_of _ _ rfl rfl, rfl, readRange_transferred hy,
    fun _ ha => read_transferred_above hy ha, brInvalidated_bit0 s, brInvalidated_bit1 s, rfl, rfl, rfl,
    ⟨rfl, rfl, rfl, rfl, rfl, rfl, rfl⟩, ⟨rfl, fun _ => rfl⟩, rfl, ⟨rfl, rfl⟩⟩

end Sys2Proof.Machine
end

section
/-! SUPPORT. The bit reader commands (41 R140 to R150): what each of them is once its checks have passed, where it leaves the cursor, and how
it fails. -/

namespace Sys2Proof.Machine

-- As in the tests: one thread, so that the check stays inside its memory limit.
set_option Elab.async false

variable {s : State} {src : List Byte}

/-! ## The check for a reader, and the source -/

theorem withReader_of_valid (hv : s.brValid = true) (body : Result) : withReader s body = body := if_pos hv

theorem withReader_of_invalid (hv : s.brValid = false) (body : Result) : withReader s body = failWith s .invalidParameter :=
  if_neg (by simp [hv])

/-- A source that is written throughout has bytes. -/
theorem exists_readRange_of_written {m : Memory} {n : Nat} (h : ∀ a, a < n → m.read a ≠ none) : ∃ x, m.readRange 0 n = some x :=
  readRange_of_indices fun a ha => read_isSome_iff.mp (Option.isSome_iff_ne_none.mpr (h a ha))

/-- With a reader and a written source, a reading command is what it does with the source. -/
theorem readingCommand_eq (hv : s.brValid = true) (hsrc : s.ibuf.readRange 0 s.brLen.toNat = some src) (f : List Byte → Result) :
    withReader s (readerSource s f) = f src :=
  (withReader_of_valid hv _).trans (readerSource_eq hsrc f)

/-- Too few bits are left, without the cut-off subtraction of `avail`. -/
theorem brAvail_lt_iff (hp : s.brBits.toNat ≤ 8 * s.brLen.toNat) (n : Nat) :
    s.brAvail < n ↔ 8 * s.brLen.toNat < s.brBits.toNat + n := by
  unfold State.brAvail
  omega

/-! ## Where the cursor goes -/

/-- Both counters of a cursor inside the source fit their registers, as a source has at most 2^31 bits (R7, R32, R33). -/
theorem readerAt_counters (hlen : s.brLen.toNat ≤ 2 ^ 28) {p : Nat} (hp : p ≤ 8 * s.brLen.toNat) :
    (readerAt s p).brBits.toNat = p ∧ (readerAt s p).brBytes.toNat = (p + 7) / 8 := by
  simp only [readerAt_brBits, readerAt_brBytes, BitVec.toNat_ofNat]
  omega

/-- Succeeding with the cursor at `p` moves the reader there and changes nothing else. -/
theorem succeed_readerAt_moves (hlen : s.brLen.toNat ≤ 2 ^ 28) {p : Nat} (hp : p ≤ 8 * s.brLen.toNat) (r0 : Word) :
    ∃ t, succeed (readerAt s p) r0 0 = .next t ∧ MovedTo s t p r0 := by
  obtain ⟨hbits, hbytes⟩ := readerAt_counters hlen hp
  exact ⟨_, rfl, completedOk_of _ _ rfl rfl, rfl, rfl, hbits, hbytes, ⟨rfl, rfl, rfl, rfl, rfl, rfl, rfl⟩, ⟨rfl, fun _ => rfl⟩,
    ⟨rfl, fun _ => rfl⟩, rfl, ⟨rfl, rfl⟩⟩

/-- Running out of bits makes the reader invalid and changes nothing else (R150). -/
theorem failEof_loses (s : State) : ∃ t, failEof s = .next t ∧ ReaderLost s t :=
  ⟨_, rfl, completedErr_of _ rfl rfl, brInvalidated_bit0 s, brInvalidated_bit1 s, rfl, rfl, rfl,
    ⟨rfl, rfl, rfl, rfl, rfl, rfl, rfl⟩, ⟨rfl, fun _ => rfl⟩, ⟨rfl, fun _ => rfl⟩, rfl, ⟨rfl, rfl⟩⟩

/-- Reading bits that are left returns the sum of R62 and moves past them. -/
theorem readBits_moves (hlen : s.brLen.toNat ≤ 2 ^ 28) {n : Nat} (hn : s.brBits.toNat + n ≤ 8 * s.brLen.toNat) :
    ∃ t, readBits s src n = .next t ∧
      MovedTo s t (s.brBits.toNat + n) (BitVec.ofNat 32 (fieldValue src s.brBits.toNat n)) := by
  have henough : ¬ s.brAvail < n := by rw [brAvail_lt_iff (by omega)]; omega
  rw [readBits, if_neg henough, peek_eq_fieldValue]
  exact succeed_readerAt_moves hlen hn _

theorem readBits_loses (hp : s.brBits.toNat ≤ 8 * s.brLen.toNat) {n : Nat} (hn : 8 * s.brLen.toNat < s.brBits.toNat + n) :
    ∃ t, readBits s src n = .next t ∧ ReaderLost s t := by
  rw [readBits, if_pos ((brAvail_lt_iff hp n).mpr hn)]
  exact failEof_loses s

/-! ## BR_CREATE (R142) -/

theorem brCtrlWord_true (k : Bool) : brCtrlWord true k = if k then 3#32 else 1#32 := by cases k <;> rfl

/-- Settles O32: the input fits IBUF, so the reader is made whatever bytes of it are written. -/
theorem brCreateMakesAReader : Obligations.BrCreateMakesAReader := by
  intro s hfit
  have hexec : exec .brCreate s =
      succeed { s with brLen := s.ilen, brBits := 0, brBytes := 0, brCtrl := brCtrlWord true s.arg0Bit } 0 0 :=
    if_neg (Nat.not_lt.mpr hfit)
  exact ⟨_, hexec, completedOk_of _ _ rfl rfl, rfl, rfl, rfl, brCtrlWord_true s.arg0Bit, ⟨rfl, rfl, rfl, rfl, rfl, rfl, rfl⟩,
    ⟨rfl, fun _ => rfl⟩, ⟨rfl, fun _ => rfl⟩, rfl, ⟨rfl, rfl⟩⟩

/-! ## The reading commands (R143 to R146) -/

theorem exec_brReadBit_eq (hv : s.brValid = true) (hsrc : s.ibuf.readRange 0 s.brLen.toNat = some src) :
    exec .brReadBit s = readBits s src 1 :=
  readingCommand_eq hv hsrc _

theorem exec_brReadByte_eq (hv : s.brValid = true) (hsrc : s.ibuf.readRange 0 s.brLen.toNat = some src) :
    exec .brReadByte s = readBits s src 8 :=
  readingCommand_eq hv hsrc _

theorem exec_brReadBits_eq (hv : s.brValid = true) (hsrc : s.ibuf.readRange 0 s.brLen.toNat = some src)
    (h1 : 1 ≤ s.arg0.toNat) (h32 : s.arg0.toNat ≤ 32) : exec .brReadBits s = readBits s src s.arg0.toNat :=
  (readingCommand_eq hv hsrc _).trans (if_neg (not_or.mpr ⟨Nat.not_lt.mpr h1, Nat.not_lt.mpr h32⟩))

theorem exec_brReadBits_badCount (hv : s.brValid = true) (hsrc : s.ibuf.readRange 0 s.brLen.toNat = some src)
    (hn : s.arg0.toNat < 1 ∨ 32 < s.arg0.toNat) : exec .brReadBits s = failWith s .invalidParameter :=
  (readingCommand_eq hv hsrc _).trans (if_pos hn)

/-- Settles O33: each reading command is `readBits` of its count on the reader's source. -/
theorem readsReturnTheBitsAtTheCursor : Obligations.ReadsReturnTheBitsAtTheCursor := by
  rintro s src ⟨⟨-, hmax, -, -⟩, hv, hcap, -, hsrc⟩
  have hlen : s.brLen.toNat ≤ 2 ^ 28 := hcap.trans hmax
  refine ⟨fun hn => ?bit, fun h1 h32 hn => ⟨?bound, ?bits⟩, fun hn => ?byte⟩
  case bit =>
    rw [exec_brReadBit_eq hv hsrc]
    exact readBits_moves hlen hn
  case bound =>
    rw [← peek_eq_fieldValue]
    exact peek_lt ..
  case bits =>
    rw [exec_brReadBits_eq hv hsrc h1 h32]
    exact readBits_moves hlen hn
  case byte =>
    rw [exec_brReadByte_eq hv hsrc]
    exact readBits_moves hlen hn

/-! ## The moving commands (R147 to R149) -/

theorem exec_brSkipBits_eq (hv : s.brValid = true) (hn : s.brBits.toNat + s.arg0.toNat ≤ 8 * s.brLen.toNat) :
    exec .brSkipBits s = succeed (readerAt s (s.brBits.toNat + s.arg0.toNat)) 0 0 :=
  (withReader_of_valid hv _).trans (if_neg (by rw [brAvail_lt_iff (by omega)]; omega))

theorem exec_brSkipBits_short (hv : s.brValid = true) (hp : s.brBits.toNat ≤ 8 * s.brLen.toNat)
    (hn : 8 * s.brLen.toNat < s.brBits.toNat + s.arg0.toNat) : exec .brSkipBits s = failEof s :=
  (withReader_of_valid hv _).trans (if_pos ((brAvail_lt_iff hp _).mpr hn))

theorem exec_brAlign_eq (hv : s.brValid = true) : exec .brAlign s = succeed (readerAt s (ceil8 s.brBits.toNat)) 0 0 :=
  withReader_of_valid hv _

theorem exec_brSeek_eq (hv : s.brValid = true) (hk : s.brKind = true) (hq : s.arg0.toNat ≤ 8 * s.brLen.toNat) :
    exec .brSeek s = succeed (readerAt s s.arg0.toNat) 0 0 :=
  (withReader_of_valid hv _).trans ((if_pos hk).trans (if_neg (Nat.not_lt.mpr hq)))

theorem exec_brSeek_beyond (hv : s.brValid = true) (hk : s.brKind = true) (hq : 8 * s.brLen.toNat < s.arg0.toNat) :
    exec .brSeek s = failEof s :=
  (withReader_of_valid hv _).trans ((if_pos hk).trans (if_pos hq))

theorem exec_brSeek_bufferBacked (hv : s.brValid = true) (hk : s.brKind = false) :
    exec .brSeek s = failWith s .invalidParameter :=
  (withReader_of_valid hv _).trans (if_neg (by simp [hk]))

/-- Settles O34: each moving command succeeds with the cursor at a position inside the source. -/
theorem movesSetTheCursor : Obligations.MovesSetTheCursor := by
  rintro s ⟨-, hmax, -, -⟩ hv hcap hp
  have hlen : s.brLen.toNat ≤ 2 ^ 28 := hcap.trans hmax
  refine ⟨fun hn => ?skip, ?align, fun hk hq => ?seek⟩
  case skip =>
    rw [exec_brSkipBits_eq hv hn]
    exact succeed_readerAt_moves hlen hn 0
  case align =>
    rw [exec_brAlign_eq hv]
    exact succeed_readerAt_moves hlen (ceil8_le hp) 0
  case seek =>
    rw [exec_brSeek_eq hv hk hq]
    exact succeed_readerAt_moves hlen hq 0

/-! ## The failures (R140, R150) -/

/-- Settles O35: each failure is `failWith` of the state the command started from, or `failEof`. -/
theorem readerFailures : Obligations.ReaderFailures := by
  refine fun s => ⟨?noReader, fun hv hp => ⟨fun hwritten => ?reads, fun hn => ?skip, fun hk => ?bufferBacked, fun hk hq => ?beyond⟩⟩
  case noReader =>
    rintro hv i (rfl | rfl | rfl | rfl | rfl | rfl)
    all_goals exact failsOnly_of_failWith (withReader_of_invalid hv _)
  case reads =>
    obtain ⟨src, hsrc⟩ := exists_readRange_of_written hwritten
    refine ⟨fun hn => ?bit, fun hcount => ?count, fun h1 h32 hn => ?bits, fun hn => ?byte⟩
    case bit =>
      rw [exec_brReadBit_eq hv hsrc]
      exact readBits_loses hp hn
    case count => exact failsOnly_of_failWith (exec_brReadBits_badCount hv hsrc hcount)
    case bits =>
      rw [exec_brReadBits_eq hv hsrc h1 h32]
      exact readBits_loses hp hn
    case byte =>
      rw [exec_brReadByte_eq hv hsrc]
      exact readBits_loses hp hn
  case skip =>
    rw [exec_brSkipBits_short hv hp hn]
    exact failEof_loses s
  case bufferBacked => exact failsOnly_of_failWith (exec_brSeek_bufferBacked hv hk)
  case beyond =>
    rw [exec_brSeek_beyond hv hk hq]
    exact failEof_loses s

end Sys2Proof.Machine
end

section
/-! SUPPORT. The bit writer commands (41 R151 to R156): a write and a flush as `writeBits` of the bits they append, and the overflow. -/

namespace Sys2Proof.Machine

-- As in the tests: one thread, so that the check stays inside its memory limit.
set_option Elab.async false

variable {s : State}

/-! ## The check for a writer, and the overflow -/

theorem withWriter_of_valid (hv : s.bwValid = true) (body : Result) : withWriter s body = body := if_pos hv

theorem withWriter_of_invalid (hv : s.bwValid = false) (body : Result) : withWriter s body = failWith s .invalidParameter :=
  if_neg (by simp [hv])

/-- The overflow loses the writer and changes nothing else (R156). -/
theorem writerOverflow_loses (s : State) : ∃ t, writerOverflow s = .next t ∧ WriterLost s t :=
  ⟨_, rfl, completedErr_of _ rfl rfl, rfl, ⟨rfl, rfl, rfl, rfl, rfl, rfl, rfl⟩, ⟨rfl, fun _ => rfl⟩, ⟨rfl, fun _ => rfl⟩,
    ⟨rfl, rfl, rfl, rfl⟩, ⟨rfl, rfl⟩⟩

/-! ## BW_CREATE (R152) -/

/-- Settles O36: the command makes no check. -/
theorem bwCreateMakesAWriter : Obligations.BwCreateMakesAWriter :=
  ⟨rfl, fun _ => ⟨_, rfl, completedOk_of _ _ rfl rfl, rfl, rfl, read_nil, ⟨rfl, rfl, rfl, rfl, rfl, rfl, rfl⟩,
    ⟨rfl, fun _ => rfl⟩, ⟨rfl, rfl, rfl, rfl⟩, ⟨rfl, rfl⟩⟩⟩

/-! ## BW_WRITE_BIT and BW_WRITE_BITS (R153, R154) -/

theorem exec_bwWriteBit_eq (hv : s.bwValid = true) (hroom : ¬ (s.bwNbits = 7 ∧ s.olen.toNat = s.caps.obufCap)) :
    exec .bwWriteBit s = writeBits s [s.arg0Bit] :=
  (withWriter_of_valid hv _).trans (if_neg hroom)

theorem exec_bwWriteBit_full (hv : s.bwValid = true) (hfull : s.bwNbits = 7 ∧ s.olen.toNat = s.caps.obufCap) :
    exec .bwWriteBit s = writerOverflow s :=
  (withWriter_of_valid hv _).trans (if_pos hfull)

theorem exec_bwWriteBits_eq (hv : s.bwValid = true) (h1 : 1 ≤ s.arg0.toNat) (h32 : s.arg0.toNat ≤ 32)
    (hroom : s.olen.toNat + (s.bwNbits + s.arg0.toNat) / 8 ≤ s.caps.obufCap) :
    exec .bwWriteBits s = writeBits s (lowBits s.arg0.toNat s.arg1) :=
  (withWriter_of_valid hv _).trans
    ((if_neg (not_or.mpr ⟨Nat.not_lt.mpr h1, Nat.not_lt.mpr h32⟩)).trans (if_neg (Nat.not_lt.mpr hroom)))

theorem exec_bwWriteBits_badCount (hv : s.bwValid = true) (hn : s.arg0.toNat < 1 ∨ 32 < s.arg0.toNat) :
    exec .bwWriteBits s = failWith s .invalidParameter :=
  (withWriter_of_valid hv _).trans (if_pos hn)

theorem exec_bwWriteBits_full (hv : s.bwValid = true) (h1 : 1 ≤ s.arg0.toNat) (h32 : s.arg0.toNat ≤ 32)
    (hfull : s.caps.obufCap < s.olen.toNat + (s.bwNbits + s.arg0.toNat) / 8) : exec .bwWriteBits s = writerOverflow s :=
  (withWriter_of_valid hv _).trans ((if_neg (not_or.mpr ⟨Nat.not_lt.mpr h1, Nat.not_lt.mpr h32⟩)).trans (if_pos hfull))

@[simp] theorem lowBits_length (n : Nat) (v : Word) : (lowBits n v).length = n := by simp [lowBits]

/-! ## BW_FLUSH (R155) -/

/-- Putting a 0 leaves the incomplete byte as it is. -/
theorem putBit_false (w : BitSink) :
    putBit w false = if w.k + 1 = 8 then { bytes := w.bytes ++ [w.acc], acc := 0, k := 0 } else { w with k := w.k + 1 } := by
  simp [putBit]

/-- Zeros up to the byte boundary complete the byte as it is. -/
theorem putBits_zeros_toBoundary (n : Nat) : ∀ {w : BitSink}, w.k + (n + 1) = 8 →
    putBits w (List.replicate (n + 1) false) = { bytes := w.bytes ++ [w.acc], acc := 0, k := 0 } := by
  induction n with
  | zero =>
    intro w hk
    show putBit w false = _
    rw [putBit_false, if_pos hk]
  | succ n ih =>
    intro w hk
    show putBits (putBit w false) (List.replicate (n + 1) false) = _
    rw [putBit_false, if_neg (by omega)]
    exact ih (by simp only; omega)

/-- The sink a writer starts from, stored again, changes nothing. -/
theorem storeSink_sinkOf (hf : WriterForm s) : storeSink s (sinkOf s) = s := by
  have hctrl : bwCtrlWord (sinkOf s).k (sinkOf s).acc = s.bwCtrl := hf.1.symm
  have holen : BitVec.ofNat 32 (s.olen.toNat + (sinkOf s).bytes.length) = s.olen := BitVec.ofNat_toNat ..
  rw [storeSink, hctrl, holen]
  rfl

/-- A flush with room for its byte writes 0 bits up to the byte boundary, none where no bit is pending. -/
theorem exec_bwFlush_eq (hv : s.bwValid = true) (hf : WriterForm s) (hroom : s.bwNbits = 0 ∨ s.olen.toNat < s.caps.obufCap) :
    exec .bwFlush s = writeBits s (List.replicate ((8 - s.bwNbits) % 8) false) := by
  refine (withWriter_of_valid hv _).trans ?_
  rcases Nat.eq_zero_or_pos s.bwNbits with hk | hk
  case inl =>
    have hstore : storeSink s (putBits (sinkOf s) []) = s := storeSink_sinkOf hf
    rw [if_neg (by omega), hk]
    show _ = writeBits s []
    rw [writeBits, hstore, streamBits, hk]
    rfl
  case inr =>
    have hlt := bwNbits_lt s
    obtain ⟨n, hn⟩ : ∃ n, (8 - s.bwNbits) % 8 = n + 1 := ⟨7 - s.bwNbits, by omega⟩
    have hput : putBits (sinkOf s) (List.replicate (n + 1) false) = { bytes := [s.bwAcc], acc := 0, k := 0 } :=
      putBits_zeros_toBoundary n (show s.bwNbits + (n + 1) = 8 by omega)
    obtain ⟨-, hpending, -⟩ := writer_of_bwCtrlWord (storeSink_bwCtrl s { bytes := [s.bwAcc], acc := 0, k := 0 })
    rw [if_pos hk, if_neg (by omega), hn, writeBits, hput, streamBits, hpending]
    rfl

theorem exec_bwFlush_full (hv : s.bwValid = true) (hk : 0 < s.bwNbits) (hfull : s.olen.toNat = s.caps.obufCap) :
    exec .bwFlush s = writerOverflow s :=
  (withWriter_of_valid hv _).trans ((if_pos hk).trans (if_pos hfull))

/-- How many bits are pending after a write. -/
theorem writeBits_nbits (hf : WriterForm s) {bs : List Bool} {t : State} (ht : writeBits s bs = .next t) :
    t.bwNbits = (s.bwNbits + bs.length) % 8 := by
  obtain ⟨⟨hk, -⟩, -, hcount⟩ := putBits_spec bs (sinkForm_sinkOf hf)
  have hstart : 8 * (sinkOf s).bytes.length + (sinkOf s).k = s.bwNbits := Nat.zero_add _
  cases ht
  obtain ⟨-, hnbits, -⟩ := writer_of_bwCtrlWord (storeSink_bwCtrl s (putBits (sinkOf s) bs))
  show (storeSink s (putBits (sinkOf s) bs)).bwNbits = _
  omega

/-! ## The obligations -/

/-- Settles O37: each writing command is `writeBits` of the bits it appends, whose new bytes fit. -/
theorem writesAppendToTheStream : Obligations.WritesAppendToTheStream := by
  intro s old h
  have ⟨_, hv, hf, ⟨_, hle⟩, _⟩ := h
  have hlt := bwNbits_lt s
  refine ⟨fun hroom => ?bit, fun h1 h32 hroom => ?bits, fun hroom => ?flush⟩
  case bit =>
    rw [exec_bwWriteBit_eq hv hroom]
    exact writeBits_spec h (by rw [List.length_singleton]; omega)
  case bits =>
    rw [exec_bwWriteBits_eq hv h1 h32 hroom]
    exact writeBits_spec h (by rwa [lowBits_length])
  case flush =>
    rw [exec_bwFlush_eq hv hf hroom]
    obtain ⟨t, ht, hwrote⟩ := writeBits_spec (bs := List.replicate ((8 - s.bwNbits) % 8) false) h
      (by rw [List.length_replicate]; omega)
    refine ⟨t, ht, ?_, hwrote⟩
    rw [writeBits_nbits hf ht, List.length_replicate]
    omega

/-- Settles O38: each failure is `failWith` of the state the command started from, or `writerOverflow`. -/
theorem writerFailures : Obligations.WriterFailures := by
  refine fun s => ⟨?noWriter, fun hv => ⟨fun hk hfull => ?bit, fun hcount => ?count, fun h1 h32 hfull => ?bits,
    fun hk hfull => ?flush⟩⟩
  case noWriter =>
    rintro hv i (rfl | rfl | rfl)
    all_goals exact failsOnly_of_failWith (withWriter_of_invalid hv _)
  case bit =>
    rw [exec_bwWriteBit_full hv ⟨hk, hfull⟩]
    exact writerOverflow_loses s
  case count => exact failsOnly_of_failWith (exec_bwWriteBits_badCount hv hcount)
  case bits =>
    rw [exec_bwWriteBits_full hv h1 h32 hfull]
    exact writerOverflow_loses s
  case flush =>
    rw [exec_bwFlush_full hv hk hfull]
    exact writerOverflow_loses s

end Sys2Proof.Machine
end

section
/-! SUPPORT. The CRC-32 function (42 R171, R172): what a shift step does with the bits it does not test, the
table form of the byte step, and the run over chunks. -/

namespace Sys2Proof.Machine

-- As in the tests: one thread, so that the check stays inside its memory limit.
set_option Elab.async false

/-! ## Shift steps (R171) -/

/-- `n` shift-and-conditional-XOR steps. -/
def crcShifts (n : Nat) (c : Word) : Word := (List.range n).foldl (fun c _ => crcShift c) c

@[simp] theorem crcShifts_zero (c : Word) : crcShifts 0 c = c := rfl

theorem crcShifts_succ (n : Nat) (c : Word) : crcShifts (n + 1) c = crcShift (crcShifts n c) := by
  simp only [crcShifts, List.range_succ, List.foldl_append, List.foldl_cons, List.foldl_nil]

theorem crcTable_eq_crcShifts (i : Byte) : crcTable i = crcShifts 8 (i.setWidth 32) := rfl

/-- A mask whose low bit is clear does not choose the branch: it is only shifted. -/
theorem crcShift_xor_of_lowBit_clear (c : Word) {h : Word} (hlow : h.getLsbD 0 = false) :
    crcShift (c ^^^ h) = crcShift c ^^^ (h >>> 1) := by
  have hbit : (c ^^^ h).getLsbD 0 = c.getLsbD 0 := by rw [BitVec.getLsbD_xor, hlow, Bool.xor_false]
  unfold crcShift
  rw [hbit, BitVec.ushiftRight_xor_distrib]
  split
  case isTrue => ac_rfl
  case isFalse => rfl

/-- A mask whose low `n` bits are clear goes through `n` steps unread. -/
theorem crcShifts_xor_of_lowBits_clear (c h : Word) (n : Nat) (hlow : ∀ i, i < n → h.getLsbD i = false) :
    crcShifts n (c ^^^ h) = crcShifts n c ^^^ (h >>> n) := by
  induction n with
  | zero => simp
  | succ n ih =>
    have hnext : (h >>> n).getLsbD 0 = false := by
      rw [BitVec.getLsbD_ushiftRight, Nat.add_zero]
      exact hlow n n.lt_succ_self
    rw [crcShifts_succ, ih fun i hi => hlow i (Nat.lt_succ_of_lt hi), crcShift_xor_of_lowBit_clear _ hnext, ← crcShifts_succ,
      BitVec.shiftRight_add]

/-- A word is its low byte and the bits above it. -/
theorem lowByte_xor_highBits (w : Word) : (w.extractLsb' 0 8).setWidth 32 ^^^ (w >>> 8 <<< 8) = w := by
  ext i hi
  by_cases h8 : i < 8
  · simp [h8, BitVec.getLsbD_eq_getElem hi]
  · simp [h8, Nat.add_sub_cancel' (Nat.le_of_not_lt h8), hi]

theorem highBits_shiftRight (w : Word) : (w >>> 8 <<< 8) >>> 8 = w >>> 8 := by
  ext i hi
  have hshifted : ¬ 8 + i < 8 := by omega
  simp only [BitVec.getElem_ushiftRight, BitVec.getLsbD_shiftLeft, hshifted, decide_false, Bool.not_false, Bool.and_true,
    Nat.add_sub_cancel_left, BitVec.getLsbD_ushiftRight, Bool.and_eq_right_iff_imp, decide_eq_true_eq]
  exact BitVec.lt_of_getLsbD

/-- Settles O43: the eight steps read the low byte, which is the table's index, and move the bits above it down. -/
theorem crcTableFormIsTheBitwiseForm : Obligations.CrcTableFormIsTheBitwiseForm := by
  intro acc b
  have hsplit : acc ^^^ b.setWidth 32 = (acc.extractLsb' 0 8 ^^^ b).setWidth 32 ^^^ (acc >>> 8 <<< 8) := by
    conv_lhs => rw [← lowByte_xor_highBits acc]
    rw [BitVec.setWidth_xor]
    ac_rfl
  have hlow : ∀ i, i < 8 → (acc >>> 8 <<< 8).getLsbD i = false := fun i hi => by simp [hi]
  calc crcStep acc b
      = crcShifts 8 ((acc.extractLsb' 0 8 ^^^ b).setWidth 32) ^^^ (acc >>> 8 <<< 8) >>> 8 := by
        rw [highBits_shiftRight, ← crcTable_eq_crcShifts, crcStep]
    _ = crcShifts 8 (acc ^^^ b.setWidth 32) := by
        rw [hsplit, crcShifts_xor_of_lowBits_clear _ _ 8 hlow]

/-! ## Chunks (R172, R179) -/

theorem crcRun_append (acc : Word) (x y : List Byte) : crcRun acc (x ++ y) = crcRun (crcRun acc x) y := List.foldl_append

/-- R179's check vector. -/
theorem crc32_checkVector :
    crc32 [0x31#8, 0x32#8, 0x33#8, 0x34#8, 0x35#8, 0x36#8, 0x37#8, 0x38#8, 0x39#8] = 0xCBF43926#32 := by decide +kernel

/-- Settles O42: the run is a fold over the bytes, and the check vector is computed. -/
theorem crcOfChunksAndCheckValue : Obligations.CrcOfChunksAndCheckValue := ⟨crcRun_append, crc32_checkVector⟩

end Sys2Proof.Machine
end

section
/-! SUPPORT. The CRC commands (42 R173 to R178): each as `succeed` or `failWith` on the state of its context, and what that leaves. -/

namespace Sys2Proof.Machine

-- As in the tests: one thread, so that the check stays inside its memory limit.
set_option Elab.async false

variable {s : State} {x : List Byte}

/-! ## CRC_CALC and CRC_VERIFY (R173, R174) -/

theorem exec_crcCalc_eq (hx : SourceIs s x) : exec .crcCalc s = succeed s (crc32 x) 0 := sourceRange_eq hx _

theorem exec_crcVerify_eq (hx : SourceIs s x) :
    exec .crcVerify s = succeed s (if crc32 x = s.arg1 then 1 else 0) (crc32 x) :=
  sourceRange_eq hx _

/-- A command that succeeds on the state it started from changes nothing but STATUS, ERRCODE and the results. -/
theorem completesOnly_of_succeed {o : Result} {r0 r1 : Word} (ho : o = succeed s r0 r1) :
    ∃ t, o = .next t ∧ CompletedOk s t r0 r1 ∧ KeepsRest s t :=
  ⟨completeOk s r0 r1, ho, completedOk_of r0 r1 rfl rfl, keepsRest_completeOk s r0 r1⟩

/-- Settles O39: each command succeeds on the state it started from. -/
theorem oneShotCrcReturnsTheChecksum : Obligations.OneShotCrcReturnsTheChecksum :=
  fun _ _ hx => ⟨completesOnly_of_succeed (exec_crcCalc_eq hx), completesOnly_of_succeed (exec_crcVerify_eq hx)⟩

/-! ## The streaming commands where they succeed (R175 to R178) -/

/-- The state with the CRC context replaced. -/
def withCrcContext (s : State) (ctrl acc : Word) : State := { s with crcCtrl := ctrl, crcAcc := acc }

/-- Succeeding with the context replaced changes nothing else. -/
theorem setsCrc_of_succeed {o : Result} {r0 ctrl acc : Word} (ho : o = succeed (withCrcContext s ctrl acc) r0 0) :
    ∃ t, o = .next t ∧ CrcSet s t r0 ctrl acc :=
  ⟨completeOk (withCrcContext s ctrl acc) r0 0, ho, completedOk_of r0 0 rfl rfl, rfl, rfl, ⟨rfl, rfl, rfl, rfl, rfl, rfl, rfl⟩,
    ⟨rfl, fun _ => rfl⟩, ⟨rfl, fun _ => rfl⟩, rfl, ⟨rfl, rfl, rfl, rfl⟩⟩

theorem exec_crcCreate_eq (s : State) : exec .crcCreate s = succeed (withCrcContext s 1 0xFFFFFFFF#32) 0 0 := rfl

theorem exec_crcUpdate_eq (hactive : s.crcState = 1#2) (hx : SourceIs s x) :
    exec .crcUpdate s = succeed (withCrcContext s s.crcCtrl (crcRun s.crcAcc x)) (BitVec.ofNat 32 x.length) 0 :=
  (sourceRange_eq hx _).trans (if_pos hactive)

theorem exec_crcFinalize_eq (hactive : s.crcState = 1#2) :
    exec .crcFinalize s = succeed (withCrcContext s 2 s.crcAcc) (s.crcAcc ^^^ 0xFFFFFFFF#32) 0 :=
  if_pos hactive

theorem exec_crcDestroy_eq (hctx : s.crcState ≠ 0#2) : exec .crcDestroy s = succeed (withCrcContext s 0 0) 0 0 := if_neg hctx

/-- Settles O40: each command succeeds with the context replaced. -/
theorem crcStreamCommandsComplete : Obligations.CrcStreamCommandsComplete :=
  fun s => ⟨setsCrc_of_succeed (exec_crcCreate_eq s), fun _ hactive hx => setsCrc_of_succeed (exec_crcUpdate_eq hactive hx),
    fun hactive => setsCrc_of_succeed (exec_crcFinalize_eq hactive), fun hctx => setsCrc_of_succeed (exec_crcDestroy_eq hctx)⟩

/-! ## The streaming commands on a context in the wrong state (R176 to R178) -/

theorem exec_crcUpdate_notActive (hactive : s.crcState ≠ 1#2) (hx : SourceIs s x) :
    exec .crcUpdate s = failWith s .invalidParameter :=
  (sourceRange_eq hx _).trans (if_neg hactive)

theorem exec_crcFinalize_notActive (hactive : s.crcState ≠ 1#2) : exec .crcFinalize s = failWith s .invalidParameter :=
  if_neg hactive

theorem exec_crcDestroy_noContext (hnone : s.crcState = 0#2) : exec .crcDestroy s = failWith s .invalidParameter := if_pos hnone

/-- Settles O41: each command fails on the state it started from. -/
theorem crcContextErrors : Obligations.CrcContextErrors := by
  refine fun s => ⟨fun hactive => ⟨?finalize, fun x hx => ?update⟩, fun hnone => ?destroy⟩
  case finalize => exact failsOnly_of_failWith (exec_crcFinalize_notActive hactive)
  case update => exact failsOnly_of_failWith (exec_crcUpdate_notActive hactive hx)
  case destroy => exact failsOnly_of_failWith (exec_crcDestroy_noContext hnone)

end Sys2Proof.Machine
end

section
/-! SUPPORT. A codec whose output fits delivers it: the encoders, the decoders and the tag rows, by way of `codecOf`. -/

namespace Sys2Proof.Machine

-- As in the tests: one thread, so that the check stays inside its memory limit.
set_option Elab.async false

/-- A transform command or a tag row delivers what its codec answers, if that fits OBUF (40 R130 steps 5 and 6). -/
theorem delivers_of_codecOf {i : Instr} {s : State} {x y : List Byte} {r1 : Word}
    (hi : isTransform i = true ∨ i = .hcTagHuff ∨ i = .hcTagBmh ∨ i = .hcTagRc) (hcap : s.caps.InRange) (hx : InputIs s x)
    (hne : x ≠ []) (hfit : y.length ≤ s.caps.obufCap) (hok : codecOf s x i = .ok (y, r1)) : Delivers i s y r1 := by
  obtain ⟨f, hexec, hcodec, -⟩ := exec_codec hi s
  unfold Delivers
  rw [hexec]
  exact transform_delivers hcap hx hne ((hcodec x hx).trans hok) hfit

/-! ## The answers of a codec as the function of its input gives them -/

theorem withNoRes1_eq_ok {r : Except ErrKind (List Byte)} {y : List Byte} (h : r = .ok y) : withNoRes1 r = .ok (y, 0) := by
  rw [h]
  rfl

theorem stageResult_eq_ok {cap : Nat} {st : Stage} {payload y : List Byte} (h : stageDecompress cap st payload = .ok y) :
    stageResult cap st payload = .ok (y, st.id.setWidth 32) := by
  rw [stageResult, h]

theorem codecOf_bwtInv {s : State} {x : List Byte} (hindex : s.arg0.toNat < x.length) :
    codecOf s x .bwtInv = .ok (bwtInverse x s.arg0.toNat, 0) :=
  if_neg (Nat.not_le.mpr hindex)

/-! ## The obligations -/

/-- Settles O44: every encoder is a transform command, and its codec answers the encoding. -/
theorem encodersDeliver : Obligations.EncodersDeliver := by
  intro s x y hcap hx hne hfit
  have delivers {i : Instr} {r1 : Word} (hi : isTransform i = true) (hok : codecOf s x i = .ok (y, r1)) : Delivers i s y r1 :=
    delivers_of_codecOf (.inl hi) hcap hx hne hfit hok
  refine ⟨fun h => ?huff, fun h => ?lz77, fun h => ?bwt, fun h => ?mtf, fun h => ?bmh, fun h => ?rc, fun st h => ?hc⟩
  case huff => exact delivers rfl (withNoRes1_eq_ok h)
  case lz77 => exact delivers rfl (h ▸ rfl)
  case bwt => exact delivers rfl (h ▸ rfl)
  case mtf => exact delivers rfl (h ▸ rfl)
  case bmh => exact delivers rfl (withNoRes1_eq_ok h)
  case rc => exact delivers rfl (withNoRes1_eq_ok h)
  case hc => exact delivers rfl h

/-- Settles O45: every decoder is a transform command, and its codec answers the decoding; a tag row's codec is its stage's decoder on the
bytes after the tag. -/
theorem decodersDeliver : Obligations.DecodersDeliver := by
  intro s x y hcap hx hne hfit
  have delivers {i : Instr} {r1 : Word} (hi : isTransform i = true) (hok : codecOf s x i = .ok (y, r1)) : Delivers i s y r1 :=
    delivers_of_codecOf (.inl hi) hcap hx hne hfit hok
  have tag_delivers {i : Instr} {r1 : Word} (hi : i = .hcTagHuff ∨ i = .hcTagBmh ∨ i = .hcTagRc)
      (hok : codecOf s x i = .ok (y, r1)) : Delivers i s y r1 :=
    delivers_of_codecOf (.inr hi) hcap hx hne hfit hok
  refine ⟨fun h => ?huff, fun h => ?lz77, fun hindex h => ?bwt, fun h => ?mtf, fun h => ?bmh, fun h => ?rc, fun st h => ?hc,
    fun h => ?tagHuff, fun h => ?tagBmh, fun h => ?tagRc⟩
  case huff => exact delivers rfl (withNoRes1_eq_ok h)
  case lz77 => exact delivers rfl (withNoRes1_eq_ok h)
  case bwt => exact delivers rfl (h ▸ codecOf_bwtInv hindex)
  case mtf => exact delivers rfl (h ▸ rfl)
  case bmh => exact delivers rfl (withNoRes1_eq_ok h)
  case rc => exact delivers rfl (withNoRes1_eq_ok h)
  case hc => exact delivers rfl h
  case tagHuff => exact tag_delivers (.inl rfl) (stageResult_eq_ok (st := .huff) h)
  case tagBmh => exact tag_delivers (.inr (.inl rfl)) (stageResult_eq_ok (st := .bmh) h)
  case tagRc => exact tag_delivers (.inr (.inr rfl)) (stageResult_eq_ok (st := .rc) h)

end Sys2Proof.Machine
end

section
/-! SUPPORT. The Huffman tree (43 R192, R193): the queue keeps its members, the tree built has a leaf for every symbol that occurs, and the
walk along a symbol's code ends at the symbol. -/

namespace Sys2Proof.Machine

-- As in the tests: one thread, so that the check stays inside its memory limit.
set_option Elab.async false

/-! ## Tables by byte -/

theorem mem_of_lookupByte {α : Type} {k : Byte} {l : List (Byte × α)} {a : α} (h : lookupByte k l = some a) : (k, a) ∈ l := by
  induction l with
  | nil => simp [lookupByte] at h
  | cons e l ih =>
    obtain ⟨k', b⟩ := e
    by_cases hk : k = k'
    · simp_all [lookupByte]
    · exact List.mem_cons_of_mem _ (ih (by simpa [lookupByte, hk] using h))

theorem exists_lookupByte {α : Type} {k : Byte} {l : List (Byte × α)} {a : α} (h : (k, a) ∈ l) : ∃ b, lookupByte k l = some b := by
  induction l with
  | nil => simp at h
  | cons e l ih =>
    obtain ⟨k', b⟩ := e
    by_cases hk : k = k'
    · exact ⟨b, if_pos hk⟩
    · have hmem : (k, a) ∈ l := by simpa [hk] using h
      simpa [lookupByte, hk] using ih hmem

/-! ## Leaves -/

/-- The symbol `v` stands at a leaf of the tree. -/
def HuffTree.HasLeaf (t : HuffTree) (v : Byte) : Prop := ∃ path, (v, path) ∈ pathsOf t

/-- The symbol `v` stands at a leaf of one of the queue's trees. -/
def QueueHasLeaf (queue : List QNode) (v : Byte) : Prop := ∃ n ∈ queue, n.tree.HasLeaf v

@[simp] theorem hasLeaf_leaf (u v : Byte) : (HuffTree.leaf u).HasLeaf v ↔ v = u := by simp [HuffTree.HasLeaf, pathsOf]

@[simp] theorem hasLeaf_node (l r : HuffTree) (v : Byte) : (HuffTree.node l r).HasLeaf v ↔ l.HasLeaf v ∨ r.HasLeaf v := by
  simp [HuffTree.HasLeaf, pathsOf, exists_or]

@[simp] theorem queueHasLeaf_nil (v : Byte) : ¬ QueueHasLeaf [] v := by simp [QueueHasLeaf]

@[simp] theorem queueHasLeaf_cons (n : QNode) (queue : List QNode) (v : Byte) :
    QueueHasLeaf (n :: queue) v ↔ n.tree.HasLeaf v ∨ QueueHasLeaf queue v := by
  simp [QueueHasLeaf]

/-! ## The queue (R192) -/

theorem queueInsert_perm (n : QNode) (queue : List QNode) : (queueInsert n queue).Perm (n :: queue) := by
  induction queue with
  | nil => exact .refl _
  | cons m queue ih =>
    rw [queueInsert]
    split
    · exact .refl _
    · exact (ih.cons m).trans (.swap n m queue)

@[simp] theorem queueInsert_length (n : QNode) (queue : List QNode) : (queueInsert n queue).length = queue.length + 1 :=
  (queueInsert_perm n queue).length_eq

@[simp] theorem queueHasLeaf_queueInsert (n : QNode) (queue : List QNode) (v : Byte) :
    QueueHasLeaf (queueInsert n queue) v ↔ n.tree.HasLeaf v ∨ QueueHasLeaf queue v := by
  rw [← queueHasLeaf_cons]
  simp only [QueueHasLeaf, (queueInsert_perm n queue).mem_iff]

/-- One step of the first loop of R192: the leaf of a symbol that occurs goes into the queue. -/
def addLeaf (F : Byte → Nat) (acc : List QNode × Nat) (v : Byte) : List QNode × Nat :=
  if 0 < F v then (queueInsert { w := F v, q := acc.2, tree := .leaf v } acc.1, acc.2 + 1) else acc

theorem leafQueue_eq_foldl_addLeaf (F : Byte → Nat) : leafQueue F = allBytes.foldl (addLeaf F) ([], 0) := rfl

theorem queueHasLeaf_addLeaf (F : Byte → Nat) (acc : List QNode × Nat) (u v : Byte) :
    QueueHasLeaf (addLeaf F acc u).1 v ↔ (v = u ∧ 0 < F v) ∨ QueueHasLeaf acc.1 v := by
  by_cases hu : 0 < F u
  · have hiff : v = u ∧ 0 < F v ↔ v = u := and_iff_left_of_imp fun h => h ▸ hu
    rw [addLeaf, if_pos hu, queueHasLeaf_queueInsert, hasLeaf_leaf, hiff]
  · have hnot : ¬ (v = u ∧ 0 < F v) := fun ⟨h, hv⟩ => hu (h ▸ hv)
    rw [addLeaf, if_neg hu, or_iff_right hnot]

theorem queueHasLeaf_foldl_addLeaf (F : Byte → Nat) (v : Byte) (symbols : List Byte) (acc : List QNode × Nat) :
    QueueHasLeaf (symbols.foldl (addLeaf F) acc).1 v ↔ (v ∈ symbols ∧ 0 < F v) ∨ QueueHasLeaf acc.1 v := by
  induction symbols generalizing acc with
  | nil => simp
  | cons u symbols ih =>
    rw [List.foldl_cons, ih, queueHasLeaf_addLeaf, List.mem_cons]
    tauto

theorem mem_allBytes (v : Byte) : v ∈ allBytes :=
  List.mem_map.mpr ⟨v.toNat, List.mem_range.mpr v.isLt, (BitVec.ofNat_toNat 8 v).trans (BitVec.setWidth_eq v)⟩

/-- The leaves of the queue are the symbols that occur. -/
theorem queueHasLeaf_leafQueue (F : Byte → Nat) (v : Byte) : QueueHasLeaf (leafQueue F).1 v ↔ 0 < F v := by
  rw [leafQueue_eq_foldl_addLeaf, queueHasLeaf_foldl_addLeaf]
  simp [mem_allBytes]

/-! ## Joining (R192) -/

/-- With fuel for its length a non-empty queue becomes one tree, which has every leaf of the queue. -/
theorem joinNodes_hasLeaf (fuel : Nat) (queue : List QNode) (qNext : Nat) (hne : queue ≠ []) (hfuel : queue.length ≤ fuel + 1) :
    ∃ t, joinNodes fuel queue qNext = some t ∧ ∀ v, t.HasLeaf v ↔ QueueHasLeaf queue v := by
  induction fuel, queue, qNext using joinNodes.induct with
  | case1 => exact absurd rfl hne
  | case2 fuel n qNext => exact ⟨n.tree, by simp [joinNodes], by simp⟩
  | case3 qNext a b rest => simp at hfuel
  | case4 fuel a b rest qNext ih =>
    have hshorter : (queueInsert { w := a.w + b.w, q := qNext, tree := .node a.tree b.tree } rest).length ≤ fuel + 1 := by
      simpa using hfuel
    obtain ⟨t, hjoin, hleaves⟩ := ih (List.ne_nil_of_length_pos (by simp)) hshorter
    exact ⟨t, hjoin, fun v => by simp [hleaves, or_assoc]⟩

/-- A table with a non-zero frequency has a tree, whose leaves are the symbols that occur. -/
theorem buildTree_hasLeaf {F : Byte → Nat} {u : Byte} (hu : 0 < F u) : ∃ t, buildTree F = some t ∧ ∀ v, t.HasLeaf v ↔ 0 < F v := by
  obtain ⟨t, hjoin, hleaves⟩ :=
    joinNodes_hasLeaf _ (leafQueue F).1 (leafQueue F).2 (buildTree_leafQueue_ne hu) (Nat.le_succ _)
  exact ⟨t, hjoin, fun v => (hleaves v).trans (queueHasLeaf_leafQueue F v)⟩

/-! ## Codes (R193) and the walk (R200) -/

/-- The path to a leaf leads the walk there, and it reads no bit more. -/
theorem walkTree_path {t : HuffTree} {v : Byte} {path : List Bool} (h : (v, path) ∈ pathsOf t) (rest : List Bool) :
    walkTree t (path ++ rest) = .ok (v, rest) := by
  induction t generalizing path with
  | leaf u =>
    obtain ⟨rfl, rfl⟩ : v = u ∧ path = [] := by simpa [pathsOf] using h
    rfl
  | node l r ihl ihr =>
    rw [pathsOf, List.mem_append, List.mem_map, List.mem_map] at h
    rcases h with ⟨⟨u, below⟩, hmem, heq⟩ | ⟨⟨u, below⟩, hmem, heq⟩
    · obtain ⟨rfl, rfl⟩ := Prod.mk.inj heq
      simpa [walkTree] using ihl hmem
    · obtain ⟨rfl, rfl⟩ := Prod.mk.inj heq
      simpa [walkTree] using ihr hmem

/-- Every symbol with a leaf has a code. -/
theorem codeOf_mem_codesOf {t : HuffTree} {v : Byte} (h : t.HasLeaf v) : (v, codeOf t v) ∈ codesOf t := by
  have hcode : ∃ code, (v, code) ∈ codesOf t := by
    cases t with
    | leaf u => exact ⟨[false], by simpa [codesOf] using h⟩
    | node l r => exact h
  obtain ⟨_, hmem⟩ := hcode
  obtain ⟨code, hlookup⟩ := exists_lookupByte hmem
  rw [codeOf, hlookup]
  exact mem_of_lookupByte hlookup

/-- A symbol's code decodes to it, whatever bits follow. -/
theorem decodeSymbol_codeOf {t : HuffTree} {v : Byte} (h : t.HasLeaf v) (rest : List Bool) :
    decodeSymbol t (codeOf t v ++ rest) = .ok (v, rest) := by
  have hmem := codeOf_mem_codesOf h
  cases t with
  | leaf u =>
    obtain ⟨rfl, hcode⟩ : v = u ∧ codeOf (.leaf u) v = [false] := by simpa [codesOf] using hmem
    rw [hcode]
    rfl
  | node l r => exact walkTree_path hmem rest

theorem decodeSymbols_succ {t : HuffTree} {n : Nat} {bs rest : List Bool} {v : Byte} {vs : List Byte}
    (hfirst : decodeSymbol t bs = .ok (v, rest)) (hlater : decodeSymbols t n rest = .ok vs) :
    decodeSymbols t (n + 1) bs = .ok (v :: vs) := by
  simp only [decodeSymbols, hfirst, hlater]

/-- The code bits of an input whose symbols have leaves decode to it, whatever bits follow. -/
theorem decodeSymbols_encodeBits {t : HuffTree} {x : List Byte} (h : ∀ v ∈ x, t.HasLeaf v) (rest : List Bool) :
    decodeSymbols t x.length (encodeBits t x ++ rest) = .ok x := by
  induction x with
  | nil => rfl
  | cons v x ih =>
    obtain ⟨hv, hx⟩ := List.forall_mem_cons.mp h
    rw [encodeBits, List.flatMap_cons, List.append_assoc]
    exact decodeSymbols_succ (decodeSymbol_codeOf hv _) (ih hx)

end Sys2Proof.Machine
end

section
/-! SUPPORT. The Huffman stream (30 R95 to R97; 43 R194 to R203): the header's entries come back, packed bits come back with their padding, and
the decoder inverts the encoder. -/

namespace Sys2Proof.Machine

-- As in the tests: one thread, so that the check stays inside its memory limit.
set_option Elab.async false

/-! ## Packed bits (30 R95, 43 R196) -/

theorem bitsOfByte_bitsValue {bs : List Bool} (h : bs.length = 8) : bitsOfByte (BitVec.ofNat 8 (bitsValue bs)) = bs := by
  have key : ∀ b0 b1 b2 b3 b4 b5 b6 b7 : Bool,
      bitsOfByte (BitVec.ofNat 8 (bitsValue [b0, b1, b2, b3, b4, b5, b6, b7])) = [b0, b1, b2, b3, b4, b5, b6, b7] := by decide +kernel
  match bs, h with
  | [b0, b1, b2, b3, b4, b5, b6, b7], _ => exact key b0 b1 b2 b3 b4 b5 b6 b7

theorem bitsOfByte_byteOfBits {bs : List Bool} (h : bs.length ≤ 8) :
    bitsOfByte (byteOfBits bs) = bs ++ List.replicate (8 - bs.length) false := by
  have hlen : (bs ++ List.replicate (8 - bs.length) false).length = 8 := by
    rw [List.length_append, List.length_replicate]
    omega
  rw [byteOfBits, List.take_of_length_le hlen.le, bitsOfByte_bitsValue hlen]

theorem bitsOf_packBits (bs : List Bool) : ∃ padding, bitsOf (packBits bs) = bs ++ padding := by
  induction bs using packBits.induct with
  | case1 => exact ⟨[], rfl⟩
  | case2 b0 b1 b2 b3 b4 b5 b6 b7 rest ih =>
    obtain ⟨padding, hrest⟩ := ih
    refine ⟨padding, ?_⟩
    rw [packBits, bitsOf, List.flatMap_cons, bitsOfByte_byteOfBits (by simp), ← bitsOf, hrest]
    rfl
  | case3 bs hne hshort =>
    have hlen : bs.length ≤ 8 := by
      by_contra hlong
      exact hshort bs[0] bs[1] bs[2] bs[3] bs[4] bs[5] bs[6] bs[7] (bs.drop 8)
        (by simp only [List.getElem_cons_drop, List.drop_zero])
    refine ⟨List.replicate (8 - bs.length) false, ?_⟩
    rw [packBits.eq_3 bs hne hshort, bitsOf, List.flatMap_singleton, bitsOfByte_byteOfBits hlen]

/-! ## The header (R194, R195) -/

/-- The entries of R194: each symbol of the list that occurs, with its frequency. -/
def entriesOf (F : Byte → Nat) (symbols : List Byte) : List (Byte × Nat) :=
  (symbols.filter fun v => 0 < F v).map fun v => (v, F v)

theorem entriesOf_cons (F : Byte → Nat) (u : Byte) (symbols : List Byte) :
    entriesOf F (u :: symbols) = if 0 < F u then (u, F u) :: entriesOf F symbols else entriesOf F symbols := by
  by_cases hu : 0 < F u <;> simp [entriesOf, hu]

/-- A group of the header whose frequency is not `2^32 - 1` is not the sentinel, and parses to its entry. -/
theorem parseEntries_entry {u : Byte} {f : Nat} (hf : f < 2 ^ 32 - 1) {stream : List Byte} {es : List (Byte × Nat)} {code : List Byte}
    (h : parseEntries stream = .ok (es, code)) : parseEntries (u :: be32 f ++ stream) = .ok ((u, f) :: es, code) := by
  have hvalue := ube32_be32 (show f < 2 ^ 32 by omega)
  have hnot : [u, BitVec.ofNat 8 (f / 2 ^ 24), BitVec.ofNat 8 (f / 2 ^ 16), BitVec.ofNat 8 (f / 2 ^ 8), BitVec.ofNat 8 f] ≠
      Config.huffSentinel := by
    intro hsentinel
    simp only [Config.huffSentinel, List.cons.injEq, and_true] at hsentinel
    obtain ⟨-, h3, h2, h1, h0⟩ := hsentinel
    rw [h3, h2, h1, h0] at hvalue
    have hall : ube32 0xFF#8 0xFF#8 0xFF#8 0xFF#8 = 2 ^ 32 - 1 := by decide
    omega
  rw [be32, List.cons_append, List.cons_append, List.cons_append, List.cons_append, List.cons_append, parseEntries, if_neg hnot]
  rw [List.nil_append, h, ufield32_huffFreqOrder, hvalue]

/-- The header of R194 parses to its entries, whatever bytes follow the sentinel. -/
theorem parseEntries_huffHeader {F : Byte → Nat} (hF : ∀ v, F v < 2 ^ 32 - 1) (code : List Byte) :
    parseEntries (huffHeader F ++ code) = .ok (entriesOf F allBytes, code) := by
  rw [huffHeader, List.append_assoc]
  induction allBytes with
  | nil => simp [parseEntries, Config.huffSentinel, entriesOf]
  | cons u symbols ih =>
    rw [List.flatMap_cons, List.append_assoc, entriesOf_cons]
    split
    · exact parseEntries_entry (hF u) ih
    · exact ih

theorem allBytes_nodup : allBytes.Nodup := by
  refine List.Nodup.map_on (fun i hi j hj hij => ?_) List.nodup_range
  have hlt := List.mem_range.mp hi
  have hlt' := List.mem_range.mp hj
  simp only [Config.huffSyms] at hlt hlt'
  simpa [BitVec.toNat_ofNat, Nat.mod_eq_of_lt hlt, Nat.mod_eq_of_lt hlt'] using congrArg BitVec.toNat hij

theorem hasDuplicate_eq_false_of_nodup {es : List (Byte × Nat)} (h : (es.map Prod.fst).Nodup) : hasDuplicate es = false := by
  induction es with
  | nil => rfl
  | cons e es ih =>
    obtain ⟨hnotMem, hnodup⟩ := List.nodup_cons.mp h
    rw [hasDuplicate, ih hnodup, Bool.or_false, List.any_eq_false]
    intro d hd heq
    exact hnotMem (List.mem_map.mpr ⟨d, hd, of_decide_eq_true heq⟩)

theorem hasDuplicate_entriesOf (F : Byte → Nat) : hasDuplicate (entriesOf F allBytes) = false := by
  refine hasDuplicate_eq_false_of_nodup ?_
  rw [entriesOf, List.map_map, show Prod.fst ∘ (fun v => (v, F v)) = id from rfl, List.map_id]
  exact allBytes_nodup.filter _

theorem mem_entriesOf {F : Byte → Nat} {v : Byte} {f : Nat} : (v, f) ∈ entriesOf F allBytes ↔ 0 < F v ∧ f = F v := by
  simp [entriesOf, mem_allBytes, eq_comm]

/-- The table read back is the one written: a symbol that is not listed does not occur. -/
theorem freqOfEntries_entriesOf (F : Byte → Nat) : freqOfEntries (entriesOf F allBytes) = F := by
  funext v
  rw [freqOfEntries]
  cases hlookup : lookupByte v (entriesOf F allBytes) with
  | none =>
    refine Eq.symm (Nat.eq_zero_of_not_pos fun hv => ?_)
    obtain ⟨f, hf⟩ := exists_lookupByte (mem_entriesOf.mpr ⟨hv, rfl⟩)
    simp [hlookup] at hf
  | some f => exact (mem_entriesOf.mp (mem_of_lookupByte hlookup)).2

/-- The frequencies of an input sum to its length. -/
theorem totalOf_entriesOf_freqOf (x : List Byte) : totalOf (entriesOf (freqOf x) allBytes) = x.length := by
  have hsymbols : (allBytes.filter fun v => 0 < freqOf x v).Perm x.dedup := by
    refine (List.perm_ext_iff_of_nodup (allBytes_nodup.filter _) x.nodup_dedup).mpr fun v => ?_
    simp [mem_allBytes, freqOf]
  rw [totalOf, entriesOf, List.map_map, (hsymbols.map _).sum_eq]
  exact List.sum_map_count_dedup_eq_length x

theorem freqOf_le_length (x : List Byte) (v : Byte) : freqOf x v ≤ x.length := List.count_le_length

/-- The header of a non-empty input passes every check of R195. -/
theorem huffParse_huffHeader {x : List Byte} (hne : x ≠ []) (hlen : x.length < 2 ^ 32 - 1) (code : List Byte) :
    huffParse (huffHeader (freqOf x) ++ code) = .ok (entriesOf (freqOf x) allBytes, code) := by
  have htotal : totalOf (entriesOf (freqOf x) allBytes) ≠ 0 := by
    rw [totalOf_entriesOf_freqOf]
    exact fun h => hne (List.length_eq_zero_iff.mp h)
  rw [huffParse, parseEntries_huffHeader fun v => (freqOf_le_length x v).trans_lt hlen]
  simp [hasDuplicate_entriesOf, htotal]

/-! ## Encoder and decoder (R196, R199) -/

theorem huffCompress_eq {x : List Byte} {t : HuffTree} (ht : buildTree (freqOf x) = some t) :
    huffCompress x = .ok (huffHeader (freqOf x) ++ packBits (encodeBits t x)) := by
  rw [huffCompress, ht]

theorem huffDecompress_eq {s code : List Byte} {cap : Nat} {es : List (Byte × Nat)} {t : HuffTree} (hparse : huffParse s = .ok (es, code))
    (hfit : totalOf es ≤ cap) (ht : buildTree (freqOfEntries es) = some t) :
    huffDecompress s cap = decodeSymbols t (totalOf es) (bitsOf code) := by
  rw [huffDecompress, hparse]
  simp only [if_neg (Nat.not_lt.mpr hfit), ht]

/-- The decoder inverts the encoder on every non-empty input whose frequencies a header can hold: `2^32 - 1` is the sentinel's. -/
theorem huffDecompress_huffCompress {x : List Byte} {cap : Nat} (hne : x ≠ []) (hfit : x.length ≤ cap) (hlen : x.length < 2 ^ 32 - 1) :
    ∃ y, huffCompress x = .ok y ∧ huffDecompress y cap = .ok x := by
  obtain ⟨u, hu⟩ := List.exists_mem_of_ne_nil x hne
  obtain ⟨t, htree, hleaves⟩ := buildTree_hasLeaf (F := freqOf x) (List.count_pos_iff.mpr hu)
  refine ⟨_, huffCompress_eq htree, ?_⟩
  have htotal := totalOf_entriesOf_freqOf x
  rw [huffDecompress_eq (huffParse_huffHeader hne hlen _) (htotal.trans_le hfit) (by rw [freqOfEntries_entriesOf, htree]), htotal]
  obtain ⟨padding, hbits⟩ := bitsOf_packBits (encodeBits t x)
  rw [hbits]
  exact decodeSymbols_encodeBits (fun v hv => (hleaves v).mpr (List.count_pos_iff.mpr hv)) padding

/-- Settles O53: the decoder reads back the encoder's frequencies, so it builds the encoder's tree, and each code leads to its symbol. -/
theorem huffmanRoundTrip : Obligations.HuffmanRoundTrip :=
  fun _ _ hne hfit hlen => huffDecompress_huffCompress hne hfit (hlen.trans_lt (by decide))

end Sys2Proof.Machine
end

section
/-! SUPPORT. The LZ77 token rows (44 R227): a token and its bytes, how each row fails, what a turn of the stepwise view runs, and the
tokens of a stream run one by one. -/

namespace Sys2Proof.Machine

-- As in the tests: one thread, so that the check stays inside its memory limit.
set_option Elab.async false

/-! ## Tokens and their bytes (30 R99 to R104): the token rows are those with bytes -/

/-- A token is read back from the front of a stream it stands at. -/
theorem decodeToken_tokenBytes {i : Instr} (htok : tokenBytes i ≠ []) (hwf : i.wellFormed = true) (rest : List Byte) :
    decodeToken (tokenBytes i ++ rest) = .ok (i, rest) := by
  cases i with
  | lz77Lit b =>
    have hlow : b.toNat < 0x80 := of_decide_eq_true hwf
    simp [tokenBytes, decodeToken, hlow]
  | lz77Esc b => simp [tokenBytes, decodeToken, Config.lzEscape]
  | lz77Short len off =>
    obtain ⟨hshort, hlen⟩ := shortLen_shortByte hwf
    obtain ⟨hlow, -⟩ := (isShortByte_iff _).mp hshort
    have hesc : shortByte len ≠ Config.lzEscape := by
      intro h
      simp [h, Config.lzEscape] at hlow
    simp [tokenBytes, decodeToken, hshort, hlen, hesc, Nat.not_lt.mpr (Nat.le_trans (by decide : 128 ≤ 0xC0) hlow)]
  | lz77Long len off =>
    have hshort : isShortByte 0xFF#8 = false := by decide
    simp [tokenBytes, be16, decodeToken, hshort, ube16_be16, Config.lzLong, Config.lzEscape]
  | _ => exact absurd rfl htok

/-- What the decoder reads is a token, and its bytes stand at the front of the stream. -/
theorem decodeToken_eq_ok {bs rest : List Byte} {i : Instr} (h : decodeToken bs = .ok (i, rest)) :
    tokenBytes i ≠ [] ∧ bs = tokenBytes i ++ rest := by
  cases bs with
  | nil => simp [decodeToken] at h
  | cons t bs =>
    simp only [decodeToken] at h
    split at h
    case isTrue =>
      cases h
      simp [tokenBytes]
    split at h
    case isTrue hesc =>
      split at h <;> cases h
      simp [tokenBytes, hesc]
    split at h
    case isTrue hshort =>
      split at h <;> cases h
      simp [tokenBytes, (shortByte_shortLen hshort).2]
    split at h
    case isTrue hlong =>
      split at h <;> cases h
      simp [tokenBytes, be16_ube16, hlong]
    case isFalse => cases h

/-- A token row runs its effect on the replay and moves the cursor past its bytes. -/
theorem exec_token {i : Instr} (htok : tokenBytes i ≠ []) (s : State) : exec i s = runToken s i (tokenBytes i).length := by
  cases i with
  | lz77Lit | lz77Esc | lz77Short | lz77Long => rfl
  | _ => exact absurd rfl htok

theorem runToken_error {s : State} {i : Instr} {k : ErrKind} (h : tokenEffect s.lz.declared s.lz.outRev i = .error k) (len : Nat) :
    runToken s i len = failWith (takeOver s) k := by
  rw [runToken, h]

theorem runToken_ok {s : State} {i : Instr} {outRev : List Byte} (h : tokenEffect s.lz.declared s.lz.outRev i = .ok outRev)
    (len : Nat) : runToken s i len = .next { s with lz := { declared := s.lz.declared, pos := s.lz.pos + len, outRev := outRev } } := by
  rw [runToken, h]

/-! ## How a token fails (R227) -/

/-- A token whose effect is an error ends the command with it and delivers nothing. -/
theorem fails_of_tokenEffect {i : Instr} {s : State} {k : ErrKind} (htok : tokenBytes i ≠ [])
    (h : tokenEffect s.lz.declared s.lz.outRev i = .error k) : Fails i s k :=
  ⟨completeErr (takeOver s) k, (exec_token htok s).trans (runToken_error h _), transformFailed_takeOver s k⟩

section
variable {declared l o : Nat} {outRev : List Byte}

theorem putLiteral_full (h : outRev.length = declared) (v : Byte) : putLiteral declared outRev v = .error .sizeMismatch := if_pos h

theorem putLiteral_room (h : outRev.length < declared) (v : Byte) : putLiteral declared outRev v = .ok (v :: outRev) :=
  if_neg (Nat.ne_of_lt h)

theorem putMatch_badOffset (h : o = 0 ∨ 4096 < o ∨ outRev.length < o) :
    putMatch declared outRev l o = .error .decompressionFailed := if_pos h

theorem putMatch_tooLong (h1 : 1 ≤ o) (hwin : o ≤ 4096) (ho : o ≤ outRev.length) (h : declared < outRev.length + l) :
    putMatch declared outRev l o = .error .sizeMismatch := by
  rw [putMatch, if_neg (by simp only [Config.lzWindow]; omega), if_pos h]

theorem putMatch_fits (h1 : 1 ≤ o) (hwin : o ≤ 4096) (ho : o ≤ outRev.length) (h : outRev.length + l ≤ declared) :
    putMatch declared outRev l o = .ok (copyMatch o l outRev) := by
  rw [putMatch, if_neg (by simp only [Config.lzWindow]; omega), if_neg (Nat.not_lt.mpr h)]

theorem tokenEffect_long_badLength {len : Byte} (h : len.toNat < 3 ∨ 18 < len.toNat) (off : BitVec 16) :
    tokenEffect declared outRev (.lz77Long len off) = .error .decompressionFailed := if_pos h

theorem tokenEffect_long {len : Byte} (h3 : 3 ≤ len.toNat) (h18 : len.toNat ≤ 18) (off : BitVec 16) :
    tokenEffect declared outRev (.lz77Long len off) = putMatch declared outRev len.toNat off.toNat := by
  rw [tokenEffect, longLen_eq, if_neg (by simp only [Config.lzMin, Config.lzLookahead]; omega)]

end

/-- Settles O48, from the checks of each row in their order. -/
theorem tokenErrors : Obligations.TokenErrors := by
  intro s
  refine ⟨fun b hfull => ⟨?lit, ?esc⟩, fun len off hlen => ?longLength, fun len off hoff => ?shortOffset,
    fun len off hoff => ?longOffset, fun len off h1 hout hsize => ?shortSize, fun len off h3 h18 h1 hwin hout hsize => ?longSize⟩
  case lit => exact fails_of_tokenEffect (by simp [tokenBytes]) (putLiteral_full hfull b)
  case esc => exact fails_of_tokenEffect (by simp [tokenBytes]) (putLiteral_full hfull b)
  case longLength => exact fails_of_tokenEffect (by simp [tokenBytes]) (tokenEffect_long_badLength hlen off)
  case shortOffset =>
    exact fails_of_tokenEffect (by simp [tokenBytes]) (putMatch_badOffset (hoff.imp_right .inr))
  case longOffset =>
    by_cases hlen : len.toNat < 3 ∨ 18 < len.toNat
    · exact fails_of_tokenEffect (by simp [tokenBytes]) (tokenEffect_long_badLength hlen off)
    · refine fails_of_tokenEffect (by simp [tokenBytes]) ?_
      rw [tokenEffect_long (by omega) (by omega), putMatch_badOffset hoff]
  case shortSize =>
    have hwin : off.toNat ≤ 4096 := by have := off.isLt; omega
    exact fails_of_tokenEffect (by simp [tokenBytes]) (putMatch_tooLong h1 hwin hout hsize)
  case longSize =>
    refine fails_of_tokenEffect (by simp [tokenBytes]) ?_
    rw [tokenEffect_long h3 h18, putMatch_tooLong h1 hwin hout hsize]

/-! ## What a turn of the stepwise view fetches (notes/assumptions/9.md) -/

section
variable {s : State} {x : List Byte} {i : Instr}

theorem fetchInstr_token (hf : s.fetch = .lzToken) (hx : InputIs s x) (hne : x ≠ []) {rest : List Byte}
    (h : decodeToken (x.drop s.lz.pos) = .ok (i, rest)) : fetchInstr s = .ok i := by
  rw [fetchInstr, hf]
  simp only [transformBytes_eq (s := takeOver s) hx hne, tokensFrom]
  cases hts : x.drop s.lz.pos with
  | nil => rw [hts] at h; cases h
  | cons t ts => simp only [← hts, h]

theorem fetchInstr_badToken (hf : s.fetch = .lzToken) (hx : InputIs s x) (hne : x ≠ []) {t : Byte} {ts : List Byte}
    (hts : x.drop s.lz.pos = t :: ts) {e : DecodeError} (h : decodeToken (t :: ts) = .error e) :
    fetchInstr s = .error (failWith (takeOver s) (tokenError e)) := by
  rw [fetchInstr, hf]
  simp only [transformBytes_eq (s := takeOver s) hx hne, tokensFrom, hts, h]

theorem fetchInstr_endOfTokens (hf : s.fetch = .lzToken) (hx : InputIs s x) (hne : x ≠ []) (hts : x.drop s.lz.pos = []) :
    fetchInstr s = .error (finishReplay s) := by
  rw [fetchInstr, hf]
  simp only [transformBytes_eq (s := takeOver s) hx hne, tokensFrom, hts]

theorem fetchInstr_tag (hf : s.fetch = .hcTag) (hx : InputIs s x) (h5 : 5 ≤ x.length) (h : decodeTag x = .ok i) :
    fetchInstr s = .ok i := by
  have hne : x ≠ [] := List.ne_nil_of_length_pos (by omega)
  have htag : hcTagOf x = .ok i := by rw [hcTagOf, if_neg (Nat.not_lt.mpr h5), h]
  rw [fetchInstr, hf]
  simp only [transformBytes_eq (s := takeOver s) hx hne, htag]

/-- A busy engine that fetches no instruction ends its turn with the answer given. -/
theorem engineTurn_notFetched (hb : s.busy = true) {r : Result} (hr : fetchInstr s = .error r) : engineTurn s = r := by
  rw [engineTurn, if_pos hb, hr]

end

/-- Settles O7: the turn is the engine's, and it fetches the row the stream names. -/
theorem stepRunsTheStreamRow : Obligations.StepRunsTheStreamRow := by
  intro s x i hb hsched hx hne
  rw [step_noSchedule hsched]
  exact ⟨fun hf _ htok => engineTurn_fetched hb (fetchInstr_token hf hx hne htok),
    fun hf h5 htag => engineTurn_fetched hb (fetchInstr_tag hf hx h5 htag)⟩

/-! ## Runs -/

theorem run_one (s : State) : Host.Core.run core 1 s = step s := by
  cases h : step s <;> simp [Host.Core.run, core, h]

theorem run_succ_of_next {s t : State} (h : step s = .next t) (k : Nat) : Host.Core.run core (k + 1) s = Host.Core.run core k t := by
  simp [Host.Core.run, core, h]

/-! ## The replay, token by token (R226, R227) -/

theorem replayTokens_nil (declared fuel : Nat) (outRev : List Byte) : replayTokens declared fuel [] outRev = .ok outRev := by
  cases fuel <;> rfl

section
variable {declared fuel : Nat} {t : Byte} {ts outRev : List Byte}

theorem replayTokens_badToken {e : DecodeError} (h : decodeToken (t :: ts) = .error e) :
    replayTokens declared (fuel + 1) (t :: ts) outRev = .error (tokenError e) := by
  rw [replayTokens, h]

theorem replayTokens_effectError {i : Instr} {rest : List Byte} {k : ErrKind} (h : decodeToken (t :: ts) = .ok (i, rest))
    (heff : tokenEffect declared outRev i = .error k) : replayTokens declared (fuel + 1) (t :: ts) outRev = .error k := by
  simp only [replayTokens, h, heff]

theorem replayTokens_effect {i : Instr} {rest outRev' : List Byte} (h : decodeToken (t :: ts) = .ok (i, rest))
    (heff : tokenEffect declared outRev i = .ok outRev') :
    replayTokens declared (fuel + 1) (t :: ts) outRev = replayTokens declared fuel rest outRev' := by
  simp only [replayTokens, h, heff]

end

/-- The token bytes begin after the five leading bytes (R226). -/
theorem lzPrefix_eq_ok {x tokens : List Byte} {cap declared : Nat} (h : lzPrefix x cap = .ok (declared, tokens)) :
    x ≠ [] ∧ x.drop 5 = tokens := by
  unfold lzPrefix at h
  split at h
  · split at h
    · cases h
    split at h
    · cases h
    split at h <;> cases h
    exact ⟨List.cons_ne_nil _ _, rfl⟩
  · cases h

/-- With its leading bytes read, the decoder is the replay and the check of its end (R226). -/
theorem lz77Decompress_eq_replay {x tokens : List Byte} {cap declared : Nat} (h : lzPrefix x cap = .ok (declared, tokens)) :
    lz77Decompress x cap = (replayTokens declared tokens.length tokens []).bind (replayEnd declared) := by
  simp only [lz77Decompress, h]
  cases replayTokens declared tokens.length tokens [] <;> rfl

/-- The end of a transform command clears the model's own fields, so what they held does not show (10 R44). -/
theorem deliver_ignores_replay (s : State) (f : FetchSource) (z : LzReplay) (full : ErrKind) (r : Except ErrKind (List Byte × Word)) :
    deliver { s with fetch := f, lz := z } full r = deliver s full r := by
  rcases deliver_cases (s := s) (full := full) (r := r) rfl with ⟨k, rfl, ho⟩ | ⟨y, r1, rfl, hlong, ho⟩ | ⟨y, r1, rfl, hfit, ho⟩ <;>
    rw [ho, deliver]
  · rfl
  · exact if_pos hlong
  · exact if_neg (Nat.not_lt.mpr hfit)

/-- At the end of the tokens one turn checks the declared size and delivers. -/
theorem run_replay_end {s : State} {x : List Byte} (hb : s.busy = true) (hsched : s.schedule = []) (hf : s.fetch = .lzToken)
    (hx : InputIs s x) (hne : x ≠ []) (hts : x.drop s.lz.pos = []) (fuel : Nat) :
    Host.Core.run core 1 s = deliver (takeOver s) .decompressionFailed
      (withNoRes1 ((replayTokens s.lz.declared fuel [] s.lz.outRev).bind (replayEnd s.lz.declared))) := by
  rw [run_one, step_noSchedule hsched, engineTurn_notFetched hb (fetchInstr_endOfTokens hf hx hne hts), replayTokens_nil]
  rfl

/-- From any point of a replay the turns left end in what the rest of the decoder answers. -/
theorem run_replay {x : List Byte} (hne : x ≠ []) (fuel : Nat) : ∀ s : State, s.busy = true → s.schedule = [] →
    s.fetch = .lzToken → InputIs s x → (x.drop s.lz.pos).length ≤ fuel →
    ∃ k, Host.Core.run core k s = deliver (takeOver s) .decompressionFailed
      (withNoRes1 ((replayTokens s.lz.declared fuel (x.drop s.lz.pos) s.lz.outRev).bind (replayEnd s.lz.declared))) := by
  induction fuel with
  | zero =>
    intro s hb hsched hf hx hlen
    have hts : x.drop s.lz.pos = [] := List.length_eq_zero_iff.mp (Nat.le_zero.mp hlen)
    exact ⟨1, hts ▸ run_replay_end hb hsched hf hx hne hts 0⟩
  | succ fuel ih =>
    intro s hb hsched hf hx hlen
    cases hts : x.drop s.lz.pos with
    | nil => exact ⟨1, run_replay_end hb hsched hf hx hne hts (fuel + 1)⟩
    | cons t ts =>
      cases hdec : decodeToken (t :: ts) with
      | error e =>
        refine ⟨1, ?_⟩
        rw [run_one, step_noSchedule hsched, engineTurn_notFetched hb (fetchInstr_badToken hf hx hne hts hdec),
          replayTokens_badToken hdec]
        rfl
      | ok read =>
        obtain ⟨i, rest⟩ := read
        obtain ⟨htok, hbytes⟩ := decodeToken_eq_ok hdec
        have hstep : step s = runToken s i (tokenBytes i).length := by
          rw [step_noSchedule hsched, engineTurn_fetched hb (fetchInstr_token hf hx hne (hts ▸ hdec)), exec_token htok]
        cases heff : tokenEffect s.lz.declared s.lz.outRev i with
        | error k =>
          refine ⟨1, ?_⟩
          rw [run_one, hstep, runToken_error heff, replayTokens_effectError hdec heff]
          rfl
        | ok outRev =>
          rw [runToken_ok heff] at hstep
          have hrest : x.drop (s.lz.pos + (tokenBytes i).length) = rest := by
            rw [← List.drop_drop, hts, hbytes, List.drop_left]
          have hshorter : rest.length ≤ fuel := by
            have := decodeToken_shorter hdec
            rw [hts] at hlen
            omega
          obtain ⟨k, hk⟩ := ih { s with lz := { declared := s.lz.declared, pos := s.lz.pos + (tokenBytes i).length, outRev := outRev } }
            hb hsched hf hx (by rw [hrest]; exact hshorter)
          refine ⟨k + 1, (run_succ_of_next hstep k).trans (hk.trans ?_)⟩
          rw [hrest, replayTokens_effect hdec heff]
          exact deliver_ignores_replay (takeOver s) s.fetch _ _ _

/-- Settles O49: the replay from its start, which differs from the command's own state in the scratch only. -/
theorem tokenStepsReplayTheCommand : Obligations.TokenStepsReplayTheCommand := by
  intro s x tokens declared hb hsched hx hprefix
  obtain ⟨hne, htokens⟩ := lzPrefix_eq_ok hprefix
  obtain ⟨k, hk⟩ := run_replay hne tokens.length (startReplay s declared) hb hsched rfl hx (htokens ▸ Nat.le_refl _)
  refine ⟨k, hk.trans ?_⟩
  have hcommand : exec .lz77Decompress s = deliver (takeOver s) .decompressionFailed (withNoRes1 (lz77Decompress x s.caps.obufCap)) :=
    transform_eq hx hne _ _
  rw [hcommand, lz77Decompress_eq_replay hprefix, ← htokens]
  exact deliver_ignores_replay (takeOver s) .lzToken _ _ _

end Sys2Proof.Machine
end

section
/-! SUPPORT. The LZ77 search (44 R221): how far two suffixes agree, and the best of the candidates in the window. -/

namespace Sys2Proof.Machine

-- As in the tests: one thread, so that the check stays inside its memory limit.
set_option Elab.async false

/-! ## How far two suffixes agree -/

theorem getElem?_cons_agree_iff {c d : Byte} {a b : List Byte} {l : Nat} :
    (∀ i, i < l + 1 → (c :: a)[i]? = (d :: b)[i]?) ↔ c = d ∧ ∀ i, i < l → a[i]? = b[i]? := by
  constructor
  · exact fun h => ⟨by simpa using h 0 (Nat.succ_pos l), fun i hi => by simpa using h (i + 1) (Nat.succ_lt_succ hi)⟩
  · rintro ⟨rfl, h⟩ (_ | i) hi
    · rfl
    · simpa using h i (Nat.lt_of_succ_lt_succ hi)

/-- `matchLen` is the greatest length, up to its bound and both ends, on which the two agree. -/
theorem le_matchLen_iff {k l : Nat} {a b : List Byte} :
    l ≤ matchLen k a b ↔ l ≤ k ∧ l ≤ a.length ∧ l ≤ b.length ∧ ∀ i, i < l → a[i]? = b[i]? := by
  induction k generalizing l a b with
  | zero =>
    simp only [matchLen, Nat.le_zero_eq]
    constructor
    · rintro rfl
      simp
    · exact fun h => h.1
  | succ k ih =>
    cases l with
    | zero => simp
    | succ l =>
      cases a with
      | nil => simp [matchLen]
      | cons c a =>
        cases b with
        | nil => simp [matchLen]
        | cons d b =>
          rw [getElem?_cons_agree_iff]
          by_cases hcd : c = d
          · simp [matchLen, hcd, ih]
          · simp [matchLen, hcd]

/-- The bytes of `x` from `j` and from a later `p` agree on `l` bytes, all of them inside the lookahead. -/
def Agree (x : List Byte) (p j l : Nat) : Prop := l ≤ min 18 (x.length - p) ∧ ∀ i, i < l → x[j + i]? = x[p + i]?

theorem le_matchLen_drop_iff {x : List Byte} {p j l : Nat} (hj : j ≤ p) :
    l ≤ matchLen (min 18 (x.length - p)) (x.drop j) (x.drop p) ↔ Agree x p j l := by
  simp only [le_matchLen_iff, Agree, List.length_drop, List.getElem?_drop]
  constructor
  · rintro ⟨hmax, -, -, hbytes⟩
    exact ⟨hmax, hbytes⟩
  · rintro ⟨hmax, hbytes⟩
    exact ⟨hmax, by omega, by omega, hbytes⟩

/-! ## The best candidate -/

theorem best_le_bestMatch (maxlen : Nat) (cur : List Byte) (cands : List (List Byte)) (off : Nat) (best : Nat × Nat) :
    best.1 ≤ (bestMatch maxlen cur cands off best).1 := by
  induction cands generalizing off best with
  | nil => exact Nat.le_refl _
  | cons cand older ih =>
    rw [bestMatch]
    refine Nat.le_trans ?_ (ih _ _)
    split
    · exact Nat.le_of_lt ‹_›
    · exact Nat.le_refl _

/-- No candidate agrees on more bytes than the answer's length. -/
theorem matchLen_le_bestMatch {maxlen : Nat} {cur c : List Byte} {cands : List (List Byte)} (hc : c ∈ cands) (off : Nat)
    (best : Nat × Nat) : matchLen maxlen c cur ≤ (bestMatch maxlen cur cands off best).1 := by
  induction cands generalizing off best with
  | nil => cases hc
  | cons cand older ih =>
    rw [bestMatch]
    cases hc with
    | head =>
      refine Nat.le_trans ?_ (best_le_bestMatch ..)
      split
      · exact Nat.le_refl _
      · exact Nat.not_lt.mp ‹_›
    | tail _ hc => exact ih hc _ _

/-- Candidates that are shorter than `n` before place `i` of `older`, and one more before them. -/
theorem shorter_before_cons {maxlen n i : Nat} {cur cand : List Byte} {older : List (List Byte)}
    (hcand : matchLen maxlen cand cur < n) (hfirst : ∀ i' c', i' < i → older[i']? = some c' → matchLen maxlen c' cur < n) :
    ∀ i' c', i' < i + 1 → (cand :: older)[i']? = some c' → matchLen maxlen c' cur < n := by
  rintro (_ | i') c' hi' hc'
  · cases hc'
    exact hcand
  · exact hfirst i' c' (Nat.lt_of_succ_lt_succ hi') hc'

/-- The answer is the best so far, or the first candidate of the answer's length. -/
theorem bestMatch_cases (maxlen : Nat) (cur : List Byte) (cands : List (List Byte)) (off : Nat) (best : Nat × Nat) :
    bestMatch maxlen cur cands off best = best ∨
      ∃ i c, cands[i]? = some c ∧ bestMatch maxlen cur cands off best = (matchLen maxlen c cur, off + i) ∧
        best.1 < matchLen maxlen c cur ∧
        ∀ i' c', i' < i → cands[i']? = some c' → matchLen maxlen c' cur < matchLen maxlen c cur := by
  induction cands generalizing off best with
  | nil => exact .inl rfl
  | cons cand older ih =>
    rw [bestMatch]
    split
    case isTrue hlonger =>
      rcases ih (off + 1) (matchLen maxlen cand cur, off) with hsame | ⟨i, c, hi, heq, hlt, hfirst⟩
      · exact .inr ⟨0, cand, rfl, hsame, hlonger, fun i' _ hi' => absurd hi' (Nat.not_lt_zero i')⟩
      · exact .inr ⟨i + 1, c, hi, heq.trans (by rw [Nat.add_right_comm, Nat.add_assoc]), Nat.lt_trans hlonger hlt,
          shorter_before_cons hlt hfirst⟩
    case isFalse hnot =>
      rcases ih (off + 1) best with hsame | ⟨i, c, hi, heq, hlt, hfirst⟩
      · exact .inl hsame
      · exact .inr ⟨i + 1, c, hi, heq.trans (by rw [Nat.add_right_comm, Nat.add_assoc]), hlt,
          shorter_before_cons (Nat.lt_of_le_of_lt (Nat.not_lt.mp hnot) hlt) hfirst⟩

/-! ## The search at a position -/

/-- The suffixes of the input that begin before `p`, nearest first: the history the parse keeps (R223). -/
def suffixesBefore (x : List Byte) (p : Nat) : List (List Byte) := (List.range p).reverse.map fun j => x.drop j

theorem suffixesBefore_succ (x : List Byte) (p : Nat) : suffixesBefore x (p + 1) = x.drop p :: suffixesBefore x p := by
  simp [suffixesBefore, List.range_succ]

/-- The candidates in the window, by their place in the history. -/
theorem window_getElem?_eq_some {x : List Byte} {p k : Nat} {c : List Byte} :
    ((suffixesBefore x p).take 4096)[k]? = some c ↔ k < 4096 ∧ k < p ∧ c = x.drop (p - 1 - k) := by
  by_cases hk : k < p
  · simp [suffixesBefore, List.getElem?_take, hk, eq_comm]
  · simp [suffixesBefore, hk]

/-- Every position in the window is a candidate: the one `o` places back stands at `o - 1`. -/
theorem window_getElem?_of_lt {x : List Byte} {p j : Nat} (hj : j < p) (hwin : p - 4096 ≤ j) :
    ((suffixesBefore x p).take 4096)[p - 1 - j]? = some (x.drop j) :=
  window_getElem?_eq_some.mpr ⟨by omega, by omega, by rw [show p - 1 - (p - 1 - j) = j by omega]⟩

section
variable {x : List Byte} {p : Nat}

theorem findMatch_nearEnd (h : min 18 (x.length - p) < 3) (hist : List (List Byte)) : findMatch (x.drop p) hist = (0, 0) := by
  rw [findMatch, List.length_drop]
  exact if_neg (Nat.not_le.mpr h)

theorem findMatch_eq_bestMatch (h : 3 ≤ min 18 (x.length - p)) :
    findMatch (x.drop p) (suffixesBefore x p) =
      bestMatch (min 18 (x.length - p)) (x.drop p) ((suffixesBefore x p).take 4096) 1 (0, 0) := by
  rw [findMatch, List.length_drop]
  exact if_pos h

/-- No position in the window agrees on more bytes than the match found. -/
theorem le_findMatch (h : 3 ≤ min 18 (x.length - p)) {j l : Nat} (hj : j < p) (hwin : p - 4096 ≤ j) (hagree : Agree x p j l) :
    l ≤ (findMatch (x.drop p) (suffixesBefore x p)).1 := by
  have hcand : x.drop j ∈ (suffixesBefore x p).take 4096 :=
    List.mem_of_getElem? (window_getElem?_of_lt hj hwin)
  rw [findMatch_eq_bestMatch h]
  exact Nat.le_trans ((le_matchLen_drop_iff (Nat.le_of_lt hj)).mpr hagree) (matchLen_le_bestMatch hcand _ _)

/-- The search finds nothing, or a match in the window that no nearer position has. -/
theorem findMatch_cases (h : 3 ≤ min 18 (x.length - p)) {len off : Nat}
    (hm : findMatch (x.drop p) (suffixesBefore x p) = (len, off)) :
    (len = 0 ∧ off = 0) ∨
      (0 < len ∧ 1 ≤ off ∧ off ≤ p ∧ off ≤ 4096 ∧ Agree x p (p - off) len ∧ ∀ j, p - off < j → j < p → ¬ Agree x p j len) := by
  rw [findMatch_eq_bestMatch h] at hm
  rcases bestMatch_cases (min 18 (x.length - p)) (x.drop p) ((suffixesBefore x p).take 4096) 1 (0, 0) with
    hnone | ⟨i, c, hi, heq, hpos, hfirst⟩
  · rw [hnone] at hm
    cases hm
    exact .inl ⟨rfl, rfl⟩
  · rw [heq] at hm
    cases hm
    obtain ⟨hwin, hip, rfl⟩ := window_getElem?_eq_some.mp hi
    have hsub : p - (1 + i) = p - 1 - i := by omega
    refine .inr ⟨hpos, by omega, by omega, by omega, ?_, fun j hjlow hj => ?_⟩
    · rw [hsub]
      exact (le_matchLen_drop_iff (by omega)).mp (Nat.le_refl _)
    · have hnear := hfirst (p - 1 - j) (x.drop j) (by omega)
        (window_getElem?_eq_some.mpr ⟨by omega, by omega, by rw [show p - 1 - (p - 1 - j) = j by omega]⟩)
      rw [← le_matchLen_drop_iff (Nat.le_of_lt hj)]
      exact Nat.not_le.mpr hnear

end

/-- Settles O51, from the greatest candidate and the first of its length. -/
theorem findMatchIsTheLongestNearest : Obligations.FindMatchIsTheLongestNearest := by
  intro x p _
  refine ⟨fun hshort => findMatch_nearEnd hshort _, fun hlong => ?_⟩
  have hcases := findMatch_cases hlong rfl
  refine ⟨fun hzero => ?_, fun hpos => ?_, fun j l hj hwin hagree => le_findMatch hlong hj hwin hagree⟩
  · rcases hcases with ⟨-, hoff⟩ | ⟨hpos, -⟩
    · exact hoff
    · exact absurd hzero (Nat.ne_of_gt hpos)
  · rcases hcases with ⟨hzero, -⟩ | ⟨-, hfound⟩
    · exact absurd hzero (Nat.ne_of_gt hpos)
    · exact hfound

end Sys2Proof.Machine
end

section
/-! SUPPORT. The LZ77 round trip (44 R230): replaying the tokens of the parse appends, token by token, the bytes the parse passed. -/

namespace Sys2Proof.Machine

-- As in the tests: one thread, so that the check stays inside its memory limit.
set_option Elab.async false

/-! ## The tokens the encoder emits (R222) -/

section
variable {declared len off : Nat} {outRev : List Byte}

/-- `emit_literal` gives a token whose effect is the literal's. -/
theorem emitLiteral_spec (declared : Nat) (outRev : List Byte) (b : Byte) :
    tokenBytes (emitLiteral b) ≠ [] ∧ (emitLiteral b).wellFormed = true ∧
      tokenEffect declared outRev (emitLiteral b) = putLiteral declared outRev b := by
  unfold emitLiteral
  split
  case isTrue hlow => exact ⟨by simp [tokenBytes], decide_eq_true hlow, rfl⟩
  case isFalse => exact ⟨by simp [tokenBytes], rfl, rfl⟩

/-- `emit_match` of a length and an offset in R220's ranges gives a token whose effect is that match. -/
theorem emitMatch_spec (h3 : 3 ≤ len) (h18 : len ≤ 18) (hwin : off ≤ 4096) :
    tokenBytes (emitMatch len off) ≠ [] ∧ (emitMatch len off).wellFormed = true ∧
      tokenEffect declared outRev (emitMatch len off) = putMatch declared outRev len off := by
  unfold emitMatch
  split
  case isTrue hshort =>
    have hoff : (BitVec.ofNat 8 off).toNat = off := Nat.mod_eq_of_lt (Nat.lt_succ_of_le hshort)
    exact ⟨by simp [tokenBytes], decide_eq_true ⟨h3, h18⟩, by rw [tokenEffect, hoff]⟩
  case isFalse =>
    have hoff : (BitVec.ofNat 16 off).toNat = off := Nat.mod_eq_of_lt (by omega)
    have hlen : (longLenByte len).toNat = len := Nat.mod_eq_of_lt (by simp only [Config.lzLongLenBias]; omega)
    exact ⟨by simp [tokenBytes], rfl, by rw [tokenEffect_long (by omega) (by omega), hlen, hoff]⟩

end

/-! ## Replaying -/

/-- The token bytes `ts` extend the output so far to `final`, whatever fuel they are given that is enough. -/
def ReplaysTo (declared : Nat) (outRev ts final : List Byte) : Prop :=
  ∀ fuel, ts.length ≤ fuel → replayTokens declared fuel ts outRev = .ok final

theorem replaysTo_nil (declared : Nat) (outRev : List Byte) : ReplaysTo declared outRev [] outRev :=
  fun fuel _ => replayTokens_nil declared fuel outRev

theorem replaysTo_token {declared : Nat} {outRev outRev' rest final : List Byte} {i : Instr} (htok : tokenBytes i ≠ [])
    (hwf : i.wellFormed = true) (heff : tokenEffect declared outRev i = .ok outRev')
    (hrest : ReplaysTo declared outRev' rest final) : ReplaysTo declared outRev (tokenBytes i ++ rest) final := by
  intro fuel hfuel
  have hdec := decodeToken_tokenBytes htok hwf rest
  have hshorter := decodeToken_shorter hdec
  obtain ⟨t, ts, hts⟩ := List.exists_cons_of_ne_nil (List.append_ne_nil_of_left_ne_nil htok rest)
  obtain ⟨fuel, rfl⟩ : ∃ n, fuel = n + 1 := Nat.exists_eq_add_one.mpr (by omega)
  rw [hts] at hdec ⊢
  rw [replayTokens_effect hdec heff]
  exact hrest fuel (by omega)

section
variable {x : List Byte} {p : Nat}

/-- One more byte of the input, as the newest of the output. -/
theorem reverse_take_succ (hp : p < x.length) : (x.take (p + 1)).reverse = x[p] :: (x.take p).reverse := by
  rw [List.take_succ_eq_append_getElem hp, List.reverse_append, List.reverse_singleton, List.singleton_append]

/-- Copying from `o` places back, byte by byte, rebuilds the bytes that agree with those `o` places back (R228); the source may overlap
what is being written. -/
theorem copyMatch_take {o l : Nat} (h1 : 1 ≤ o) (ho : o ≤ p) (hfit : p + l ≤ x.length)
    (hsame : ∀ i, i < l → x[p - o + i]? = x[p + i]?) : copyMatch o l (x.take p).reverse = (x.take (p + l)).reverse := by
  induction l generalizing p with
  | zero => rfl
  | succ l ih =>
    have hp : p < x.length := by omega
    have hback : (x.take p).reverse.getD (o - 1) 0#8 = x[p] := by
      have hfirst : x[p - o]? = x[p]? := hsame 0 (Nat.succ_pos l)
      have hidx : p - 1 - (o - 1) = p - o := by omega
      rw [List.getD_eq_getElem?_getD, List.getElem?_reverse (by simp; omega), List.length_take, Nat.min_eq_left hp.le, hidx,
        List.getElem?_take_of_lt (by omega), hfirst, List.getElem?_eq_getElem hp, Option.getD_some]
    rw [copyMatch, hback, ← reverse_take_succ hp, ih (by omega) (by omega) fun i hi => ?_]
    · congr 2
      omega
    · have hnext := hsame (i + 1) (Nat.succ_lt_succ hi)
      rwa [show p - o + (i + 1) = p + 1 - o + i by omega, show p + (i + 1) = p + 1 + i by omega] at hnext

/-! ## The parse at a position (R223) -/

theorem advanceBy_suffixes {n : Nat} (hfit : p + n ≤ x.length) :
    advanceBy n (x.drop p) (suffixesBefore x p) = (x.drop (p + n), suffixesBefore x (p + n)) := by
  induction n generalizing p with
  | zero => rfl
  | succ n ih =>
    have hp : p < x.length := by omega
    rw [List.drop_eq_getElem_cons hp, advanceBy, ← List.drop_eq_getElem_cons hp, ← suffixesBefore_succ, ih (by omega),
      Nat.add_right_comm, Nat.add_assoc]

theorem lzParse_literal (hp : p < x.length) (h : (findMatch (x.drop p) (suffixesBefore x p)).1 < 3) (fuel : Nat) :
    lzParse (fuel + 1) (x.drop p) (suffixesBefore x p) =
      emitLiteral x[p] :: lzParse fuel (x.drop (p + 1)) (suffixesBefore x (p + 1)) := by
  rw [suffixesBefore_succ]
  rw [List.drop_eq_getElem_cons hp] at h ⊢
  exact if_neg (Nat.not_le.mpr h)

theorem lzParse_match {len off : Nat} (hp : p < x.length) (hm : findMatch (x.drop p) (suffixesBefore x p) = (len, off))
    (h3 : 3 ≤ len) (hfit : p + len ≤ x.length) (fuel : Nat) :
    lzParse (fuel + 1) (x.drop p) (suffixesBefore x p) =
      emitMatch len off :: lzParse fuel (x.drop (p + len)) (suffixesBefore x (p + len)) := by
  have hadvance := advanceBy_suffixes hfit
  rw [List.drop_eq_getElem_cons hp] at hm hadvance ⊢
  rw [lzParse, hm]
  simp only [hadvance]
  exact if_pos h3

/-- A match of 3 bytes or more lies inside the input and in the window, and copies bytes that agree. -/
theorem findMatch_of_three_le {len off : Nat} (hm : findMatch (x.drop p) (suffixesBefore x p) = (len, off)) (h3 : 3 ≤ len) :
    1 ≤ off ∧ off ≤ p ∧ off ≤ 4096 ∧ Agree x p (p - off) len := by
  rcases Nat.lt_or_ge (min 18 (x.length - p)) 3 with hend | hlong
  · rw [findMatch_nearEnd hend] at hm
    cases hm
    exact absurd h3 (by decide)
  · rcases findMatch_cases hlong hm with ⟨hzero, -⟩ | ⟨-, h1, hp, hwin, hagree, -⟩
    · omega
    · exact ⟨h1, hp, hwin, hagree⟩

/-- The tokens of the parse from `p` extend the first `p` bytes of the input to the whole of it. -/
theorem replaysTo_lzParse (fuel : Nat) (hp : p ≤ x.length) (hfuel : x.length - p ≤ fuel) :
    ReplaysTo x.length (x.take p).reverse ((lzParse fuel (x.drop p) (suffixesBefore x p)).flatMap tokenBytes) x.reverse := by
  induction fuel generalizing p with
  | zero =>
    rw [show p = x.length by omega, List.take_length]
    exact replaysTo_nil _ _
  | succ fuel ih =>
    rcases Nat.eq_or_lt_of_le hp with rfl | hlt
    · rw [List.take_length, List.drop_length]
      exact replaysTo_nil _ _
    have hout : (x.take p).reverse.length = p := by rw [List.length_reverse, List.length_take, Nat.min_eq_left hp]
    obtain ⟨len, off, hm⟩ : ∃ len off, findMatch (x.drop p) (suffixesBefore x p) = (len, off) := ⟨_, _, rfl⟩
    rcases Nat.lt_or_ge len 3 with hshort | h3
    · obtain ⟨htok, hwf, heff⟩ := emitLiteral_spec x.length (x.take p).reverse x[p]
      rw [putLiteral_room (hout.symm ▸ hlt), ← reverse_take_succ hlt] at heff
      rw [lzParse_literal hlt (by rw [hm]; exact hshort), List.flatMap_cons]
      exact replaysTo_token htok hwf heff (ih hlt (by omega))
    · obtain ⟨h1, hback, hwin, hmax, hsame⟩ := findMatch_of_three_le hm h3
      have hfit : p + len ≤ x.length := by omega
      obtain ⟨htok, hwf, heff⟩ := emitMatch_spec (declared := x.length) (outRev := (x.take p).reverse) h3 (by omega) hwin
      rw [putMatch_fits h1 hwin (by omega) (by omega), copyMatch_take h1 hback hfit hsame] at heff
      rw [lzParse_match hlt hm h3 hfit, List.flatMap_cons]
      exact replaysTo_token htok hwf heff (ih hfit (by omega))

end

/-! ## The stream (R223, R226) -/

theorem lzPrefix_lz77Compress {x : List Byte} {cap : Nat} (hne : x ≠ []) (hfit : x.length ≤ cap) (hlen : x.length < 2 ^ 32) :
    lzPrefix (lz77Compress x) cap = .ok (x.length, (lzTokens x).flatMap tokenBytes) := by
  have hpos : x.length ≠ 0 := fun h => hne (List.length_eq_zero_iff.mp h)
  simp only [lz77Compress, be32, List.cons_append, List.nil_append, lzPrefix, ube32_be32 hlen]
  rw [if_neg (fun h => h rfl), if_neg hpos, if_neg (Nat.not_lt.mpr hfit)]

/-- Settles O52: the decoder replays the tokens of the parse from the start of the input. -/
theorem lz77RoundTrip : Obligations.Lz77RoundTrip := by
  intro x cap hne hfit hlen
  have hreplay : ReplaysTo x.length [] ((lzTokens x).flatMap tokenBytes) x.reverse :=
    replaysTo_lzParse (p := 0) x.length (Nat.zero_le _) (Nat.le_refl _)
  rw [lz77Decompress_eq_replay (lzPrefix_lz77Compress hne hfit (by omega)), hreplay _ (Nat.le_refl _)]
  show replayEnd x.length x.reverse = .ok x
  rw [replayEnd, if_pos List.length_reverse, List.reverse_reverse]

end Sys2Proof.Machine
end

section
/-! SUPPORT. The move-to-front coder (45 R257 to R260): the list keeps its members, and the encoder's rank and the decoder's byte name one
place in it. -/

namespace Sys2Proof.Machine

-- As in the tests: one thread, so that the check stays inside its memory limit.
set_option Elab.async false

/-! ## The list (R257): every byte value, each once -/

theorem mem_mtfIdentity (b : Byte) : b ∈ mtfIdentity := mem_allBytes b

theorem mtfIdentity_nodup : mtfIdentity.Nodup := allBytes_nodup

theorem mtfIdentity_length : mtfIdentity.length = 256 := by simp [mtfIdentity, Config.mtfSyms]

theorem moveToFront_perm (M : List Byte) (r : Nat) : (moveToFront M r).Perm M := by
  unfold moveToFront
  split
  case h_1 b hb =>
    obtain ⟨hr, rfl⟩ := List.getElem?_eq_some_iff.mp hb
    exact List.getElem_cons_eraseIdx_perm hr
  case h_2 => exact .refl M

section
variable {M : List Byte}

theorem moveToFront_keeps_identity (hM : M.Perm mtfIdentity) (r : Nat) : (moveToFront M r).Perm mtfIdentity :=
  (moveToFront_perm M r).trans hM

theorem mtfList_length (hM : M.Perm mtfIdentity) : M.length = 256 := hM.length_eq.trans mtfIdentity_length

/-- The rank of a byte fits a byte (R258), and the byte stands there. -/
theorem getD_rank (hM : M.Perm mtfIdentity) (b : Byte) :
    (BitVec.ofNat 8 (M.idxOf b)).toNat = M.idxOf b ∧ M.getD (M.idxOf b) 0#8 = b := by
  have hb : b ∈ M := hM.mem_iff.mpr (mem_mtfIdentity b)
  have hrank : M.idxOf b < M.length := List.idxOf_lt_length_of_mem hb
  refine ⟨Nat.mod_eq_of_lt (hrank.trans_eq (mtfList_length hM)), ?_⟩
  rw [List.getD_eq_getElem _ _ hrank, List.getElem_idxOf]

/-- The byte at a rank has that rank: no byte stands at two places (R260). -/
theorem rank_getD (hM : M.Perm mtfIdentity) (r : Byte) : M.idxOf (M.getD r.toNat 0#8) = r.toNat := by
  have hr : r.toNat < M.length := r.isLt.trans_eq (mtfList_length hM).symm
  have hnodup : M.Nodup := hM.nodup_iff.mpr mtfIdentity_nodup
  rw [List.getD_eq_getElem _ _ hr, hnodup.idxOf_getElem]

/-! ## The two coders (R258, R260): they splice the same list in the same way -/

theorem mtfDecodeFrom_mtfEncodeFrom (hM : M.Perm mtfIdentity) (x : List Byte) : mtfDecodeFrom M (mtfEncodeFrom M x) = x := by
  induction x generalizing M with
  | nil => rfl
  | cons b rest ih =>
    obtain ⟨hrank, hbyte⟩ := getD_rank hM b
    rw [mtfEncodeFrom, mtfDecodeFrom, hrank, hbyte, ih (moveToFront_keeps_identity hM _)]

theorem mtfEncodeFrom_mtfDecodeFrom (hM : M.Perm mtfIdentity) (y : List Byte) : mtfEncodeFrom M (mtfDecodeFrom M y) = y := by
  induction y generalizing M with
  | nil => rfl
  | cons r rest ih =>
    rw [mtfDecodeFrom, mtfEncodeFrom, rank_getD hM r, ih (moveToFront_keeps_identity hM _), BitVec.ofNat_toNat, BitVec.setWidth_eq]

theorem mtfEncodeFrom_length (M : List Byte) (x : List Byte) : (mtfEncodeFrom M x).length = x.length := by
  induction x generalizing M with
  | nil => rfl
  | cons b rest ih => rw [mtfEncodeFrom, List.length_cons, ih, List.length_cons]

end

theorem mtfDecode_mtfEncode (x : List Byte) : mtfDecode (mtfEncode x) = x := mtfDecodeFrom_mtfEncodeFrom (.refl _) x

/-- Settles O56: the coders keep one list in step, and each inverts the other's lookup in it. -/
theorem mtfRoundTrip : Obligations.MtfRoundTrip :=
  fun x => ⟨mtfDecode_mtfEncode x, mtfEncodeFrom_mtfDecodeFrom (.refl _) x⟩

end Sys2Proof.Machine
end

section
/-! SUPPORT. The sorted rotations (45 R250): the comparison is that of the bytes' values and then the indices, a total order, so the
insertion sort lists every rotation once in order. -/

namespace Sys2Proof.Machine

-- As in the tests: one thread, so that the check stays inside its memory limit.
set_option Elab.async false

/-! ## The order of the rotations -/

/-- The bytes as unsigned values, which R250 compares. -/
def byteValues (bs : List Byte) : List Nat := bs.map BitVec.toNat

theorem byteValues_injective : Function.Injective byteValues :=
  List.map_injective_iff.mpr fun _ _ h => BitVec.eq_of_toNat_eq h

theorem lexCompare_eq_lt_iff (a b : List Byte) : lexCompare a b = .lt ↔ byteValues a < byteValues b := by
  induction a generalizing b with
  | nil => cases b <;> simp [lexCompare, byteValues]
  | cons u a ih =>
    cases b with
    | nil => simp [lexCompare, byteValues]
    | cons v b =>
      have hcons : byteValues (u :: a) < byteValues (v :: b) ↔ u.toNat < v.toNat ∨ u.toNat = v.toNat ∧ byteValues a < byteValues b :=
        List.cons_lt_cons_iff
      rw [hcons, ← ih, lexCompare]
      split_ifs with hlt hgt
      · simp [hlt]
      · simp; omega
      · have heq : u.toNat = v.toNat := by omega
        simp [heq]

theorem lexCompare_eq_eq_iff (a b : List Byte) : lexCompare a b = .eq ↔ a = b := by
  induction a generalizing b with
  | nil => cases b <;> simp [lexCompare]
  | cons u a ih =>
    cases b with
    | nil => simp [lexCompare]
    | cons v b =>
      rw [lexCompare, List.cons.injEq, ← ih, ← BitVec.toNat_inj]
      split_ifs with hlt hgt
      · simp [hlt.ne]
      · simp [hgt.ne']
      · simp [show u.toNat = v.toNat by omega]

/-- What R250 orders a rotation by: its bytes' values, then its index. -/
def rotationKey (r : Rotation) : List Nat ×ₗ Nat := toLex (byteValues r.bytes, r.idx)

theorem rotationKey_le_iff (a b : Rotation) :
    rotationKey a ≤ rotationKey b ↔ byteValues a.bytes < byteValues b.bytes ∨ (a.bytes = b.bytes ∧ a.idx ≤ b.idx) :=
  Prod.Lex.toLex_le_toLex.trans (by rw [byteValues_injective.eq_iff])

theorem rotationLe_iff (a b : Rotation) : rotationLe a b = true ↔ rotationKey a ≤ rotationKey b := by
  rw [rotationKey_le_iff, ← lexCompare_eq_lt_iff, ← lexCompare_eq_eq_iff, rotationLe]
  cases lexCompare a.bytes b.bytes <;> simp

/-! ## The sort -/

theorem insertRotation_eq_orderedInsert (r : Rotation) (rs : List Rotation) :
    insertRotation r rs = rs.orderedInsert (fun a b => rotationKey a ≤ rotationKey b) r := by
  induction rs with
  | nil => rfl
  | cons a rest ih => simp only [insertRotation, List.orderedInsert, rotationLe_iff, ih]

theorem sortRotations_eq_insertionSort (rs : List Rotation) :
    sortRotations rs = rs.insertionSort fun a b => rotationKey a ≤ rotationKey b := by
  induction rs with
  | nil => rfl
  | cons r rest ih => rw [List.insertionSort_cons, ← ih, ← insertRotation_eq_orderedInsert, sortRotations, sortRotations, List.foldr_cons]

theorem sortRotations_perm (rs : List Rotation) : (sortRotations rs).Perm rs :=
  sortRotations_eq_insertionSort rs ▸ List.perm_insertionSort _ rs

theorem sortRotations_sorted (rs : List Rotation) : (sortRotations rs).Pairwise fun a b => rotationKey a ≤ rotationKey b := by
  have : Std.Total fun a b : Rotation => rotationKey a ≤ rotationKey b := ⟨fun a b => le_total (rotationKey a) (rotationKey b)⟩
  have : IsTrans Rotation fun a b => rotationKey a ≤ rotationKey b := ⟨fun _ _ _ hab hbc => le_trans hab hbc⟩
  rw [sortRotations_eq_insertionSort]
  exact List.pairwise_insertionSort _ rs

/-! ## SA -/

theorem suffixOrder_perm (x : List Byte) : (suffixOrder x).Perm (List.range x.length) := by
  have hidx : (rotations x).map Rotation.idx = List.range x.length := by
    rw [rotations, List.map_map]
    exact List.map_id _
  exact hidx ▸ (sortRotations_perm (rotations x)).map Rotation.idx

theorem bytes_of_mem_rotations {x : List Byte} {r : Rotation} (h : r ∈ rotations x) : r.bytes = x.drop r.idx ++ x.take r.idx := by
  obtain ⟨i, -, rfl⟩ := List.mem_map.mp h
  rfl

/-- Settles O54: the sort's keys are in order, and no index stands twice in SA, so equal rotations differ in it. -/
theorem rotationsAreSorted : Obligations.RotationsAreSorted := by
  intro x
  refine ⟨suffixOrder_perm x, List.pairwise_map.mpr ?_⟩
  have hdistinct : (sortRotations (rotations x)).Pairwise fun a b => a.idx ≠ b.idx :=
    List.pairwise_map.mp ((suffixOrder_perm x).nodup_iff.mpr List.nodup_range)
  refine ((sortRotations_sorted (rotations x)).and hdistinct).imp_of_mem fun {a b} ha hb h => ?_
  obtain ⟨hle, hne⟩ := h
  rw [← bytes_of_mem_rotations ((sortRotations_perm _).mem_iff.mp ha), ← bytes_of_mem_rotations ((sortRotations_perm _).mem_iff.mp hb)]
  rcases (rotationKey_le_iff a b).mp hle with hlt | ⟨hbytes, hidx⟩
  · exact .inl hlt
  · exact .inr ⟨hbytes, Nat.lt_of_le_of_ne hidx hne⟩

end Sys2Proof.Machine
end

section
/-! SUPPORT. The Burrows-Wheeler inverse (45 R254, R255): the LF map of the last column leads from a rotation to the one a byte back,
equal rotations taken as one, so the walk reads the input backwards. -/

namespace Sys2Proof.Machine

-- As in the tests: one thread, so that the check stays inside its memory limit.
set_option Elab.async false

/-! ## Places in a sorted list -/

/-- The places of a value in a sorted list start after the smaller elements and end before the larger. -/
theorem getElem?_of_sorted {α : Type} [LinearOrder α] {S : List α} (hS : S.Pairwise (· ≤ ·)) {v : α} {p : Nat}
    (hlow : S.countP (· < v) ≤ p) (hhigh : p < S.countP (· ≤ v)) : S[p]? = some v := by
  induction S generalizing p with
  | nil => simp at hhigh
  | cons a S ih =>
    obtain ⟨ha, hS⟩ := List.pairwise_cons.mp hS
    rcases lt_trichotomy a v with hlt | rfl | hgt
    · rw [List.countP_cons_of_pos (by simpa using hlt)] at hlow
      rw [List.countP_cons_of_pos (by simpa using hlt.le)] at hhigh
      obtain ⟨p, rfl⟩ : ∃ q, p = q + 1 := Nat.exists_eq_add_one.mpr (by omega)
      exact ih hS (by omega) (by omega)
    · cases p with
      | zero => rfl
      | succ p =>
        have hnone : S.countP (· < a) = 0 := List.countP_eq_zero.mpr fun w hw => by simpa using ha w hw
        rw [List.countP_cons_of_pos (by simp)] at hhigh
        exact ih hS (hnone.trans_le (Nat.zero_le p)) (by omega)
    · have hnone : (a :: S).countP (· ≤ v) = 0 :=
        List.countP_eq_zero.mpr fun w hw => by
          rcases List.mem_cons.mp hw with rfl | hw
          · simpa using hgt
          · simpa using hgt.trans_le (ha w hw)
      omega

theorem countP_le_of_imp {α : Type} {p q : α → Prop} [DecidablePred p] [DecidablePred q] {A : List α} (h : ∀ w ∈ A, p w → q w) :
    A.countP (fun w => p w) ≤ A.countP (fun w => q w) :=
  List.countP_mono_left fun w hw hp => decide_eq_true (h w hw (of_decide_eq_true hp))

theorem countP_key_le {α : Type} (key : α → Nat) (n : Nat) (A : List α) :
    A.countP (fun w => key w ≤ n) = A.countP (fun w => key w < n) + A.countP (fun w => key w = n) := by
  induction A with
  | nil => rfl
  | cons a A ih =>
    simp only [List.countP_cons, ih, decide_eq_true_eq]
    split_ifs <;> omega

/-- A list sorted but for a key that leads the order, and stable: the elements with smaller keys and the earlier ones with the same key
are as many as stand before an element when all is sorted. -/
theorem stable_place {α : Type} [LinearOrder α] {key : α → Nat} (hkey : ∀ {a b : α}, key a < key b → a < b) {A B : List α} {v : α}
    (hstable : (A ++ v :: B).Pairwise fun a b => key a = key b → a ≤ b) :
    (A ++ v :: B).countP (· < v) ≤ (A ++ v :: B).countP (fun w => key w < key v) + A.countP (fun w => key w = key v) ∧
      (A ++ v :: B).countP (fun w => key w < key v) + A.countP (fun w => key w = key v) < (A ++ v :: B).countP (· ≤ v) := by
  obtain ⟨-, htail, hbefore⟩ := List.pairwise_append.mp hstable
  have hafter : ∀ w ∈ B, key v = key w → v ≤ w := (List.pairwise_cons.mp htail).1
  have key_le {a b : α} (h : a ≤ b) : key a ≤ key b := Nat.le_of_not_lt fun hlt => (hkey hlt).not_ge h
  have hA : A.countP (· < v) ≤ A.countP fun w => key w ≤ key v := countP_le_of_imp fun w _ h => key_le h.le
  have hA' : A.countP (fun w => key w ≤ key v) ≤ A.countP (· ≤ v) :=
    countP_le_of_imp fun w hw h => h.lt_or_eq.elim (fun hlt => (hkey hlt).le) (hbefore w hw v List.mem_cons_self)
  have hB : B.countP (· < v) ≤ B.countP fun w => key w < key v :=
    countP_le_of_imp fun w hw h => (key_le h.le).lt_of_ne fun heq => h.not_ge (hafter w hw heq.symm)
  have hB' : B.countP (fun w => key w < key v) ≤ B.countP (· ≤ v) := countP_le_of_imp fun w _ h => (hkey h).le
  rw [countP_key_le] at hA hA'
  simp only [List.countP_append, List.countP_cons, lt_irrefl, le_refl, decide_true, decide_false, if_true, Bool.false_eq_true, if_false]
  omega

/-! ## A rotation a byte back: its last byte comes first -/

theorem headD_lt_imp_lt {a b : List Nat} (h : a.headD 0 < b.headD 0) : a < b := by
  cases a with
  | nil =>
    cases b with
    | nil => exact absurd h (lt_irrefl _)
    | cons v b => exact List.nil_lt_cons v b
  | cons u a =>
    cases b with
    | nil => exact absurd h (Nat.not_lt_zero u)
    | cons v b => exact List.cons_lt_cons_iff.mpr (.inl h)

theorem append_lt_append_of_lt {a b : List Nat} (h : a < b) (hlen : a.length = b.length) (c d : List Nat) : a ++ c < b ++ d := by
  induction a generalizing b with
  | nil => exact absurd (List.length_eq_zero_iff.mp hlen.symm ▸ h) (lt_irrefl _)
  | cons u a ih =>
    cases b with
    | nil => simp at hlen
    | cons v b =>
      rcases List.cons_lt_cons_iff.mp h with huv | ⟨rfl, hab⟩
      · exact List.cons_lt_cons_iff.mpr (.inl huv)
      · exact List.cons_lt_cons_iff.mpr (.inr ⟨rfl, ih hab (Nat.succ_inj.mp hlen)⟩)

theorem exists_rotate_back {n : Nat} {a : List Nat} (ha : a.length = n + 1) :
    ∃ u init, a = init ++ [u] ∧ init.length = n ∧ a.rotate n = u :: init := by
  obtain ⟨init, u, rfl⟩ := List.eq_nil_or_concat a |>.resolve_left (by rintro rfl; simp at ha)
  have hinit : init.length = n := by simpa using ha
  exact ⟨u, init, by simp, hinit, by rw [← hinit, List.concat_eq_append, List.rotate_append_length_eq, List.singleton_append]⟩

/-- Rotations in order stay so when the bytes they bring to the front are equal: this is what makes the rank of R254 stable. -/
theorem rotate_back_le {n : Nat} {a b : List Nat} (ha : a.length = n + 1) (hb : b.length = n + 1) (hab : a ≤ b)
    (hhead : (a.rotate n).headD 0 = (b.rotate n).headD 0) : a.rotate n ≤ b.rotate n := by
  obtain ⟨u, s, rfl, hs, hrs⟩ := exists_rotate_back ha
  obtain ⟨v, t, rfl, ht, hrt⟩ := exists_rotate_back hb
  rw [hrs, hrt] at hhead ⊢
  obtain rfl : u = v := hhead
  refine le_of_not_gt fun hlt => hab.not_gt ?_
  rcases List.cons_lt_cons_iff.mp hlt with huu | ⟨-, hts⟩
  · exact absurd huu (lt_irrefl u)
  · exact append_lt_append_of_lt hts (ht.trans hs.symm) [u] [u]

theorem byteValues_rotate (x : List Byte) (i : Nat) : byteValues (x.rotate i) = (byteValues x).rotate i := List.map_rotate _ _ _

theorem byteValues_headD (x : List Byte) : (byteValues x).headD 0 = (x.headD 0#8).toNat := by cases x <;> rfl

/-! ## SA and the last column (R250, R251) -/

theorem map_rotate_range {x : List Byte} (hne : x ≠ []) : (List.range x.length).map x.rotate = x.cyclicPermutations :=
  List.ext_getElem (by simp [hne]) fun i _ _ => by simp

/-- Turning every rotation by as much only permutes them. -/
theorem map_rotate_add_perm {x : List Byte} (hne : x ≠ []) (m : Nat) :
    ((suffixOrder x).map fun i => x.rotate (i + m)).Perm ((suffixOrder x).map x.rotate) := by
  have hturned : (List.range x.length).map (fun i => x.rotate (i + m)) = x.cyclicPermutations.rotate m := by
    rw [← List.cyclicPermutations_rotate, ← map_rotate_range (by simpa using hne), List.length_rotate]
    exact List.map_congr_left fun i _ => by rw [List.rotate_rotate, Nat.add_comm]
  have hrange : ((List.range x.length).map fun i => x.rotate (i + m)).Perm ((List.range x.length).map x.rotate) := by
    rw [hturned, map_rotate_range hne]
    exact List.rotate_perm _ m
  exact (((suffixOrder_perm x).map _).trans hrange).trans ((suffixOrder_perm x).map _).symm

theorem suffixOrder_sorted (x : List Byte) : (suffixOrder x).Pairwise fun i j => byteValues (x.rotate i) ≤ byteValues (x.rotate j) := by
  refine (rotationsAreSorted x).2.imp_of_mem fun {i j} hi hj h => ?_
  have hlt {k : Nat} (hk : k ∈ suffixOrder x) : k ≤ x.length := (List.mem_range.mp ((suffixOrder_perm x).mem_iff.mp hk)).le
  rw [List.rotate_eq_drop_append_take (hlt hi), List.rotate_eq_drop_append_take (hlt hj)]
  rcases h with hlt | ⟨heq, -⟩
  · exact le_of_lt hlt
  · rw [heq]

/-- The byte before rotation `i`, which comes first when the rotation turns one byte back. -/
def byteBack (x : List Byte) (i : Nat) : Byte := (x.rotate (i + (x.length - 1))).headD 0#8

theorem headD_rotate {x : List Byte} (hne : x ≠ []) (m : Nat) : (x.rotate m).headD 0#8 = x.getD (m % x.length) 0#8 := by
  rw [← List.rotate_mod, List.headD_eq_head?_getD, List.head?_rotate (Nat.mod_lt _ (List.length_pos_of_ne_nil hne)),
    List.getD_eq_getElem?_getD]

theorem lastColumn_eq {x : List Byte} (hne : x ≠ []) : lastColumn x = (suffixOrder x).map (byteBack x) :=
  List.map_congr_left fun i _ => by
    rw [byteBack, headD_rotate hne, Nat.add_sub_assoc (List.length_pos_of_ne_nil hne)]

theorem suffixOrder_length (x : List Byte) : (suffixOrder x).length = x.length :=
  (suffixOrder_perm x).length_eq.trans List.length_range

theorem lastColumn_length (x : List Byte) : (lastColumn x).length = x.length := List.length_map _ |>.trans (suffixOrder_length x)

/-! ## The LF map (R254) -/

theorem lfMap_append (A B : List Byte) (c : Byte) :
    lfMap (A ++ c :: B) A.length =
      (A ++ c :: B).countP (fun b => b.toNat < c.toNat) + A.countP (fun b => b.toNat = c.toNat) := by
  have hc : (A ++ c :: B).getD A.length 0#8 = c := by simp
  rw [lfMap, cumulative, rankAt, hc, List.take_left, List.count_eq_countP]
  congr 2
  funext b
  simp only [BitVec.toNat_inj, beq_eq_decide]

section
variable {x : List Byte}

/-- The values of a rotation one byte back. -/
def valuesBack (x : List Byte) (i : Nat) : List Nat := byteValues (x.rotate (i + (x.length - 1)))

theorem valuesBack_eq (x : List Byte) (i : Nat) : valuesBack x i = (byteValues (x.rotate i)).rotate (x.length - 1) := by
  rw [valuesBack, ← List.rotate_rotate, byteValues_rotate]

theorem valuesBack_headD (x : List Byte) (i : Nat) : (valuesBack x i).headD 0 = (byteBack x i).toNat := byteValues_headD _

theorem valuesBack_stable (hne : x ≠ []) :
    ((suffixOrder x).map (valuesBack x)).Pairwise fun a b => a.headD 0 = b.headD 0 → a ≤ b := by
  refine List.pairwise_map.mpr ((suffixOrder_sorted x).imp fun {i j} hij hhead => ?_)
  have hlen (k : Nat) : (byteValues (x.rotate k)).length = x.length - 1 + 1 := by
    rw [byteValues, List.length_map, List.length_rotate, Nat.sub_add_cancel (List.length_pos_of_ne_nil hne)]
  rw [valuesBack_eq, valuesBack_eq] at hhead ⊢
  exact rotate_back_le (hlen i) (hlen j) hij hhead

theorem countP_valuesBack (hne : x ≠ []) (p : List Nat → Bool) :
    ((suffixOrder x).map (valuesBack x)).countP p = ((suffixOrder x).map fun i => byteValues (x.rotate i)).countP p := by
  have hperm := (map_rotate_add_perm hne (x.length - 1)).map byteValues
  rw [List.map_map, List.map_map] at hperm
  exact hperm.countP_eq p

/-- The LF map compares the bytes that the rotations bring to the front (R254). -/
theorem lfMap_lastColumn (hne : x ≠ []) {A B : List Nat} {i : Nat} (h : suffixOrder x = A ++ i :: B) :
    lfMap (lastColumn x) A.length =
      ((suffixOrder x).map (valuesBack x)).countP (fun w => w.headD 0 < (valuesBack x i).headD 0) +
        (A.map (valuesBack x)).countP (fun w => w.headD 0 = (valuesBack x i).headD 0) := by
  have hplace := lfMap_append (A.map (byteBack x)) (B.map (byteBack x)) (byteBack x i)
  rw [List.length_map, ← List.map_cons, ← List.map_append, ← h, ← lastColumn_eq hne] at hplace
  rw [hplace, lastColumn_eq hne]
  simp only [List.countP_map, Function.comp_def, valuesBack_headD]

theorem exists_split_at {l : List Nat} {i k : Nat} (h : l[k]? = some i) : ∃ A B, l = A ++ i :: B ∧ A.length = k := by
  obtain ⟨hk, rfl⟩ := List.getElem?_eq_some_iff.mp h
  exact ⟨l.take k, l.drop (k + 1), by rw [← List.drop_eq_getElem_cons, List.take_append_drop], List.length_take_of_le hk.le⟩

/-- The LF map of a rotation's place leads to the rotation one byte back, or to one equal to it. -/
theorem rotate_at_lfMap (hne : x ≠ []) {i k : Nat} (hk : (suffixOrder x)[k]? = some i) :
    ∃ j, (suffixOrder x)[lfMap (lastColumn x) k]? = some j ∧ x.rotate j = x.rotate (i + (x.length - 1)) := by
  obtain ⟨A, B, hsplit, rfl⟩ := exists_split_at hk
  have hstable := valuesBack_stable hne
  rw [hsplit, List.map_append, List.map_cons] at hstable
  obtain ⟨hlow, hhigh⟩ := stable_place headD_lt_imp_lt hstable
  rw [← List.map_cons, ← List.map_append, ← hsplit, ← lfMap_lastColumn hne hsplit, countP_valuesBack hne] at hlow hhigh
  have hplace := getElem?_of_sorted (List.pairwise_map.mpr (suffixOrder_sorted x)) hlow hhigh
  obtain ⟨j, hj, hrot⟩ := Option.map_eq_some_iff.mp (List.getElem?_map ▸ hplace)
  exact ⟨j, hj, byteValues_injective hrot⟩

/-! ## The walk (R255) -/

/-- From a rotation that starts `i` bytes into the input, the walk puts the `i` bytes before it in front of what it has. -/
theorem bwtWalk_eq (hne : x ≠ []) {i k j : Nat} (hi : i ≤ x.length) (hk : (suffixOrder x)[k]? = some j) (hrot : x.rotate j = x.rotate i)
    (out : List Byte) : bwtWalk (lastColumn x) i k out = x.take i ++ out := by
  induction i generalizing k j out with
  | zero => rfl
  | succ i ih =>
    have hback : x.rotate (j + (x.length - 1)) = x.rotate i := by
      rw [← List.rotate_rotate, hrot, List.rotate_rotate, show i + 1 + (x.length - 1) = x.length + i by omega, ← List.rotate_rotate,
        List.rotate_length]
    have hbyte : (lastColumn x).getD k 0#8 = x[i] := by
      rw [lastColumn_eq hne, List.getD_eq_getElem?_getD, List.getElem?_map, hk, Option.map_some, Option.getD_some, byteBack,
        hback, headD_rotate hne, Nat.mod_eq_of_lt hi, List.getD_eq_getElem _ _ hi]
    obtain ⟨j', hj', hrot'⟩ := rotate_at_lfMap hne hk
    rw [bwtWalk, hbyte, ih (Nat.le_of_succ_le hi) hj' (hrot'.trans hback), List.take_succ_eq_append_getElem hi, List.append_assoc,
      List.singleton_append]

end

theorem primaryIndex_spec {x : List Byte} (hne : x ≠ []) : (suffixOrder x)[primaryIndex x]? = some 0 :=
  List.getElem?_idxOf ((suffixOrder_perm x).mem_iff.mpr (List.mem_range.mpr (List.length_pos_of_ne_nil hne)))

theorem primaryIndex_lt {x : List Byte} (hne : x ≠ []) : primaryIndex x < x.length := by
  obtain ⟨hlt, -⟩ := List.getElem?_eq_some_iff.mp (primaryIndex_spec hne)
  rwa [suffixOrder_length] at hlt

theorem bwtInverse_bwtForward {x : List Byte} (hne : x ≠ []) : bwtInverse (lastColumn x) (primaryIndex x) = x := by
  have hrot : x.rotate 0 = x.rotate x.length := by rw [List.rotate_zero, List.rotate_length]
  rw [bwtInverse, lastColumn_length, bwtWalk_eq hne (Nat.le_refl _) (primaryIndex_spec hne) hrot, List.take_length, List.append_nil]

/-- Settles O55: the walk starts at rotation 0, and each turn of the LF map is one byte back, also where rotations are equal. -/
theorem bwtRoundTrip : Obligations.BwtRoundTrip :=
  fun _ hne => ⟨bwtInverse_bwtForward hne, primaryIndex_lt hne⟩

end Sys2Proof.Machine
end

section
/-! SUPPORT. The BMH pipeline (45 R262, R265): the Huffman stage gives back the index and the ranks, and the index passes its check. -/

namespace Sys2Proof.Machine

-- As in the tests: one thread, so that the check stays inside its memory limit.
set_option Elab.async false

theorem bmhContent_be32 {P : Nat} {M : List Byte} (hP : P < M.length) (hword : P < 2 ^ 32) :
    bmhContent (be32 P ++ M) = .ok (bwtInverse (mtfDecode M) P) := by
  obtain ⟨m, M, rfl⟩ := List.exists_cons_of_length_pos (Nat.zero_lt_of_lt hP)
  simp only [be32, List.cons_append, List.nil_append, bmhContent, ube32_be32 hword]
  exact if_neg (Nat.not_le.mpr hP)

theorem bmhContent_forward {x : List Byte} (hne : x ≠ []) (hlen : x.length ≤ 2 ^ 28) :
    bmhContent (be32 (bwtForward x).2 ++ mtfEncode (bwtForward x).1) = .ok x := by
  have hindex : primaryIndex x < x.length := primaryIndex_lt hne
  have hranks : (mtfEncode (lastColumn x)).length = x.length := (mtfEncodeFrom_length _ _).trans (lastColumn_length x)
  rw [bwtForward, bmhContent_be32 (hindex.trans_eq hranks.symm) (by omega), mtfDecode_mtfEncode, bwtInverse_bwtForward hne]

/-- Settles O57: the three stages come back one by one; the Huffman stage has room for the four bytes of the index. -/
theorem bmhRoundTrip : Obligations.BmhRoundTrip := by
  intro x cap hne hfit hlen
  have hstage : (be32 (bwtForward x).2 ++ mtfEncode (bwtForward x).1).length = x.length + 4 := by
    rw [List.length_append, mtfEncode, mtfEncodeFrom_length, bwtForward, lastColumn_length, Nat.add_comm]
    rfl
  obtain ⟨y, hcompress, hdecompress⟩ :=
    huffDecompress_huffCompress (cap := cap + 4) (List.ne_nil_of_length_eq_add_one hstage) (by omega) (by omega)
  refine ⟨y, hcompress, ?_⟩
  rw [bmhDecompress, hdecompress]
  exact bmhContent_forward hne hlen

end Sys2Proof.Machine
end

section
/-! SUPPORT. The range encoder (46 R281 to R286): a bit narrows the interval, shift_low moves the number written so far up by one byte, and
the bounds that keep the carry inside the bytes held back. -/

namespace Sys2Proof.Machine

-- As in the tests: one thread, so that the check stays inside its memory limit.
set_option Elab.async false

/-! ## Probabilities (R281) -/

/-- The probabilities that the updates reach. -/
def ProbInRange (p : Nat) : Prop := 31 ≤ p ∧ p ≤ 2017

theorem adaptProb_inRange {p : Nat} (h : ProbInRange p) (b : Bool) : ProbInRange (adaptProb p b) := by
  obtain ⟨hlow, hhigh⟩ := h
  cases b <;> simp only [ProbInRange, adaptProb, Config.rcMoveBits, Config.rcProbBits, if_true, Bool.false_eq_true, if_false] <;> omega

/-- Every entry of the table is such a probability, the default of a missing one included. -/
def Probs.InRange (t : Probs) : Prop := ∀ c m, ProbInRange (t.entry c m)

theorem probInRange_init : ProbInRange Config.rcProbInit := by
  simp only [ProbInRange, Config.rcProbInit]
  omega

theorem initProbs_inRange : initProbs.InRange := by
  intro c m
  have hrow : initProbs.getD c [] = List.replicate 256 Config.rcProbInit ∨ initProbs.getD c [] = [] := by
    obtain h | h := Nat.lt_or_ge c 256
    · exact .inl (List.getD_replicate _ h)
    · exact .inr (List.getD_eq_default _ _ (by rwa [initProbs, List.length_replicate]))
  have hentry : initProbs.entry c m = Config.rcProbInit := by
    obtain h | h := hrow <;> rw [Probs.entry, h]
    · rw [List.getD_eq_getElem?_getD, List.getElem?_getD_replicate_default_eq]
    · rfl
  rw [hentry]
  exact probInRange_init

/-- A written list holds the new value at one place or, where the place lies outside, nowhere. -/
theorem getD_set_cases {α : Type} (l : List α) (i j : Nat) (a default : α) :
    i = j ∧ (l.set i a).getD j default = a ∨ (l.set i a).getD j default = l.getD j default := by
  simp only [List.getD_eq_getElem?_getD, List.getElem?_set]
  split
  case isTrue hij =>
    split
    case isTrue => exact .inl ⟨hij, rfl⟩
    case isFalse hout =>
      subst hij
      rw [List.getElem?_eq_none (Nat.le_of_not_lt hout)]
      exact .inr rfl
  case isFalse => exact .inr rfl

theorem entry_update (t : Probs) (c m p c' m' : Nat) :
    (t.update c m p).entry c' m' = p ∨ (t.update c m p).entry c' m' = t.entry c' m' := by
  simp only [Probs.update, Probs.entry]
  obtain ⟨rfl, hrow⟩ | hrow := getD_set_cases t c c' ((t.getD c []).set m p) [] <;> rw [hrow]
  · exact (getD_set_cases (t.getD c []) m m' p Config.rcProbInit).imp_left And.right
  · exact .inr rfl

theorem update_inRange {t : Probs} (ht : t.InRange) {p : Nat} (hp : ProbInRange p) (c m : Nat) : (t.update c m p).InRange := by
  intro c' m'
  obtain h | h := entry_update t c m p c' m'
  · rwa [h]
  · rw [h]
    exact ht c' m'

/-! ## Narrowing (R283) -/

/-- The encoder after a bit, before the renormalisation. -/
def narrow (e : RcEnc) (p : Nat) (b : Bool) : RcEnc :=
  if b then { e with low := e.low + rcBound e.range p, range := e.range - rcBound e.range p } else { e with range := rcBound e.range p }

theorem encodeBit_eq (e : RcEnc) (p : Nat) (b : Bool) : encodeBit e p b = rcNormalise (narrow e p b) := rfl

@[simp] theorem narrow_cache (e : RcEnc) (p : Nat) (b : Bool) : (narrow e p b).cache = e.cache := by cases b <;> rfl
@[simp] theorem narrow_cacheSize (e : RcEnc) (p : Nat) (b : Bool) : (narrow e p b).cacheSize = e.cacheSize := by cases b <;> rfl
@[simp] theorem narrow_outRev (e : RcEnc) (p : Nat) (b : Bool) : (narrow e p b).outRev = e.outRev := by cases b <;> rfl

/-- Both parts of a range keep at least 31 of its 2048 steps. -/
theorem rcBound_bounds {range p : Nat} (hp : ProbInRange p) (hr : 2 ^ 24 ≤ range) :
    2 ^ 16 ≤ rcBound range p ∧ rcBound range p + 2 ^ 16 ≤ range := by
  obtain ⟨hlow, hhigh⟩ := hp
  have hleast : range / 2 ^ 11 * 31 ≤ rcBound range p := Nat.mul_le_mul_left _ hlow
  have hmost : rcBound range p ≤ range / 2 ^ 11 * 2017 := Nat.mul_le_mul_left _ hhigh
  omega

/-- The bounds of `low` and `range`; the least range is `2^24` between two bits and `2^16` within one. -/
structure RangeBounds (least : Nat) (e : RcEnc) : Prop where
  least : least ≤ e.range
  word : e.range < 2 ^ 32
  sum : e.low + e.range ≤ 2 ^ 33

/-- A narrowed interval lies in the old one. -/
theorem narrow_inside {e : RcEnc} {p : Nat} (hp : ProbInRange p) (he : 2 ^ 24 ≤ e.range) (b : Bool) :
    2 ^ 16 ≤ (narrow e p b).range ∧ e.low ≤ (narrow e p b).low ∧
      (narrow e p b).low + (narrow e p b).range ≤ e.low + e.range := by
  obtain ⟨hleast, hmost⟩ := rcBound_bounds hp he
  cases b <;> simp only [narrow, if_true, Bool.false_eq_true, if_false] <;> omega

theorem narrow_bounds {e : RcEnc} {p : Nat} (hp : ProbInRange p) (he : RangeBounds (2 ^ 24) e) (b : Bool) :
    RangeBounds (2 ^ 16) (narrow e p b) := by
  obtain ⟨hleast, hword, hsum⟩ := he
  obtain ⟨hnarrow, hlow, hhigh⟩ := narrow_inside hp hleast b
  exact ⟨hnarrow, by omega, by omega⟩

/-! ## shift_low (R284) -/

@[simp] theorem shiftLow_low (e : RcEnc) : (shiftLow e).low = e.low % 2 ^ 24 * 2 ^ 8 := by
  unfold shiftLow
  split <;> rfl

/-- shift_low neither reads nor writes `range`. -/
theorem shiftLow_withRange (e : RcEnc) (r : Nat) : shiftLow { e with range := r } = { shiftLow e with range := r } := by
  unfold shiftLow
  split <;> rfl

/-- The digits of the number written so far: the bytes out, the cached one and those held back. -/
def digitCount (e : RcEnc) : Nat := e.outRev.length + e.cacheSize

theorem shiftLow_cacheSize_pos (e : RcEnc) : 1 ≤ (shiftLow e).cacheSize := by
  unfold shiftLow
  split
  · exact Nat.le_refl 1
  · exact Nat.le_add_left 1 _

theorem shiftLow_digitCount {e : RcEnc} (h : 1 ≤ e.cacheSize) : digitCount (shiftLow e) = digitCount e + 1 := by
  unfold shiftLow digitCount
  split
  · simp only [List.length_append, List.length_replicate, List.length_cons]
    omega
  · rfl

/-! ## Renormalisation (R283) -/

/-- What one pass does to a range that one byte brings back. -/
theorem rcNormalise_cases (e : RcEnc) :
    (2 ^ 24 ≤ e.range ∧ rcNormalise e = e) ∨
      (e.range < 2 ^ 24 ∧ rcNormalise e = { shiftLow e with range := e.range * 2 ^ 8 }) := by
  unfold rcNormalise
  split
  case isTrue h =>
    have hsmall : e.range < 2 ^ 24 := h
    refine .inr ⟨hsmall, ?_⟩
    rw [shiftLow_withRange, Nat.mod_eq_of_lt (by omega)]
  case isFalse h => exact .inl ⟨Nat.le_of_not_lt h, rfl⟩

/-- One byte brings a narrowed range back to at least `2^24`. -/
theorem rcNormalise_bounds {e : RcEnc} (he : RangeBounds (2 ^ 16) e) : RangeBounds (2 ^ 24) (rcNormalise e) := by
  obtain ⟨hleast, hword, hsum⟩ := he
  obtain ⟨hbig, heq⟩ | ⟨hsmall, heq⟩ := rcNormalise_cases e <;> rw [heq]
  · exact ⟨hbig, hword, hsum⟩
  · constructor <;> simp only [shiftLow_low] <;> omega

theorem encodeBit_bounds {e : RcEnc} {p : Nat} (hp : ProbInRange p) (he : RangeBounds (2 ^ 24) e) (b : Bool) :
    RangeBounds (2 ^ 24) (encodeBit e p b) := by
  rw [encodeBit_eq]
  exact rcNormalise_bounds (narrow_bounds hp he b)

/-- Settles O58: a bit leaves at least 31 of 2048 parts of the range, and the byte that renormalisation moves out of `low` makes room
for the one that it adds to `range`. -/
theorem rangeCoderKeepsItsBounds : Obligations.RangeCoderKeepsItsBounds := by
  refine ⟨fun p b hlow hhigh => adaptProb_inRange ⟨hlow, hhigh⟩ b, fun e p b hlow hhigh hleast hword hsum => ?_, fun e h => ?_⟩
  · obtain ⟨hleast', hword', hsum'⟩ := encodeBit_bounds ⟨hlow, hhigh⟩ ⟨hleast, hword, hsum⟩ b
    exact ⟨hleast', hword', hsum'⟩
  · exact ⟨shiftLow_cacheSize_pos e, shiftLow_digitCount h⟩

end Sys2Proof.Machine
end

section
/-! SUPPORT. The round trip of the range coder (46 R289, R294). Encoder and decoder are compared as intervals of one big number: the stream
read as a base 256 number lies in the encoder's interval at every bit, and the decoder's `code` is its distance from the interval's start. -/

namespace Sys2Proof.Machine

-- As in the tests: one thread, so that the check stays inside its memory limit.
set_option Elab.async false

/-! ## Byte strings as numbers -/

/-- The number a byte string writes, most significant byte first. -/
def streamValue (s : List Byte) : Nat := Nat.ofDigits 256 (byteValues s.reverse)

theorem streamValue_append (s t : List Byte) : streamValue (s ++ t) = streamValue s * 256 ^ t.length + streamValue t := by
  simp only [streamValue, byteValues, List.reverse_append, List.map_append, Nat.ofDigits_append, List.length_map, List.length_reverse]
  ring

theorem streamValue_singleton (v : Byte) : streamValue [v] = v.toNat := Nat.ofDigits_singleton

theorem streamValue_lt (s : List Byte) : streamValue s < 256 ^ s.length := by
  have hdigits : ∀ v ∈ byteValues s.reverse, v < 256 := by
    intro v hv
    obtain ⟨b, -, rfl⟩ := List.mem_map.mp hv
    exact b.isLt
  simpa [streamValue, byteValues] using Nat.ofDigits_lt_base_pow_length (by omega) hdigits

theorem streamValue_five (r0 r1 r2 r3 r4 : Byte) : streamValue [r0, r1, r2, r3, r4] = r0.toNat * 2 ^ 32 + ube32 r1 r2 r3 r4 := by
  simp [streamValue, byteValues, Nat.ofDigits_cons, ube32]
  ring

/-! ## The number written so far (R282, R284) -/

/-- The digits written so far, newest first: the bytes held back as 0xFF, the cached byte, the bytes out. -/
def digitsHeld (e : RcEnc) : List Nat := List.replicate (e.cacheSize - 1) 0xFF ++ e.cache :: byteValues e.outRev

/-- The start of the encoder's interval: its digits and then the 32 bits of `low`, a carry included. -/
def codedValue (e : RcEnc) : Nat := Nat.ofDigits 256 (digitsHeld e) * 2 ^ 32 + e.low

/-- A carry meets no digit 0xFF that cannot take it: shift_low loses nothing. -/
structure CarryFits (e : RcEnc) : Prop where
  pending : 1 ≤ e.cacheSize
  digit : e.cache < 256
  carry : e.low < 2 ^ 33
  full : e.cache = 255 → e.low < 2 ^ 32

/-- A carry turns digits 0xFF into zeros and adds one to the digit above them. -/
theorem ofDigits_carry (k c : Nat) (l : List Nat) :
    Nat.ofDigits 256 (List.replicate k 0 ++ (c + 1) :: l) = Nat.ofDigits 256 (List.replicate k 255 ++ c :: l) + 1 := by
  induction k with
  | zero => simp only [List.replicate_zero, List.nil_append, Nat.ofDigits_cons]; omega
  | succ k ih => simp only [List.replicate_succ, List.cons_append, Nat.ofDigits_cons, ih]; omega

/-- The digits that shift_low writes out are those held, plus the carry. -/
theorem ofDigits_written {e : RcEnc} (h : CarryFits e) {carry : Nat} (hcarry : carry = e.low / 2 ^ 32) :
    Nat.ofDigits 256 (byteValues
      (List.replicate (e.cacheSize - 1) (BitVec.ofNat 8 (0xFF + carry)) ++ BitVec.ofNat 8 (e.cache + carry) :: e.outRev)) =
      Nat.ofDigits 256 (digitsHeld e) + carry := by
  obtain ⟨-, hdigit, hlow, hfull⟩ := h
  have hcache : (BitVec.ofNat 8 (e.cache + carry)).toNat = e.cache + carry := Nat.mod_eq_of_lt (by omega)
  simp only [byteValues, List.map_append, List.map_replicate, List.map_cons, hcache]
  obtain rfl | rfl : carry = 0 ∨ carry = 1 := by omega
  · rfl
  · exact ofDigits_carry _ _ _

/-- One more digit: shift_low multiplies the number by 256. -/
theorem shiftLow_codedValue {e : RcEnc} (h : CarryFits e) : codedValue (shiftLow e) = codedValue e * 256 := by
  have hdigits : Nat.ofDigits 256 (digitsHeld (shiftLow e)) =
      e.low / 2 ^ 24 % 256 + 256 * (Nat.ofDigits 256 (digitsHeld e) + e.low / 2 ^ 32) := by
    unfold shiftLow
    split
    case isTrue hout => rw [← ofDigits_written h rfl]; rfl
    case isFalse hheld =>
      have hone : List.replicate e.cacheSize 255 = 255 :: List.replicate (e.cacheSize - 1) 255 := by
        rw [← List.replicate_succ, Nat.sub_add_cancel h.pending]
      simp only [digitsHeld, Nat.add_sub_cancel, hone, List.cons_append, Nat.ofDigits_cons]
      omega
  rw [codedValue, hdigits, shiftLow_low, codedValue]
  omega

theorem shiftLow_carryFits {e : RcEnc} (h : CarryFits e) : CarryFits (shiftLow e) := by
  have hlow : (shiftLow e).low < 2 ^ 32 := by rw [shiftLow_low]; omega
  have hdigit : (shiftLow e).cache < 256 := by
    unfold shiftLow
    split
    · exact Nat.mod_lt _ (by omega)
    · exact h.digit
  exact ⟨shiftLow_cacheSize_pos e, hdigit, by omega, fun _ => hlow⟩

/-! ## The invariant of the encoder: the bounds, and no carry in sight above a cached 0xFF -/

structure EncoderInv (least : Nat) (e : RcEnc) : Prop where
  bounds : RangeBounds least e
  pending : 1 ≤ e.cacheSize
  digit : e.cache < 256
  full : e.cache = 255 → e.low + e.range ≤ 2 ^ 32

theorem rcEncInit_inv : EncoderInv (2 ^ 24) rcEncInit := by
  refine ⟨⟨?_, ?_, ?_⟩, ?_, ?_, ?_⟩ <;> decide

theorem EncoderInv.range_pos {least : Nat} {e : RcEnc} (h : EncoderInv least e) (hleast : 0 < least) : 0 < e.range :=
  Nat.lt_of_lt_of_le hleast h.bounds.least

theorem EncoderInv.carryFits {least : Nat} {e : RcEnc} (h : EncoderInv least e) (hleast : 0 < least) : CarryFits e := by
  have hrange := h.range_pos hleast
  obtain ⟨⟨-, -, hsum⟩, hpending, hdigit, hfull⟩ := h
  exact ⟨hpending, hdigit, by omega, by omega⟩

theorem narrow_inv {e : RcEnc} {p : Nat} (hp : ProbInRange p) (he : EncoderInv (2 ^ 24) e) (b : Bool) :
    EncoderInv (2 ^ 16) (narrow e p b) := by
  obtain ⟨hbounds, hpending, hdigit, hfull⟩ := he
  obtain ⟨-, -, hhigh⟩ := narrow_inside hp hbounds.least b
  refine ⟨narrow_bounds hp hbounds b, ?_, ?_, ?_⟩
  · rwa [narrow_cacheSize]
  · rwa [narrow_cache]
  · rw [narrow_cache]
    exact fun h => hhigh.trans (hfull h)

/-- Where 0xFF is cached after shift_low, it came from the top byte of a `low` just below `2^33` or was cached before; neither leaves room for
another carry. -/
theorem shiftLow_full {e : RcEnc} (hsum : e.low + e.range ≤ 2 ^ 33) (hfull : e.cache = 255 → e.low + e.range ≤ 2 ^ 32)
    (h : (shiftLow e).cache = 255) : e.low % 2 ^ 24 + e.range ≤ 2 ^ 24 := by
  unfold shiftLow at h
  split at h
  case isTrue hout =>
    have hdigit : e.low / 2 ^ 24 % 256 = 255 := h
    omega
  case isFalse hheld =>
    have := hfull h
    omega

theorem rcNormalise_inv {e : RcEnc} (he : EncoderInv (2 ^ 16) e) : EncoderInv (2 ^ 24) (rcNormalise e) := by
  have hbounds := rcNormalise_bounds he.bounds
  have hshifted := shiftLow_carryFits (he.carryFits (by omega))
  obtain ⟨⟨-, -, hsum⟩, hpending, hdigit, hfull⟩ := he
  obtain ⟨-, heq⟩ | ⟨-, heq⟩ := rcNormalise_cases e <;> rw [heq] at hbounds ⊢
  · exact ⟨hbounds, hpending, hdigit, hfull⟩
  · refine ⟨hbounds, hshifted.pending, hshifted.digit, fun h => ?_⟩
    have hroom := shiftLow_full hsum hfull h
    simp only [shiftLow_low]
    omega

theorem encodeBit_inv {e : RcEnc} {p : Nat} (hp : ProbInRange p) (he : EncoderInv (2 ^ 24) e) (b : Bool) :
    EncoderInv (2 ^ 24) (encodeBit e p b) := by
  rw [encodeBit_eq]
  exact rcNormalise_inv (narrow_inv hp he b)

theorem encodeDecisions_inv {c : Nat} (bs : List Bool) {m : Nat} {t : Probs} {e : RcEnc} (ht : t.InRange) (he : EncoderInv (2 ^ 24) e) :
    (encodeDecisions c bs m t e).1.InRange ∧ EncoderInv (2 ^ 24) (encodeDecisions c bs m t e).2 := by
  induction bs generalizing m t e with
  | nil => exact ⟨ht, he⟩
  | cons b bs ih =>
    have hp := ht c m
    exact ih (update_inRange ht (adaptProb_inRange hp b) c m) (encodeBit_inv hp he b)

theorem encodeBytes_inv {x : List Byte} {c : Nat} {t : Probs} {e : RcEnc} (ht : t.InRange) (he : EncoderInv (2 ^ 24) e) :
    EncoderInv (2 ^ 24) (encodeBytes x c t e) := by
  induction x generalizing c t e with
  | nil => exact he
  | cons v x ih =>
    obtain ⟨ht', he'⟩ := encodeDecisions_inv (c := c) (bitsOfByte v) (m := 1) ht he
    exact ih ht' he'

/-! ## The stream lies in the interval: at the end, and so at every step before -/

/-- The stream, as a number, is in the encoder's interval `[low, low + range)`, which has four digits after those written. -/
def Covers (S : List Byte) (e : RcEnc) : Prop :=
  ∃ k, S.length = digitCount e + 4 + k ∧ codedValue e * 256 ^ k ≤ streamValue S ∧ streamValue S < (codedValue e + e.range) * 256 ^ k

theorem digitCount_narrow (e : RcEnc) (p : Nat) (b : Bool) : digitCount (narrow e p b) = digitCount e := by
  simp only [digitCount, narrow_outRev, narrow_cacheSize]

theorem codedValue_narrow_false (e : RcEnc) (p : Nat) : codedValue (narrow e p false) = codedValue e := rfl

theorem codedValue_narrow_true (e : RcEnc) (p : Nat) : codedValue (narrow e p true) = codedValue e + rcBound e.range p :=
  (Nat.add_assoc _ _ _).symm

section
variable {S : List Byte} {e : RcEnc} {p : Nat}

theorem covers_of_narrow (hp : ProbInRange p) (he : EncoderInv (2 ^ 24) e) {b : Bool} (h : Covers S (narrow e p b)) : Covers S e := by
  obtain ⟨k, hlen, hlow, hhigh⟩ := h
  obtain ⟨-, hbound⟩ := rcBound_bounds hp he.bounds.least
  have hinside : codedValue e ≤ codedValue (narrow e p b) ∧
      codedValue (narrow e p b) + (narrow e p b).range ≤ codedValue e + e.range := by
    cases b
    · rw [codedValue_narrow_false]
      exact ⟨Nat.le_refl _, by simp only [narrow, Bool.false_eq_true, if_false]; omega⟩
    · rw [codedValue_narrow_true]
      exact ⟨Nat.le_add_right _ _, by simp only [narrow, if_true]; omega⟩
  exact ⟨k, by rw [hlen, digitCount_narrow], (Nat.mul_le_mul_right _ hinside.1).trans hlow,
    hhigh.trans_le (Nat.mul_le_mul_right _ hinside.2)⟩

theorem covers_of_rcNormalise (he : EncoderInv (2 ^ 16) e) (h : Covers S (rcNormalise e)) : Covers S e := by
  obtain ⟨-, heq⟩ | ⟨-, heq⟩ := rcNormalise_cases e <;> rw [heq] at h
  · exact h
  · obtain ⟨k, hlen, hlow, hhigh⟩ := h
    have hdigits : S.length = digitCount (shiftLow e) + 4 + k := hlen
    have hvalue := shiftLow_codedValue (he.carryFits (by omega))
    refine ⟨k + 1, ?_, ?_, ?_⟩
    · rw [hdigits, shiftLow_digitCount he.pending]
      omega
    · calc codedValue e * 256 ^ (k + 1) = codedValue (shiftLow e) * 256 ^ k := by rw [hvalue]; ring
        _ ≤ streamValue S := hlow
    · calc streamValue S < (codedValue (shiftLow e) + e.range * 2 ^ 8) * 256 ^ k := hhigh
        _ = (codedValue e + e.range) * 256 ^ (k + 1) := by rw [hvalue]; ring

theorem covers_of_encodeBit (hp : ProbInRange p) (he : EncoderInv (2 ^ 24) e) {b : Bool} (h : Covers S (encodeBit e p b)) : Covers S e :=
  covers_of_narrow hp he (covers_of_rcNormalise (narrow_inv hp he b) h)

theorem covers_of_encodeDecisions {c m : Nat} {t : Probs} {bs : List Bool} (ht : t.InRange) (he : EncoderInv (2 ^ 24) e)
    (h : Covers S (encodeDecisions c bs m t e).2) : Covers S e := by
  induction bs generalizing m t e with
  | nil => exact h
  | cons b bs ih =>
    have hp := ht c m
    exact covers_of_encodeBit hp he (ih (update_inRange ht (adaptProb_inRange hp b) c m) (encodeBit_inv hp he b) h)

theorem covers_of_encodeBytes {c : Nat} {t : Probs} {x : List Byte} (ht : t.InRange) (he : EncoderInv (2 ^ 24) e)
    (h : Covers S (encodeBytes x c t e)) : Covers S e := by
  induction x generalizing c t e with
  | nil => exact h
  | cons v x ih =>
    obtain ⟨ht', he'⟩ := encodeDecisions_inv (c := c) (bitsOfByte v) (m := 1) ht he
    exact covers_of_encodeDecisions ht he (ih ht' he' h)

end

/-! ## The flush (R285): four calls bring `low` out, the fifth the bytes held -/

/-- A call of shift_low with `low` at 0 writes out every digit held. -/
theorem shiftLow_writes_all {e : RcEnc} (h : CarryFits e) (hlow : e.low = 0) :
    streamValue (shiftLow e).outRev.reverse * 2 ^ 32 = codedValue e ∧ (shiftLow e).outRev.length = digitCount e := by
  have hout : (shiftLow e).outRev =
      List.replicate (e.cacheSize - 1) (BitVec.ofNat 8 (0xFF + 0)) ++ BitVec.ofNat 8 (e.cache + 0) :: e.outRev := by
    rw [shiftLow, hlow]
    rfl
  constructor
  · rw [streamValue, List.reverse_reverse, hout, ofDigits_written h (by omega), codedValue, hlow, Nat.add_zero, Nat.add_zero]
  · have := h.pending
    simp only [hout, List.length_append, List.length_replicate, List.length_cons, digitCount]
    omega

theorem rcFlush_covers {e : RcEnc} (he : EncoderInv (2 ^ 24) e) : Covers (rcFlush e).outRev.reverse e := by
  have h0 := he.carryFits (by omega)
  have h1 := shiftLow_carryFits h0
  have h2 := shiftLow_carryFits h1
  have h3 := shiftLow_carryFits h2
  have hlow : (shiftLow (shiftLow (shiftLow (shiftLow e)))).low = 0 := by
    simp only [shiftLow_low]
    omega
  obtain ⟨hvalue, hlength⟩ := shiftLow_writes_all (shiftLow_carryFits h3) hlow
  rw [shiftLow_codedValue h3, shiftLow_codedValue h2, shiftLow_codedValue h1, shiftLow_codedValue h0] at hvalue
  rw [shiftLow_digitCount h3.pending, shiftLow_digitCount h2.pending, shiftLow_digitCount h1.pending,
    shiftLow_digitCount h0.pending] at hlength
  have hrange := he.range_pos (by omega)
  rw [rcFlush]
  exact ⟨0, by rw [List.length_reverse, hlength], by omega, by omega⟩

/-! ## The decoder follows (R291): it reads the stream to the encoder's digits and four more, and `code` is its distance from `low` -/

structure Follows (S : List Byte) (e : RcEnc) (d : RcDec) : Prop where
  range : d.range = e.range
  read : ∃ bytes, S = bytes ++ d.rest ∧ bytes.length = digitCount e + 4 ∧ streamValue bytes = codedValue e + d.code

/-- The decoder after a decided bit, before the renormalisation. -/
def narrowDec (d : RcDec) (p : Nat) (b : Bool) : RcDec :=
  if b then { code := d.code - rcBound d.range p, range := d.range - rcBound d.range p, rest := d.rest }
  else { code := d.code, range := rcBound d.range p, rest := d.rest }

theorem decodeBit_eq (d : RcDec) (p : Nat) : decodeBit d p = rcDecNormalise (narrowDec d p (decideBit d p)) := rfl

section
variable {S : List Byte} {e : RcEnc} {d : RcDec} {p : Nat}

/-- What is read of a stream in the interval is in the interval, for the digits to come do not leave it. -/
theorem Covers.read_bounds (h : Covers S e) {bytes rest : List Byte} (hS : S = bytes ++ rest) (hlen : bytes.length = digitCount e + 4) :
    codedValue e ≤ streamValue bytes ∧ streamValue bytes < codedValue e + e.range := by
  obtain ⟨k, hk, hlow, hhigh⟩ := h
  obtain rfl : k = rest.length := by
    rw [hS, List.length_append] at hk
    omega
  rw [hS, streamValue_append] at hlow hhigh
  have hrest := streamValue_lt rest
  constructor
  · have hnext : codedValue e * 256 ^ rest.length < (streamValue bytes + 1) * 256 ^ rest.length := by
      rw [Nat.add_mul]
      omega
    exact Nat.le_of_lt_succ (Nat.lt_of_mul_lt_mul_right hnext)
  · exact Nat.lt_of_mul_lt_mul_right (Nat.lt_of_le_of_lt (Nat.le_add_right _ _) hhigh)

theorem Follows.code_lt (hf : Follows S e d) (h : Covers S e) : d.code < e.range := by
  obtain ⟨-, bytes, hS, hlen, hvalue⟩ := hf
  obtain ⟨-, hhigh⟩ := h.read_bounds hS hlen
  omega

/-- The decoder decides the bit that the encoder coded, since the stream is in that bit's part of the interval. -/
theorem narrow_follows (hf : Follows S e d) {b : Bool} (h : Covers S (narrow e p b)) :
    decideBit d p = b ∧ Follows S (narrow e p b) (narrowDec d p b) := by
  obtain ⟨hrange, bytes, hS, hlen, hvalue⟩ := hf
  rw [← digitCount_narrow e p b] at hlen
  obtain ⟨hlow, hhigh⟩ := h.read_bounds hS hlen
  rw [decideBit, hrange]
  cases b
  case false =>
    have hcode : d.code < rcBound e.range p := by
      have hpart : streamValue bytes < codedValue e + rcBound e.range p := hhigh
      omega
    exact ⟨decide_eq_false (Nat.not_le.mpr hcode), congrArg (rcBound · p) hrange, bytes, hS, hlen, hvalue⟩
  case true =>
    rw [codedValue_narrow_true] at hlow
    have hcode : rcBound e.range p ≤ d.code := by omega
    refine ⟨decide_eq_true hcode, congrArg (fun r => r - rcBound r p) hrange, bytes, hS, hlen, ?_⟩
    rw [codedValue_narrow_true, hvalue]
    show _ = _ + (d.code - rcBound d.range p)
    rw [hrange]
    omega

/-- Both coders renormalise together, and the stream has the byte that the decoder then needs (R289). -/
theorem rcNormalise_follows (he : EncoderInv (2 ^ 16) e) (hf : Follows S e d) (h : Covers S (rcNormalise e)) :
    ∃ d', rcDecNormalise d = .ok d' ∧ Follows S (rcNormalise e) d' := by
  have hcode := hf.code_lt (covers_of_rcNormalise he h)
  have hfollows := hf
  obtain ⟨hrange, bytes, hS, hlen, hvalue⟩ := hf
  obtain ⟨hbig, heq⟩ | ⟨hsmall, heq⟩ := rcNormalise_cases e <;> rw [heq] at h ⊢
  · exact ⟨d, if_neg (Nat.not_lt.mpr (hbig.trans_eq hrange.symm)), hfollows⟩
  · have hdigits : digitCount { shiftLow e with range := e.range * 2 ^ 8 } = digitCount e + 1 := shiftLow_digitCount he.pending
    have hmore : d.rest ≠ [] := by
      intro hnil
      obtain ⟨k, hk, -⟩ := h
      rw [hS, hnil, List.append_nil, hdigits] at hk
      omega
    obtain ⟨v, rest, hrest⟩ := List.exists_cons_of_ne_nil hmore
    refine ⟨{ code := d.code * 2 ^ 8 + v.toNat, range := e.range * 2 ^ 8, rest := rest }, ?_, rfl, bytes ++ [v], ?_, ?_, ?_⟩
    · have htop : d.range < Config.rcTop := hrange.trans_lt hsmall
      rw [rcDecNormalise, if_pos htop, hrest, hrange, Nat.mod_eq_of_lt (by omega), Nat.mod_eq_of_lt (by omega)]
    · rw [hS, hrest, List.append_assoc, List.singleton_append]
    · rw [List.length_append, hlen, hdigits]
      rfl
    · have hshifted : codedValue { shiftLow e with range := e.range * 2 ^ 8 } = codedValue e * 256 :=
        shiftLow_codedValue (he.carryFits (by omega))
      rw [streamValue_append, streamValue_singleton, hvalue, hshifted, List.length_singleton]
      ring

theorem encodeBit_follows (hp : ProbInRange p) (he : EncoderInv (2 ^ 24) e) (hf : Follows S e d) {b : Bool}
    (h : Covers S (encodeBit e p b)) :
    decideBit d p = b ∧ ∃ d', decodeBit d p = .ok d' ∧ Follows S (encodeBit e p b) d' := by
  have hnarrow := narrow_inv hp he b
  rw [encodeBit_eq] at h ⊢
  obtain ⟨hbit, hfollows⟩ := narrow_follows hf (covers_of_rcNormalise hnarrow h)
  rw [decodeBit_eq, hbit]
  exact ⟨rfl, rcNormalise_follows hnarrow hfollows h⟩

/-! ## Bytes (R286, R291, R292) -/

/-- The tree index after some decisions. -/
def treeIndex (m : Nat) (bs : List Bool) : Nat := bs.foldl (fun i b => 2 * i + b.toNat) m

theorem bitsValue_bitsOfByte (v : Byte) : bitsValue (bitsOfByte v) = v.toNat := by
  revert v
  decide +kernel

/-- The eight decisions of a byte lead from 1 to `0x100 | v`. -/
theorem treeIndex_bitsOfByte (v : Byte) : treeIndex 1 (bitsOfByte v) = 256 + v.toNat := by
  have h := bitsValue_append [true] (bitsOfByte v)
  rw [bitsOfByte_length, bitsValue_bitsOfByte] at h
  exact h

theorem decodeDecisions_follows {c : Nat} {bs : List Bool} {m : Nat} {t : Probs} (ht : t.InRange) (he : EncoderInv (2 ^ 24) e)
    (hf : Follows S e d) (h : Covers S (encodeDecisions c bs m t e).2) :
    ∃ d', decodeDecisions c bs.length m t d = .ok (treeIndex m bs, (encodeDecisions c bs m t e).1, d') ∧
      Follows S (encodeDecisions c bs m t e).2 d' := by
  induction bs generalizing m t e d with
  | nil => exact ⟨d, rfl, hf⟩
  | cons b bs ih =>
    have hp := ht c m
    have ht' := update_inRange ht (adaptProb_inRange hp b) c m
    have he' := encodeBit_inv hp he b
    obtain ⟨hbit, d1, hd1, hf1⟩ := encodeBit_follows hp he hf (covers_of_encodeDecisions ht' he' h)
    obtain ⟨d', hd', hf'⟩ := ih ht' he' hf1 h
    refine ⟨d', ?_, hf'⟩
    rw [List.length_cons, decodeDecisions, hd1, hbit]
    exact hd'

theorem decodeBytes_follows {x : List Byte} {c : Nat} {t : Probs} (ht : t.InRange) (he : EncoderInv (2 ^ 24) e) (hf : Follows S e d)
    (h : Covers S (encodeBytes x c t e)) : decodeBytes x.length c t d = .ok x := by
  induction x generalizing c t e d with
  | nil => rfl
  | cons v x ih =>
    obtain ⟨ht', he'⟩ := encodeDecisions_inv (c := c) (bitsOfByte v) (m := 1) ht he
    obtain ⟨d', hd', hf'⟩ := decodeDecisions_follows ht he hf (covers_of_encodeBytes ht' he' h)
    rw [bitsOfByte_length, treeIndex_bitsOfByte] at hd'
    have hcontext : (256 + v.toNat) % 256 = v.toNat := by have := v.isLt; omega
    have hbyte : BitVec.ofNat 8 (256 + v.toNat) = v := BitVec.eq_of_toNat_eq hcontext
    simp only [List.length_cons, decodeBytes, hd', hcontext, hbyte, ih ht' he' hf' h]

end

/-- The first byte of the stream is 0 (R285), for the first interval ends below `2^32`. -/
theorem rcDecInit_follows {S : List Byte} (h : Covers S rcEncInit) : ∃ d, rcDecInit S = .ok d ∧ Follows S rcEncInit d := by
  have hfive : 5 ≤ S.length := by
    obtain ⟨k, hk, -⟩ := h
    rw [hk]
    exact Nat.le_add_right 5 k
  match S, hfive with
  | r0 :: r1 :: r2 :: r3 :: r4 :: rest, _ =>
    have hread : r0 :: r1 :: r2 :: r3 :: r4 :: rest = [r0, r1, r2, r3, r4] ++ rest := rfl
    obtain ⟨-, hhigh⟩ := h.read_bounds hread rfl
    have hvalue := streamValue_five r0 r1 r2 r3 r4
    have hfirst : r0 = 0#8 := by
      have hword : streamValue [r0, r1, r2, r3, r4] < 2 ^ 32 - 1 := hhigh
      apply BitVec.eq_of_toNat_eq
      rw [BitVec.toNat_ofNat]
      omega
    refine ⟨{ code := ube32 r1 r2 r3 r4, range := 0xFFFFFFFF, rest := rest }, if_neg (not_not.mpr hfirst), rfl, _, hread, rfl, ?_⟩
    rw [hvalue, hfirst]
    rfl

theorem decodeBytes_rcEncode (x : List Byte) : ∃ d, rcDecInit (rcEncode x) = .ok d ∧ decodeBytes x.length 0 initProbs d = .ok x := by
  have hcovers : Covers (rcEncode x) (encodeBytes x 0 initProbs rcEncInit) :=
    rcFlush_covers (encodeBytes_inv initProbs_inRange rcEncInit_inv)
  obtain ⟨d, hd, hf⟩ := rcDecInit_follows (covers_of_encodeBytes initProbs_inRange rcEncInit_inv hcovers)
  exact ⟨d, hd, decodeBytes_follows initProbs_inRange rcEncInit_inv hf hcovers⟩

/-- Settles O59: the stream is a number inside every interval of the encoder, and at each bit the decoder sees in which part it lies. -/
theorem rangeCoderRoundTrip : Obligations.RangeCoderRoundTrip := by
  intro x y cap hne hfit hlen hcompress
  have hy : y = be32 x.length ++ rcEncode x := by
    rw [rcCompress] at hcompress
    split at hcompress
    · cases hcompress
    · exact (Except.ok.inj hcompress).symm
  obtain ⟨d, hinit, hdecode⟩ := decodeBytes_rcEncode x
  have hvalue := ube32_be32 (show x.length < 2 ^ 32 by omega)
  have hpos : x.length ≠ 0 := List.length_pos_of_ne_nil hne |>.ne'
  rw [hy, be32, List.cons_append, List.cons_append, List.cons_append, List.cons_append, List.nil_append, rcDecompress, hvalue,
    if_neg hpos, if_neg (Nat.not_lt.mpr hfit), hinit]
  exact hdecode

end Sys2Proof.Machine
end

section
/-! SUPPORT. The host's writes that start a command or are dropped (70 R365, R368), and the reset event (70 R360, R361). -/

namespace Sys2Proof.Machine

-- As in the tests: one thread, so that the check stays inside its memory limit.
set_option Elab.async false

/-! ## Writes of the host (R365, R368) -/

theorem hostKeeps_startCommand (s : State) (w : Word) : HostKeeps s (startCommand { s with epoch := s.epoch + 1 } w) :=
  ⟨rfl, rfl, rfl, rfl, ⟨rfl, fun _ => rfl⟩, rfl, ⟨rfl, rfl⟩, rfl, rfl, rfl⟩

theorem hostKeeps_dropWrite (s : State) : HostKeeps s (dropWrite s) :=
  ⟨rfl, rfl, rfl, rfl, ⟨rfl, fun _ => rfl⟩, rfl, ⟨rfl, rfl⟩, rfl, rfl, rfl⟩

theorem hostWriteIbuf_busy {s : State} (hb : s.busy = true) {i : Nat} (hi : i < s.caps.ibufCap) (b : Byte) :
    hostWriteIbuf s i b = dropWrite s := by
  rw [hostWriteIbuf, if_pos hi, if_pos hb]

/-- Settles O9: idle, the write starts a command; busy, it is dropped. -/
theorem cmdWriteStartsACommand : Obligations.CmdWriteStartsACommand := by
  rintro s t w rfl
  cases hb : s.busy with
  | false =>
    have hw : hostAccess s (.writeReg 0 w) = startCommand { s with epoch := s.epoch + 1 } w := hostWriteReg_cmd hb w
    rw [hw]
    exact ⟨fun _ => ⟨rfl, startCommand_busy _ w, startCommand_done _ w, startCommand_err _ w, startCommand_haz _ w, rfl⟩,
      (nomatch ·), rfl, rfl, ⟨rfl, fun _ => rfl⟩, ⟨rfl, rfl, rfl, rfl⟩, hostKeeps_startCommand s w⟩
  | true =>
    have hw : hostAccess s (.writeReg 0 w) = dropWrite s := hostWriteReg_busy hb rfl w
    rw [hw]
    exact ⟨(nomatch ·),
      fun _ => ⟨rfl, (dropWrite_busy s).trans hb, dropWrite_done s, dropWrite_err s, dropWrite_haz s, rfl⟩,
      rfl, rfl, ⟨rfl, fun _ => rfl⟩, ⟨rfl, rfl, rfl, rfl⟩, hostKeeps_dropWrite s⟩

/-- Settles O10: both kinds of write are `dropWrite` while busy, and a write to a number that is not RW only counts. -/
theorem busyWritesAreDropped : Obligations.BusyWritesAreDropped := by
  refine fun s => ⟨?_, fun r v hr => hostWriteReg_notRw s hr v⟩
  rintro hb a ha t rfl
  have hdrop : hostAccess s a = dropWrite s := by
    rcases ha with ⟨r, v, rfl, hr⟩ | ⟨i, b, rfl, hi⟩
    · exact hostWriteReg_busy hb hr v
    · exact hostWriteIbuf_busy hb hi b
  rw [hdrop]
  exact ⟨dropWrite_haz s, (dropWrite_busy s).trans hb, dropWrite_done s, dropWrite_err s, rfl, rfl, rfl, rfl,
    ⟨rfl, fun _ => rfl⟩, ⟨rfl, rfl, rfl, rfl⟩, rfl, rfl, hostKeeps_dropWrite s⟩

/-! ## The reset event (R360) -/

/-- Settles O16: the state after the event is the reset column of R21, whatever the state before it. -/
theorem resetEventClearsTheMachine : Obligations.ResetEventClearsTheMachine := by
  rintro s t rfl
  exact ⟨rfl, rfl, rfl, rfl, rfl, rfl, rfl, rfl, rfl, rfl, rfl, rfl, rfl, rfl, rfl, rfl, rfl, rfl, read_nil, read_nil, rfl, rfl⟩

end Sys2Proof.Machine
end

section
/-! SUPPORT. What a command can answer (40 R130, 60 R332, R333): it succeeds, fails with a kind of its row, or is refused over a byte never
written. One rule for each shared operation, one line for each command; the statements about all commands follow from it. -/

namespace Sys2Proof.Machine

-- As in the tests: one thread, so that the check stays inside its memory limit.
set_option Elab.async false

/-! ## The three answers -/

/-- What a command that succeeds hands over to its completion: flags and epoch as they were, and of the input, the reader, the output and
the writer only what is its own changed (R373, R371). -/
structure SuccessFrame (i : Instr) (s s' : State) : Prop where
  status : s'.status = s.status
  epoch : s'.epoch = s.epoch
  input : i ≠ .xfer → KeepsInput s s'
  reader : i ≠ .xfer → isReaderCommand i = false → KeepsReader s s'
  output : isTransform i = false → isWriterCommand i = false → KeepsOutput s s' ∧ KeepsWriter s s'
  writerGone : isTransform i = true → s'.bwCtrl = 0

/-- What a command that fails with a kind hands over to its completion: a transform command the state of frame step 2, a reader or a writer
that broke off its stream a state without it (R150, R156), and every failed check the state as it was (R333). -/
inductive FailureFrame (i : Instr) (s : State) : ErrKind → State → Prop
  | unchanged (hi : isTransform i = false) : FailureFrame i s .invalidParameter s
  | outputLost (hi : isTransform i = true) (k : ErrKind) : FailureFrame i s k (takeOver s)
  | readerLost (hi : isReaderCommand i = true) : FailureFrame i s .truncatedData { s with brCtrl := brInvalidated s }
  | writerLost (hi : isWriterCommand i = true) : FailureFrame i s .compressionFailed { s with bwCtrl := 0 }

/-- What a command answers: a completion on one of the states above, or a refusal. -/
inductive CommandResult (i : Instr) (s : State) : Result → Prop
  | succeeded {s' : State} (r0 r1 : Word) (h : SuccessFrame i s s') : CommandResult i s (.next (completeOk s' r0 r1))
  | failed {k : ErrKind} {s' : State} (hk : k ∈ kindsRaised i) (h : FailureFrame i s k s') :
      CommandResult i s (.next (completeErr s' k))
  | refused (h : ¬ AllWritten s) : CommandResult i s (.refused .unwrittenInput)

variable {i : Instr} {s : State}

/-! ## The classes exclude each other -/

theorem isTransform_false_of_reader (hi : isReaderCommand i = true) : isTransform i = false := by
  cases i with
  | brCreate | brReadBit | brReadBits | brReadByte | brSkipBits | brAlign | brSeek => rfl
  | _ => cases hi

theorem isTransform_false_of_writer (hi : isWriterCommand i = true) : isTransform i = false := by
  cases i with
  | bwCreate | bwWriteBit | bwWriteBits | bwFlush => rfl
  | _ => cases hi

theorem isReaderCommand_false_of_writer (hi : isWriterCommand i = true) : isReaderCommand i = false := by
  cases i with
  | bwCreate | bwWriteBit | bwWriteBits | bwFlush => rfl
  | _ => cases hi

/-! ## The states a success completes -/

/-- A command that is no transform command may replace the CRC context. -/
theorem successFrame_withCrcContext (hi : isTransform i = false) (ctrl acc : Word) : SuccessFrame i s (withCrcContext s ctrl acc) where
  status := rfl
  epoch := rfl
  input _ := ⟨rfl, fun _ => rfl⟩
  reader _ _ := ⟨rfl, rfl, rfl, rfl⟩
  output _ _ := ⟨⟨rfl, fun _ => rfl⟩, rfl⟩
  writerGone ht := by simp [hi] at ht

theorem successFrame_self (hi : isTransform i = false) : SuccessFrame i s s := successFrame_withCrcContext hi s.crcCtrl s.crcAcc

theorem successFrame_transferred (y : List Byte) : SuccessFrame .xfer s (transferred s y) where
  status := rfl
  epoch := rfl
  input h := absurd rfl h
  reader h := absurd rfl h
  output _ _ := ⟨⟨rfl, fun _ => rfl⟩, rfl⟩
  writerGone ht := by cases ht

/-- A BR_* command may set the reader's registers. -/
theorem successFrame_reader (hi : isReaderCommand i = true) (ctrl len bits bytes : Word) :
    SuccessFrame i s { s with brCtrl := ctrl, brLen := len, brBits := bits, brBytes := bytes } where
  status := rfl
  epoch := rfl
  input _ := ⟨rfl, fun _ => rfl⟩
  reader _ hr := by simp [hi] at hr
  output _ _ := ⟨⟨rfl, fun _ => rfl⟩, rfl⟩
  writerGone ht := by simp [isTransform_false_of_reader hi] at ht

theorem successFrame_readerAt (hi : isReaderCommand i = true) (p : Nat) : SuccessFrame i s (readerAt s p) :=
  successFrame_reader hi s.brCtrl s.brLen _ _

/-- A BW_* command may set the output and the writer. -/
theorem successFrame_writer (hi : isWriterCommand i = true) (m : Memory) (len ctrl : Word) :
    SuccessFrame i s { s with obuf := m, olen := len, bwCtrl := ctrl } where
  status := rfl
  epoch := rfl
  input _ := ⟨rfl, fun _ => rfl⟩
  reader _ _ := ⟨rfl, rfl, rfl, rfl⟩
  output _ hw := by simp [hi] at hw
  writerGone ht := by simp [isTransform_false_of_writer hi] at ht

theorem successFrame_storeSink (hi : isWriterCommand i = true) (w : BitSink) : SuccessFrame i s (storeSink s w) :=
  successFrame_writer hi _ _ _

/-- A transform command may set the output of the state that frame step 2 has made. -/
theorem successFrame_delivered (hi : isTransform i = true) (m : Memory) (len : Word) :
    SuccessFrame i s { takeOver s with obuf := m, olen := len } where
  status := rfl
  epoch := rfl
  input _ := ⟨rfl, fun _ => rfl⟩
  reader _ _ := ⟨rfl, rfl, rfl, rfl⟩
  output ht := by simp [hi] at ht
  writerGone _ := rfl

/-! ## The shared operations -/

/-- A check that fails before anything is written. -/
theorem failedCheck_result (hi : isTransform i = false) (hk : .invalidParameter ∈ kindsRaised i) :
    CommandResult i s (failWith s .invalidParameter) :=
  .failed hk (.unchanged hi)

theorem not_allWritten_of_input (h : s.ibuf.readRange 0 s.ilen.toNat = none) : ¬ AllWritten s := by
  rintro ⟨hin, -, -⟩
  obtain ⟨x, hx⟩ := exists_readRange_of_written hin
  simp [h] at hx

theorem not_allWritten_of_output (h : s.obuf.readRange 0 s.olen.toNat = none) : ¬ AllWritten s := by
  rintro ⟨-, hout, -⟩
  obtain ⟨x, hx⟩ := exists_readRange_of_written hout
  simp [h] at hx

theorem not_allWritten_of_readerSource (h : s.ibuf.readRange 0 s.brLen.toNat = none) : ¬ AllWritten s := by
  rintro ⟨-, -, hsrc⟩
  obtain ⟨x, hx⟩ := exists_readRange_of_written hsrc
  simp [h] at hx

theorem obufRange_result {f : List Byte → Result} (hf : ∀ y, CommandResult i s (f y)) : CommandResult i s (obufRange s f) := by
  rcases obufRange_cases (s := s) (f := f) rfl with ⟨hnone, ho⟩ | ⟨y, -, ho⟩ <;> rw [ho]
  · exact .refused (not_allWritten_of_output hnone)
  · exact hf y

/-- The range of a CRC command whose bytes are all written has bytes, if it fits IBUF. -/
theorem exists_sourceIs_of_allWritten (h : AllWritten s) (hfit : s.arg0Bit = false → s.ilen.toNat ≤ s.caps.ibufCap) :
    ∃ x, SourceIs s x := by
  obtain ⟨hin, hout, -⟩ := h
  unfold SourceIs
  cases hsrc : s.arg0Bit with
  | true => exact exists_readRange_of_written hout
  | false =>
    obtain ⟨x, hx⟩ := exists_readRange_of_written hin
    exact ⟨x, hfit hsrc, hx⟩

theorem sourceRange_result (hi : isTransform i = false) (hk : .invalidParameter ∈ kindsRaised i) {f : List Byte → Result}
    (hf : ∀ x, CommandResult i s (f x)) : CommandResult i s (sourceRange s f) := by
  rcases sourceRange_cases (s := s) (f := f) rfl with ⟨-, -, ho⟩ | ⟨hnone, ho⟩ | ⟨x, -, ho⟩
  · rw [ho]
    exact failedCheck_result hi hk
  · by_cases hlong : s.arg0Bit = false ∧ s.caps.ibufCap < s.ilen.toNat
    · rw [sourceRange_tooLong hlong.1 hlong.2]
      exact failedCheck_result hi hk
    · rw [ho]
      refine .refused fun hall => ?_
      obtain ⟨x, hx⟩ := exists_sourceIs_of_allWritten hall fun hsrc => Nat.not_lt.mp fun hcap => hlong ⟨hsrc, hcap⟩
      exact hnone x hx
  · rw [ho]
    exact hf x

/-- Every transform command can fail on its frame checks and on an output that does not fit (R332, 92 D19). -/
theorem kindsRaised_of_transform (hi : isTransform i = true) : .invalidParameter ∈ kindsRaised i ∧ fullKind i ∈ kindsRaised i := by
  cases i with
  | huffCompress | huffDecompress | lz77Compress | lz77Decompress | bwtFwd | bwtInv | mtfEnc | mtfDec | bmhCompress
  | bmhDecompress | rcCompress | rcDecompress | hcCompress | hcDecompress => simp [kindsRaised, fullKind]
  | _ => cases hi

theorem deliver_result (hi : isTransform i = true) {r : Except ErrKind (List Byte × Word)}
    (hr : ∀ k, r = .error k → k ∈ kindsRaised i) : CommandResult i s (deliver (takeOver s) (fullKind i) r) := by
  rcases deliver_cases (s := takeOver s) (full := fullKind i) (r := r) rfl with
    ⟨k, hk, ho⟩ | ⟨y, r1, -, -, ho⟩ | ⟨y, r1, -, -, ho⟩ <;> rw [ho]
  · exact .failed (hr k hk) (.outputLost hi k)
  · exact .failed (kindsRaised_of_transform hi).2 (.outputLost hi _)
  · exact .succeeded _ r1 (successFrame_delivered hi _ _)

theorem transform_result (hi : isTransform i = true) {f : List Byte → Except ErrKind (List Byte × Word)}
    (hf : ∀ x k, f x = .error k → k ∈ kindsRaised i) : CommandResult i s (transform s (fullKind i) f) := by
  rcases transform_cases (s := s) (full := fullKind i) (f := f) rfl with ⟨-, ho⟩ | ⟨-, -, hnone, ho⟩ | ⟨x, -, -, ho⟩ <;> rw [ho]
  · exact .failed (kindsRaised_of_transform hi).1 (.outputLost hi _)
  · exact .refused (not_allWritten_of_input hnone)
  · exact deliver_result hi (hf x)

/-! ## The bit reader -/

section
variable (hi : isReaderCommand i = true)
include hi

theorem invalidParameter_mem_of_reader : .invalidParameter ∈ kindsRaised i := by
  cases i with
  | brCreate | brReadBit | brReadBits | brReadByte | brSkipBits | brAlign | brSeek => simp [kindsRaised]
  | _ => cases hi

theorem failedReaderCheck_result : CommandResult i s (failWith s .invalidParameter) :=
  failedCheck_result (isTransform_false_of_reader hi) (invalidParameter_mem_of_reader hi)

theorem withReader_result {body : Result} (hb : CommandResult i s body) : CommandResult i s (withReader s body) := by
  rcases withReader_cases (s := s) (body := body) rfl with ⟨-, ho⟩ | ⟨-, ho⟩ <;> rw [ho]
  · exact failedReaderCheck_result hi
  · exact hb

theorem readerAt_result (p : Nat) (r0 : Word) : CommandResult i s (succeed (readerAt s p) r0 0) :=
  .succeeded r0 0 (successFrame_readerAt hi p)

theorem failEof_result (hk : .truncatedData ∈ kindsRaised i) : CommandResult i s (failEof s) := .failed hk (.readerLost hi)

theorem readBits_result (hk : .truncatedData ∈ kindsRaised i) (src : List Byte) (n : Nat) : CommandResult i s (readBits s src n) := by
  rcases readBits_cases (s := s) (src := src) (n := n) rfl with ⟨-, ho⟩ | ⟨-, ho⟩ <;> rw [ho]
  · exact failEof_result hi hk
  · exact readerAt_result hi _ _

end

theorem readerSource_result {f : List Byte → Result} (hf : ∀ src, CommandResult i s (f src)) :
    CommandResult i s (readerSource s f) := by
  rcases readerSource_cases (s := s) (f := f) rfl with ⟨hnone, ho⟩ | ⟨src, -, ho⟩ <;> rw [ho]
  · exact .refused (not_allWritten_of_readerSource hnone)
  · exact hf src

/-! ## The bit writer -/

section
variable (hi : isWriterCommand i = true)
include hi

theorem withWriter_result (hk : .invalidParameter ∈ kindsRaised i) {body : Result} (hb : CommandResult i s body) :
    CommandResult i s (withWriter s body) := by
  rcases withWriter_cases (s := s) (body := body) rfl with ⟨-, ho⟩ | ⟨-, ho⟩ <;> rw [ho]
  · exact failedCheck_result (isTransform_false_of_writer hi) hk
  · exact hb

theorem writerOverflow_result (hk : .compressionFailed ∈ kindsRaised i) : CommandResult i s (writerOverflow s) :=
  .failed hk (.writerLost hi)

theorem writeBits_result (bs : List Bool) : CommandResult i s (writeBits s bs) :=
  .succeeded _ 0 (successFrame_storeSink hi _)

end

/-! ## The commands, family by family -/

theorem execXfer_result (s : State) : CommandResult .xfer s (execXfer s) := by
  unfold execXfer
  split
  case isTrue => exact failedCheck_result rfl (by decide)
  case isFalse => exact obufRange_result fun y => .succeeded s.olen 0 (successFrame_transferred y)

theorem execBrCreate_result (s : State) : CommandResult .brCreate s (execBrCreate s) := by
  unfold execBrCreate
  split
  case isTrue => exact failedReaderCheck_result rfl
  case isFalse => exact .succeeded 0 0 (successFrame_reader rfl _ _ _ _)

theorem execBrReadBit_result (s : State) : CommandResult .brReadBit s (execBrReadBit s) :=
  withReader_result rfl (readerSource_result fun src => readBits_result rfl (by decide) src 1)

theorem execBrReadBits_result (s : State) : CommandResult .brReadBits s (execBrReadBits s) := by
  refine withReader_result rfl (readerSource_result fun src => ?_)
  split
  case isTrue => exact failedReaderCheck_result rfl
  case isFalse => exact readBits_result rfl (by decide) src _

theorem execBrReadByte_result (s : State) : CommandResult .brReadByte s (execBrReadByte s) :=
  withReader_result rfl (readerSource_result fun src => readBits_result rfl (by decide) src 8)

theorem execBrSkipBits_result (s : State) : CommandResult .brSkipBits s (execBrSkipBits s) := by
  refine withReader_result rfl ?_
  split
  case isTrue => exact failEof_result rfl (by decide)
  case isFalse => exact readerAt_result rfl _ 0

theorem execBrAlign_result (s : State) : CommandResult .brAlign s (execBrAlign s) :=
  withReader_result rfl (readerAt_result rfl _ 0)

theorem execBrSeek_result (s : State) : CommandResult .brSeek s (execBrSeek s) := by
  refine withReader_result rfl ?_
  split
  case isFalse => exact failedReaderCheck_result rfl
  case isTrue =>
    split
    case isTrue => exact failEof_result rfl (by decide)
    case isFalse => exact readerAt_result rfl _ 0

theorem execBwCreate_result (s : State) : CommandResult .bwCreate s (execBwCreate s) :=
  .succeeded 0 0 (successFrame_writer rfl _ _ _)

theorem execBwWriteBit_result (s : State) : CommandResult .bwWriteBit s (execBwWriteBit s) := by
  refine withWriter_result rfl (by decide) ?_
  split
  case isTrue => exact writerOverflow_result rfl (by decide)
  case isFalse => exact writeBits_result rfl _

theorem execBwWriteBits_result (s : State) : CommandResult .bwWriteBits s (execBwWriteBits s) := by
  refine withWriter_result rfl (by decide) ?_
  split
  case isTrue => exact failedCheck_result rfl (by decide)
  case isFalse =>
    split
    case isTrue => exact writerOverflow_result rfl (by decide)
    case isFalse => exact writeBits_result rfl _

theorem execBwFlush_result (s : State) : CommandResult .bwFlush s (execBwFlush s) := by
  refine withWriter_result rfl (by decide) ?_
  split
  case isFalse => exact .succeeded _ 0 (successFrame_self rfl)
  case isTrue =>
    split
    case isTrue => exact writerOverflow_result rfl (by decide)
    case isFalse => exact .succeeded _ 0 (successFrame_storeSink rfl _)

theorem execCrcUpdate_result (s : State) : CommandResult .crcUpdate s (execCrcUpdate s) := by
  refine sourceRange_result rfl (by decide) fun x => ?_
  split
  case isTrue => exact .succeeded _ 0 (successFrame_withCrcContext rfl s.crcCtrl _)
  case isFalse => exact failedCheck_result rfl (by decide)

theorem execCrcFinalize_result (s : State) : CommandResult .crcFinalize s (execCrcFinalize s) := by
  unfold execCrcFinalize
  split
  case isTrue => exact .succeeded _ 0 (successFrame_withCrcContext rfl _ s.crcAcc)
  case isFalse => exact failedCheck_result rfl (by decide)

theorem execCrcDestroy_result (s : State) : CommandResult .crcDestroy s (execCrcDestroy s) := by
  unfold execCrcDestroy
  split
  case isTrue => exact failedCheck_result rfl (by decide)
  case isFalse => exact .succeeded 0 0 (successFrame_withCrcContext rfl _ _)

theorem execTransform_result (hi : isTransform i = true) (s : State) : CommandResult i s (exec i s) := by
  obtain ⟨f, hexec, -, hkinds⟩ := exec_codec (.inl hi) s
  rw [hexec]
  exact transform_result hi hkinds

/-- Every command's answer is one of the three. -/
theorem exec_commandResult (hi : isCommand i = true) (s : State) : CommandResult i s (exec i s) := by
  cases i with
  | nop => exact .succeeded 0 0 (successFrame_self rfl)
  | xfer => exact execXfer_result s
  | brCreate => exact execBrCreate_result s
  | brReadBit => exact execBrReadBit_result s
  | brReadBits => exact execBrReadBits_result s
  | brReadByte => exact execBrReadByte_result s
  | brSkipBits => exact execBrSkipBits_result s
  | brAlign => exact execBrAlign_result s
  | brSeek => exact execBrSeek_result s
  | bwCreate => exact execBwCreate_result s
  | bwWriteBit => exact execBwWriteBit_result s
  | bwWriteBits => exact execBwWriteBits_result s
  | bwFlush => exact execBwFlush_result s
  | crcCalc | crcVerify => exact sourceRange_result rfl (by decide) fun _ => .succeeded _ _ (successFrame_self rfl)
  | crcCreate => exact .succeeded 0 0 (successFrame_withCrcContext rfl _ _)
  | crcUpdate => exact execCrcUpdate_result s
  | crcFinalize => exact execCrcFinalize_result s
  | crcDestroy => exact execCrcDestroy_result s
  | lz77Lit | lz77Esc | lz77Short | lz77Long | hcTagHuff | hcTagBmh | hcTagRc => cases hi
  | huffCompress | huffDecompress | lz77Compress | lz77Decompress | bwtFwd | bwtInv | mtfEnc | mtfDec | bmhCompress
  | bmhDecompress | rcCompress | rcDecompress | hcCompress | hcDecompress => exact execTransform_result rfl s

end Sys2Proof.Machine
end

section
/-! SUPPORT. What follows for every command from the three answers it can give: how it completes, what survives it, what a failure leaves
(60 R332, R333; 70 R366, R373), and that nothing but unwritten data stops an instruction (20 R69). -/

namespace Sys2Proof.Machine

-- As in the tests: one thread, so that the check stays inside its memory limit.
set_option Elab.async false

variable {i : Instr} {s : State}

/-! ## What a failing command keeps -/

section
variable {k : ErrKind} {s' : State} (h : FailureFrame i s k s')
include h

theorem FailureFrame.status : s'.status = s.status := by
  cases h <;> rfl

theorem FailureFrame.epoch : s'.epoch = s.epoch := by
  cases h <;> rfl

theorem FailureFrame.keepsInput : KeepsInput s s' := by
  cases h <;> exact ⟨rfl, fun _ => rfl⟩

theorem FailureFrame.keepsCrc : KeepsCrc s s' := by
  cases h <;> exact ⟨rfl, rfl⟩

/-- Only a BR_* command changes the reader when it fails. -/
theorem FailureFrame.keepsReader (hi : isReaderCommand i = false) : KeepsReader s s' := by
  cases h with
  | unchanged | outputLost | writerLost => exact ⟨rfl, rfl, rfl, rfl⟩
  | readerLost hr => simp [hi] at hr

/-- Only a transform command changes the output when it fails. -/
theorem FailureFrame.keepsOutput (hi : isTransform i = false) : KeepsOutput s s' := by
  cases h with
  | unchanged | readerLost | writerLost => exact ⟨rfl, fun _ => rfl⟩
  | outputLost ht => simp [hi] at ht

/-- Only a transform command and a BW_* command change the writer when they fail. -/
theorem FailureFrame.keepsWriter (hi : isTransform i = false) (hw : isWriterCommand i = false) : KeepsWriter s s' := by
  cases h with
  | unchanged | readerLost => rfl
  | outputLost ht => simp [hi] at ht
  | writerLost hw' => simp [hw] at hw'

/-- A transform command that fails leaves the state of frame step 2. -/
theorem FailureFrame.eq_takeOver (hi : isTransform i = true) : s' = takeOver s := by
  cases h with
  | unchanged hn => simp [hi] at hn
  | outputLost => rfl
  | readerLost hr => simp [isTransform_false_of_reader hr] at hi
  | writerLost hw => simp [isTransform_false_of_writer hw] at hi

/-- A BR_* command fails on a check, or it runs out of bits and loses its reader. -/
theorem FailureFrame.reader_cases (hi : isReaderCommand i = true) :
    (k = .invalidParameter ∧ s' = s) ∨ (k = .truncatedData ∧ s' = { s with brCtrl := brInvalidated s }) := by
  cases h with
  | unchanged => exact .inl ⟨rfl, rfl⟩
  | outputLost ht => simp [isTransform_false_of_reader hi] at ht
  | readerLost => exact .inr ⟨rfl, rfl⟩
  | writerLost hw => simp [isReaderCommand_false_of_writer hw] at hi

/-- A BW_* command fails on a check, or it overflows and loses its writer. -/
theorem FailureFrame.writer_cases (hi : isWriterCommand i = true) :
    (k = .invalidParameter ∧ s' = s) ∨ (k = .compressionFailed ∧ s' = { s with bwCtrl := 0 }) := by
  cases h with
  | unchanged => exact .inl ⟨rfl, rfl⟩
  | outputLost ht => simp [isTransform_false_of_writer hi] at ht
  | readerLost hr => simp [isReaderCommand_false_of_writer hi] at hr
  | writerLost => exact .inr ⟨rfl, rfl⟩

/-- The other commands fail on a check. -/
theorem FailureFrame.eq_self (ht : isTransform i = false) (hr : isReaderCommand i = false)
    (hw : isWriterCommand i = false) : s' = s := by
  cases h with
  | unchanged => rfl
  | outputLost h => simp [ht] at h
  | readerLost h => simp [hr] at h
  | writerLost h => simp [hw] at h

end

/-! ## How a command completes, and what it leaves -/

theorem commandResult_of_exec {t : State} (hi : isCommand i = true) (ht : exec i s = .next t) : CommandResult i s (.next t) :=
  ht ▸ exec_commandResult hi s

/-- Settles O23: every answer that is a next state is a completion, on a state with the flags and the epoch of the start. -/
theorem commandsCompleteInOneTurn : Obligations.CommandsCompleteInOneTurn := by
  intro i s t hi ht
  cases commandResult_of_exec hi ht with
  | succeeded r0 r1 h =>
    exact ⟨completeOk_busy .., completeOk_done .., (completeOk_haz ..).trans (haz_congr h.status), rfl, rfl,
      congrArg (· + 1) h.epoch⟩
  | failed _ h =>
    exact ⟨completeErr_busy .., completeErr_done .., (completeErr_haz ..).trans (haz_congr h.status), rfl, rfl,
      congrArg (· + 1) h.epoch⟩

/-- Settles O24: a success has no code, and the kind of a failure is one of the command's row, all of which the engine raises. -/
theorem errorKindsFollowTheMatrix : Obligations.ErrorKindsFollowTheMatrix := by
  intro i s t hi ht
  cases commandResult_of_exec hi ht with
  | succeeded => exact .inl ⟨completeOk_err .., rfl⟩
  | failed hk => exact .inr ⟨completeErr_err .., _, hk, raised_of_mem_kindsRaised hk, rfl⟩

/-- Settles O22, from the frame of a success and the four states a failure completes. -/
theorem contextsSurviveOtherCommands : Obligations.ContextsSurviveOtherCommands := by
  intro i s t hi ht
  cases commandResult_of_exec hi ht with
  | succeeded r0 r1 h => exact ⟨h.input, h.reader, h.output, h.writerGone⟩
  | failed _ h =>
    exact ⟨fun _ => h.keepsInput, fun _ => h.keepsReader, fun ht hw => ⟨h.keepsOutput ht, h.keepsWriter ht hw⟩,
      fun ht => by rw [h.eq_takeOver ht]; rfl⟩

/-- Settles O25, class by class: which state a failure of the class completes, and with which code. -/
theorem failingCommandsLeaveNoOutput : Obligations.FailingCommandsLeaveNoOutput := by
  intro i s t hi ht herr
  cases commandResult_of_exec hi ht with
  | succeeded => simp at herr
  | @failed k s' _ h =>
    refine ⟨rfl, rfl, h.keepsInput, h.keepsCrc, fun ht => ?transform, fun hr => ?reader, fun hw => ?writer, fun ht hr hw => ?other⟩
    case transform =>
      rw [h.eq_takeOver ht]
      exact ⟨rfl, rfl, read_nil, rfl, rfl, rfl, rfl⟩
    case reader =>
      rcases h.reader_cases hr with ⟨rfl, rfl⟩ | ⟨rfl, rfl⟩
      · exact ⟨fun hcode => absurd hcode (by simp [ErrKind.code]), fun _ => ⟨rfl, rfl, rfl, rfl⟩, ⟨rfl, fun _ => rfl⟩, rfl⟩
      · exact ⟨fun _ => ⟨brInvalidated_bit0 s, brInvalidated_bit1 s, rfl, rfl, rfl⟩,
          fun hcode => absurd hcode (by simp [ErrKind.code]), ⟨rfl, fun _ => rfl⟩, rfl⟩
    case writer =>
      rcases h.writer_cases hw with ⟨rfl, rfl⟩ | ⟨rfl, rfl⟩
      · exact ⟨fun hcode => absurd hcode (by simp [ErrKind.code]), fun _ => rfl, ⟨rfl, fun _ => rfl⟩⟩
      · exact ⟨fun _ => rfl, fun hcode => absurd hcode (by simp [ErrKind.code]), ⟨rfl, fun _ => rfl⟩⟩
    case other =>
      rw [h.eq_self ht hr hw]
      exact keepsRest_completeErr s k

/-! ## Refusals -/

theorem runToken_next (s : State) (i : Instr) (len : Nat) : ∃ t, runToken s i len = .next t := by
  cases h : tokenEffect s.lz.declared s.lz.outRev i with
  | error k => exact ⟨_, runToken_error h len⟩
  | ok outRev => exact ⟨_, runToken_ok h len⟩

/-- A transform of the input is refused over unwritten input only. -/
theorem transform_next (h : AllWritten s) (full : ErrKind) (f : List Byte → Except ErrKind (List Byte × Word)) :
    ∃ t, transform s full f = .next t := by
  rcases transform_cases (s := s) (full := full) (f := f) rfl with ⟨-, ho⟩ | ⟨-, -, hnone, -⟩ | ⟨x, -, -, ho⟩
  · exact ⟨_, ho⟩
  · exact absurd h (not_allWritten_of_input hnone)
  · rw [ho]
    rcases deliver_cases (s := takeOver s) (full := full) (r := f x) rfl with ⟨_, -, ho⟩ | ⟨_, _, -, -, ho⟩ | ⟨_, _, -, -, ho⟩
    all_goals exact ⟨_, ho⟩

theorem CommandResult.next_of_allWritten {o : Result} (ho : CommandResult i s o) (h : AllWritten s) : ∃ t, o = .next t := by
  cases ho with
  | succeeded | failed => exact ⟨_, rfl⟩
  | refused hun => exact absurd h hun

/-- Settles O26: a command's one answer that is no next state is the refusal over unwritten data, a tag row is a transform of its input,
and a token row reads the scratch alone. -/
theorem everyInstructionRunsOnWrittenData : Obligations.EveryInstructionRunsOnWrittenData := by
  intro i s h
  cases i with
  | lz77Lit | lz77Esc | lz77Short | lz77Long => exact runToken_next s _ _
  | hcTagHuff | hcTagBmh | hcTagRc => exact transform_next h _ _
  | _ => exact (exec_commandResult rfl s).next_of_allWritten h

end Sys2Proof.Machine
end

section
/-! SUPPORT. HAZ through one step (70 R360, R368): the engine keeps it whatever its turn runs, and the host's accesses but reset never
clear it. -/

namespace Sys2Proof.Machine

-- As in the tests: one thread, so that the check stays inside its memory limit.
set_option Elab.async false

variable {s : State}

/-! ## A turn of the engine -/

theorem haz_ignoresCompletion : IgnoresCompletion State.haz := ⟨completeOk_haz, completeErr_haz⟩

theorem tag_leaves_haz (st : Stage) : Leaves State.haz s (runTag s st) :=
  transform_leaves haz_ignoresCompletion rfl (fun _ _ => rfl) _ _

theorem exec_leaves_haz (i : Instr) (s : State) : Leaves State.haz s (exec i s) := by
  cases i with
  | lz77Lit | lz77Esc | lz77Short | lz77Long => exact runToken_leaves haz_ignoresCompletion rfl (fun _ => rfl) _ _
  | hcTagHuff | hcTagBmh | hcTagRc => exact tag_leaves_haz _
  | _ =>
    intro t ht
    obtain ⟨-, -, hhaz, -⟩ := commandsCompleteInOneTurn _ s t rfl ht
    exact hhaz

/-- The frame checks on a taken-over state: a failure of that state, or a refusal. -/
theorem transformBytes_error_leaves {α : Type} {π : State → α} (hπ : IgnoresCompletion π) (h0 : π (takeOver s) = π s) {r : Result}
    (hr : transformBytes (takeOver s) = .error r) : Leaves π s r := by
  rcases transformBytes_cases (takeOver s) with ⟨-, hb⟩ | ⟨-, -, -, hb⟩ | ⟨x, -, -, hb⟩ <;> rw [hb] at hr <;> cases hr
  · exact failWith_leaves hπ h0 _
  · exact refused_leaves _

/-- A turn that ends without an instruction keeps what a failure and the end of a replay keep. -/
theorem fetchInstr_error_leaves_haz {r : Result} (hr : fetchInstr s = .error r) : Leaves State.haz s r := by
  cases hf : s.fetch with
  | command =>
    simp only [fetchInstr, hf] at hr
    split at hr <;> cases hr
    exact failWith_leaves haz_ignoresCompletion rfl _
  | hcTag =>
    simp only [fetchInstr, hf] at hr
    split at hr
    next hb => cases hr; exact transformBytes_error_leaves haz_ignoresCompletion rfl hb
    next =>
      split at hr <;> cases hr
      exact failWith_leaves haz_ignoresCompletion rfl _
  | lzToken =>
    simp only [fetchInstr, hf] at hr
    split at hr
    next hb => cases hr; exact transformBytes_error_leaves haz_ignoresCompletion rfl hb
    next =>
      split at hr
      next => cases hr; exact deliver_leaves haz_ignoresCompletion rfl (fun _ _ => rfl) _ _
      next =>
        split at hr <;> cases hr
        exact failWith_leaves haz_ignoresCompletion rfl _

theorem engineTurn_leaves_haz (s : State) : Leaves State.haz s (engineTurn s) := by
  cases hb : s.busy with
  | false =>
    rw [engineTurn_idle hb]
    exact next_leaves rfl
  | true =>
    cases hfetch : fetchInstr s with
    | error r =>
      rw [engineTurn_notFetched hb hfetch]
      exact fetchInstr_error_leaves_haz hfetch
    | ok i =>
      rw [engineTurn_fetched hb hfetch]
      exact exec_leaves_haz i s

/-! ## A turn of the host -/

theorem haz_hostWriteReg (h : s.haz = true) (r : Nat) (v : Word) : (hostWriteReg s r v).haz = true := by
  cases hr : isRw r with
  | false => rw [hostWriteReg_notRw s hr]; exact h
  | true =>
    cases hb : s.busy with
    | true => rw [hostWriteReg_busy hb hr]; exact dropWrite_haz s
    | false =>
      rcases (isRw_iff r).mp hr with rfl | rfl | rfl | rfl
      · rw [hostWriteReg_cmd hb]; exact (startCommand_haz _ v).trans h
      · rw [hostWriteReg_arg0 hb]; exact h
      · rw [hostWriteReg_arg1 hb]; exact h
      · rw [hostWriteReg_ilen hb]; exact h

theorem haz_hostWriteIbuf (h : s.haz = true) (i : Nat) (b : Byte) : (hostWriteIbuf s i b).haz = true := by
  unfold hostWriteIbuf
  split
  case isFalse => exact h
  case isTrue =>
    split
    case isTrue => exact dropWrite_haz s
    case isFalse => exact h

theorem haz_hostAccess (h : s.haz = true) {a : HostAction} (ha : a ≠ .reset) : (hostAccess s a).haz = true := by
  cases a with
  | reset => exact absurd rfl ha
  | writeReg r v => exact haz_hostWriteReg h r v
  | writeIbuf i b => exact haz_hostWriteIbuf h i b
  | readReg | readIbuf | readObuf => exact h

/-- Settles O11, by the three forms of the schedule. -/
theorem hazardFlagIsSticky : Obligations.HazardFlagIsSticky := by
  intro s t hstep h hreset
  cases hsched : s.schedule with
  | nil =>
    rw [step_noSchedule hsched] at hstep
    exact (engineTurn_leaves_haz s t hstep).trans h
  | cons turn rest =>
    cases turn with
    | engine =>
      rw [step_engine hsched] at hstep
      exact (engineTurn_leaves_haz _ t hstep).trans h
    | host a =>
      rw [step_host hsched] at hstep
      cases hstep
      refine haz_hostAccess (s := { s with schedule := rest }) h fun ha => hreset ?_
      rw [hsched, ha]
      rfl

end Sys2Proof.Machine
end

section
/-! SUPPORT. Two states that agree on the capacities, ARG0 and the input (70 R376): a transform command computes the same on both. -/

namespace Sys2Proof.Machine

-- As in the tests: one thread, so that the check stays inside its memory limit.
set_option Elab.async false

variable {s s' : State}

/-- The two states hold the same input: the same length, the same capacity and the same bytes below the length. -/
def InputsAgree (s s' : State) : Prop :=
  s'.caps = s.caps ∧ s'.ilen = s.ilen ∧ ∀ a, a < s.ilen.toNat → s'.ibuf.read a = s.ibuf.read a

/-- The two states hold the same outcome of a transform command. -/
def OutcomesAgree (t t' : State) : Prop :=
  t'.errcode = t.errcode ∧ t'.res0 = t.res0 ∧ t'.res1 = t.res1 ∧ KeepsOutput t t' ∧ t'.bwCtrl = t.bwCtrl

theorem InputsAgree.inputIs (h : InputsAgree s s') {x : List Byte} (hx : InputIs s x) : InputIs s' x := by
  obtain ⟨hcaps, hlen, hbytes⟩ := h
  obtain ⟨hfit, hread⟩ := hx
  unfold InputIs
  rw [hcaps, hlen, ← hread]
  exact ⟨hfit, readRange_congr fun a _ ha => hbytes a (by omega)⟩

/-- The function a transform command computes sees no more of the state than the capacity of OBUF and ARG0. -/
theorem codecOf_congr (hcaps : s'.caps = s.caps) (harg : s'.arg0 = s.arg0) (x : List Byte) (i : Instr) :
    codecOf s' x i = codecOf s x i := by
  simp only [codecOf, hcaps, harg]

/-- Both commands failed on the frame checks, or with the same kind. -/
theorem outcomesAgree_failWith {t t' : State} {k : ErrKind} (ht : failWith (takeOver s) k = .next t)
    (ht' : failWith (takeOver s') k = .next t') : OutcomesAgree t t' := by
  cases ht
  cases ht'
  exact ⟨rfl, rfl, rfl, ⟨rfl, fun _ => rfl⟩, rfl⟩

theorem deliver_tooLong {y : List Byte} (hlong : s.caps.obufCap < y.length) (full : ErrKind) (r1 : Word) :
    deliver s full (.ok (y, r1)) = failWith s full :=
  if_pos hlong

theorem deliver_fits {y : List Byte} (hfit : y.length ≤ s.caps.obufCap) (full : ErrKind) (r1 : Word) :
    deliver s full (.ok (y, r1)) =
      succeed { s with obuf := Memory.writeBytes s.obuf 0 y, olen := BitVec.ofNat 32 y.length } (BitVec.ofNat 32 y.length) r1 :=
  if_neg (Nat.not_lt.mpr hfit)

/-- The same answer of the function is delivered in the same way where the capacities are the same. -/
theorem outcomesAgree_deliver (hcaps : s'.caps = s.caps) {full : ErrKind} {r : Except ErrKind (List Byte × Word)} {t t' : State}
    (ht : deliver (takeOver s) full r = .next t) (ht' : deliver (takeOver s') full r = .next t') : OutcomesAgree t t' := by
  rcases r with k | ⟨y, r1⟩
  · exact outcomesAgree_failWith ht ht'
  · rcases Nat.lt_or_ge s.caps.obufCap y.length with hlong | hfit
    · rw [deliver_tooLong (s := takeOver s) hlong] at ht
      rw [deliver_tooLong (s := takeOver s') (hcaps.symm ▸ hlong)] at ht'
      exact outcomesAgree_failWith ht ht'
    · rw [deliver_fits (s := takeOver s) hfit] at ht
      rw [deliver_fits (s := takeOver s') (hcaps.symm ▸ hfit)] at ht'
      cases ht
      cases ht'
      exact ⟨rfl, rfl, rfl, ⟨rfl, fun _ => rfl⟩, rfl⟩

/-- Functions that agree on the input the two states share end in the same outcome. -/
theorem outcomesAgree_transform (h : InputsAgree s s') {full : ErrKind} {f f' : List Byte → Except ErrKind (List Byte × Word)}
    (hf : ∀ x, InputIs s x → f' x = f x) {t t' : State} (ht : transform s full f = .next t)
    (ht' : transform s' full f' = .next t') : OutcomesAgree t t' := by
  have ⟨hcaps, hlen, _⟩ := h
  rcases transform_cases ht with ⟨hframe, ho⟩ | ⟨-, -, -, ho⟩ | ⟨x, hx, hne, ho⟩
  · rw [transform_frameError (by rwa [hcaps, hlen])] at ht'
    exact outcomesAgree_failWith ho.symm ht'
  · cases ho
  · rw [transform_eq (h.inputIs hx) hne, hf x hx] at ht'
    exact outcomesAgree_deliver hcaps ho.symm ht'

/-- Settles O29: on both states the command is `transform` of a function that is its codec on the input, and the two codecs are one. -/
theorem transformsDependOnTheirInputOnly : Obligations.TransformsDependOnTheirInputOnly := by
  intro i s s' t t' hi hcaps harg hlen hbytes ht ht'
  have hin : InputsAgree s s' := ⟨hcaps, hlen, hbytes⟩
  obtain ⟨f, hexec, hcodec, -⟩ := exec_codec (.inl hi) s
  obtain ⟨f', hexec', hcodec', -⟩ := exec_codec (.inl hi) s'
  refine outcomesAgree_transform hin (fun x hx => ?_) (hexec ▸ ht) (hexec' ▸ ht')
  rw [hcodec x hx, hcodec' x (hin.inputIs hx), codecOf_congr hcaps harg]

end Sys2Proof.Machine
end

section
/-! SUPPORT. The Hardcore dispatcher (47 R311 to R317): its two counts by index, the stage they pick, the stream HC_COMPRESS makes of it,
and the tag step of the stepwise view. -/

namespace Sys2Proof.Machine

-- As in the tests: one thread, so that the check stays inside its memory limit.
set_option Elab.async false

/-! ## The counts (R311), by index -/

/-- The neighbours of a sequence, as pairs of it and its tail. -/
theorem adjacentEqual_cons (a : Byte) (l : List Byte) :
    adjacentEqual (a :: l) = (List.range l.length).countP fun i => decide (l[i]? = (a :: l)[i]?) := by
  induction l generalizing a with
  | nil => rfl
  | cons b l ih =>
    rw [adjacentEqual, ih, List.length_cons, List.range_succ_eq_map, List.countP_cons, List.countP_map, Nat.add_comm]
    simp [Function.comp_def]

/-- The indices from 1 on whose byte equals the one before. -/
theorem adjacentEqual_eq_countP (x : List Byte) :
    adjacentEqual x = (List.range x.length).countP fun i => decide (1 ≤ i) && decide (x[i]? = x[i - 1]?) := by
  cases x with
  | nil => rfl
  | cons a l =>
    rw [adjacentEqual_cons, List.length_cons, List.range_succ_eq_map, List.countP_cons, List.countP_map]
    simp [Function.comp_def]

/-- A count over a sequence, by index. -/
theorem countP_eq_countP_range (p : Byte → Bool) (x : List Byte) :
    x.countP p = (List.range x.length).countP fun i => p (x.getD i 0#8) := by
  induction x with
  | nil => rfl
  | cons a x ih =>
    rw [List.countP_cons, ih, List.length_cons, List.range_succ_eq_map, List.countP_cons, List.countP_map]
    rfl

theorem isText_eq (b : Byte) :
    isText b = (decide (0x20 ≤ b.toNat ∧ b.toNat ≤ 0x7E) || decide (b.toNat = 0x09) || decide (b.toNat = 0x0A) ||
      decide (b.toNat = 0x0D)) := by
  simp [isText, ← BitVec.toNat_inj]

/-! ## The stage (R312) -/

/-- `stage_id` as a number (R108). -/
def Stage.number : Stage → Nat
  | .huff => 1
  | .bmh => 2
  | .rc => 3

theorem Stage.id_eq (st : Stage) : st.id = BitVec.ofNat 8 st.number := by cases st <;> rfl

theorem Stage.id_setWidth (st : Stage) : st.id.setWidth 32 = BitVec.ofNat 32 st.number := by cases st <;> rfl

theorem number_stageOf (x : List Byte) :
    (stageOf x).number =
      if 100 * adjacentEqual x > 30 * x.length then 1 else if 100 * textBytes x > 80 * x.length then 2 else 3 := by
  rw [stageOf, apply_ite Stage.number, apply_ite Stage.number]
  rfl

theorem stageCompress_eq (st : Stage) (x : List Byte) :
    stageCompress st x = if st.number = 1 then huffCompress x else if st.number = 2 then bmhCompress x else rcCompress x := by
  cases st <;> rfl

/-! ## HC_COMPRESS (R313, R314) -/

theorem hcCompress_coderError {x : List Byte} {k : ErrKind} (h : stageCompress (stageOf x) x = .error k) :
    hcCompress x = .error k := by
  rw [hcCompress, h]

/-- The payload of the stage's coder after the tag (R107), and the stage. -/
theorem hcCompress_coded {x payload : List Byte} (h : stageCompress (stageOf x) x = .ok payload) :
    hcCompress x = .ok ([0xAD#8, 0xEF#8, 0x01#8, BitVec.ofNat 8 (stageOf x).number] ++ payload,
      BitVec.ofNat 32 (stageOf x).number) := by
  rw [hcCompress, h, ← Stage.id_setWidth, ← Stage.id_eq]
  rfl

/-- Settles O60: the two counts are those of the model, so the stage is `stageOf`; the command is the transform of `hcCompress`. -/
theorem stageFollowsTheMetrics : Obligations.StageFollowsTheMetrics := by
  intro x eq txt st coded tag
  have heq : eq = adjacentEqual x := by rw [adjacentEqual_eq_countP, List.countP_eq_length_filter]
  have htxt : txt = textBytes x := by
    rw [textBytes, countP_eq_countP_range, List.countP_eq_length_filter]
    simp only [isText_eq, txt]
  have hst : st = (stageOf x).number := by rw [number_stageOf, ← heq, ← htxt]
  have hcoded : coded = stageCompress (stageOf x) x := by rw [stageCompress_eq, ← hst]
  have hfailed (k : ErrKind) (h : coded = .error k) : hcCompress x = .error k := hcCompress_coderError (hcoded.symm.trans h)
  have hstream (payload : List Byte) (h : coded = .ok payload) : hcCompress x = .ok (tag ++ payload, BitVec.ofNat 32 st) := by
    simp only [tag, hst]
    exact hcCompress_coded (hcoded.symm.trans h)
  have hlength (payload : List Byte) : (tag ++ payload).length = payload.length + 4 := by
    simp only [tag, List.length_append, List.length_cons, List.length_nil]
    omega
  refine ⟨by rw [hst, Stage.id_eq], hfailed, hstream,
    fun s hcap => ⟨?frame, fun hx hne => ⟨?coderFails, fun payload h => ⟨?fits, ?long⟩⟩⟩⟩
  case frame => exact (frameChecksComeFirst .hcCompress s).1 rfl
  all_goals have hreported := codecErrorsAreReported .hcCompress s x (.inl rfl) hx hne
  case coderFails =>
    intro k h
    have herror := hfailed k h
    obtain rfl := hcCompress_error herror
    exact hreported.1 _ herror
  case fits => exact fun hfit => delivers_of_codecOf (.inl rfl) hcap hx hne ((hlength payload).trans_le hfit) (hstream payload h)
  case long => exact fun hlong => hreported.2 _ _ (hstream payload h) (hlong.trans_eq (hlength payload).symm)

/-! ## The tag step (R315 to R317, notes/assumptions/9.md) -/

section
variable {s : State} {x : List Byte}

theorem fetchInstr_hcTag_noInput (hf : s.fetch = .hcTag) {r : Result} (h : transformBytes (takeOver s) = .error r) :
    fetchInstr s = .error r := by
  simp only [fetchInstr, hf, h]

theorem fetchInstr_hcTag_noTag (hf : s.fetch = .hcTag) (hx : transformBytes (takeOver s) = .ok x) {k : ErrKind}
    (h : hcTagOf x = .error k) : fetchInstr s = .error (failWith (takeOver s) k) := by
  simp only [fetchInstr, hf, hx, h]

theorem fetchInstr_hcTag_tag (hf : s.fetch = .hcTag) (hx : transformBytes (takeOver s) = .ok x) {i : Instr}
    (h : hcTagOf x = .ok i) : fetchInstr s = .ok i := by
  simp only [fetchInstr, hf, hx, h]

theorem hcDecompress_noTag {k : ErrKind} (h : hcTagOf x = .error k) (cap : Nat) : hcDecompress x cap = .error k := by
  rw [hcDecompress, h]

theorem hcDecompress_tag {i : Instr} {st : Stage} (h : hcTagOf x = .ok i) (hst : stageOfTag i = some st) (cap : Nat) :
    hcDecompress x cap = stageResult cap st (x.drop 4) := by
  rw [hcDecompress, h]
  simp only [hst]

/-- What stands at the front of a Hardcore stream is a tag row, which runs the decoder of its stage. -/
theorem exec_of_hcTagOf {i : Instr} (h : hcTagOf x = .ok i) : ∃ st, stageOfTag i = some st ∧ ∀ s, exec i s = runTag s st := by
  have htag : decodeTag x = .ok i := by
    unfold hcTagOf at h
    split at h
    · cases h
    · split at h <;> cases h
      assumption
  rcases decodeTag_ok htag with rfl | rfl | rfl
  · exact ⟨.huff, rfl, fun _ => rfl⟩
  · exact ⟨.bmh, rfl, fun _ => rfl⟩
  · exact ⟨.rc, rfl, fun _ => rfl⟩

end

/-- A transform command whose input passes the frame checks and is not written throughout. -/
theorem transform_unwritten {s : State} (hfit : s.ilen.toNat ≤ s.caps.ibufCap) (hne : s.ilen ≠ 0)
    (hnone : s.ibuf.readRange 0 s.ilen.toNat = none) (full : ErrKind) (f : List Byte → Except ErrKind (List Byte × Word)) :
    transform s full f = .refused .unwrittenInput := by
  rcases transform_cases (s := s) (full := full) (f := f) rfl with ⟨hlen, -⟩ | ⟨-, -, -, ho⟩ | ⟨x, ⟨-, hread⟩, -, -⟩
  · exact (hlen.elim (Nat.not_lt.mpr hfit) hne).elim
  · exact ho
  · rw [hnone] at hread
    cases hread

/-- Settles O50: the tag step and the command make the same frame checks, read the same tag and deliver what its stage answers; the model's
own fields, in which their states differ, are cleared by every completion. -/
theorem tagStepIsTheCommand : Obligations.TagStepIsTheCommand := by
  intro s hb hsched
  have hbusy : (startTagStep s).busy = true := hb
  rw [step_noSchedule (s := startTagStep s) hsched]
  have hcommand : exec .hcDecompress s = transform s .decompressionFailed fun t => hcDecompress t s.caps.obufCap := rfl
  rcases transformBytes_cases (takeOver (startTagStep s)) with
    ⟨hlen, hbytes⟩ | ⟨hfit, hne, hnone, hbytes⟩ | ⟨x, hx, hne, hbytes⟩
  · rw [engineTurn_notFetched hbusy (fetchInstr_hcTag_noInput rfl hbytes), hcommand, transform_frameError (s := s) hlen]
    rfl
  · rw [engineTurn_notFetched hbusy (fetchInstr_hcTag_noInput rfl hbytes), hcommand, transform_unwritten (s := s) hfit hne hnone]
  · rw [hcommand, transform_eq (s := s) hx hne]
    cases htag : hcTagOf x with
    | error k =>
      rw [engineTurn_notFetched hbusy (fetchInstr_hcTag_noTag rfl hbytes htag), hcDecompress_noTag htag]
      rfl
    | ok i =>
      obtain ⟨st, hst, hexec⟩ := exec_of_hcTagOf htag
      rw [engineTurn_fetched hbusy (fetchInstr_hcTag_tag rfl hbytes htag), hexec, hcDecompress_tag htag hst]
      exact (transform_eq (s := startTagStep s) hx hne _ _).trans (deliver_ignores_replay (takeOver s) .hcTag s.lz _ _)

end Sys2Proof.Machine
end

section
/-! SUPPORT. The encoder and the decoder (30 R90 to R108): the command table as a relation between opcode bytes and commands, the words and
bytes each format decodes, and the words and first bytes it rejects. -/

namespace Sys2Proof.Machine

-- As in the tests: one thread, so that the check stays inside its memory limit.
set_option Elab.async false

/-! ## The command word (R90): OPCODE below, RSV above -/

theorem opcodeField_setWidth (op : Byte) : opcodeField (op.setWidth 32) = op := by
  apply BitVec.eq_of_toNat_eq
  have := op.isLt
  simp only [opcodeField, BitVec.extractLsb'_toNat, BitVec.toNat_setWidth, Nat.shiftRight_zero]
  omega

theorem rsvField_setWidth (op : Byte) : rsvField (op.setWidth 32) = 0#24 := by
  apply BitVec.eq_of_toNat_eq
  have := op.isLt
  simp only [rsvField, BitVec.extractLsb'_toNat, BitVec.toNat_setWidth, Nat.shiftRight_eq_div_pow, BitVec.toNat_ofNat]
  omega

/-- A word whose RSV is 0 is its opcode byte, widened. -/
theorem setWidth_opcodeField {w : Word} (h : rsvField w = 0#24) : (opcodeField w).setWidth 32 = w := by
  have hrsv : w.toNat / 2 ^ 8 % 2 ^ 24 = 0 := by
    simpa [rsvField, Nat.shiftRight_eq_div_pow] using congrArg BitVec.toNat h
  apply BitVec.eq_of_toNat_eq
  have := w.isLt
  simp only [opcodeField, BitVec.extractLsb'_toNat, BitVec.toNat_setWidth, Nat.shiftRight_zero]
  omega

/-! ## The command table (R92) -/

/-- The decoder's table and the encoder's opcodes are one relation: no opcode stands twice, and every command has a row. -/
theorem lookup_commandTable_iff {op : Byte} {i : Instr} : lookupByte op commandTable = some i ↔ opcodeOf i = some op := by
  constructor
  · have hrows : ∀ row ∈ commandTable, opcodeOf row.2 = some row.1 := by decide
    exact fun h => hrows _ (mem_of_lookupByte h)
  · intro h
    cases i with
    | lz77Lit | lz77Esc | lz77Short | lz77Long => cases h
    | hcTagHuff | hcTagBmh | hcTagRc => cases h
    | _ => cases h; rfl

/-- A word names a command just where it is the command's opcode byte under an RSV of 0 (R90, R93). -/
theorem decodeCommand_eq_ok_iff {w : Word} {i : Instr} :
    decodeCommand w = .ok i ↔ ∃ op, opcodeOf i = some op ∧ w = op.setWidth 32 := by
  constructor
  · intro h
    unfold decodeCommand at h
    split at h
    case isTrue => cases h
    case isFalse hrsv =>
      split at h <;> cases h
      next hrow => exact ⟨_, lookup_commandTable_iff.mp hrow, (setWidth_opcodeField (Decidable.not_not.mp hrsv)).symm⟩
  · rintro ⟨op, hop, rfl⟩
    rw [decodeCommand, if_neg (by simp [rsvField_setWidth]), opcodeField_setWidth, lookup_commandTable_iff.mpr hop]

theorem opcode_mem_legalOpcodes {i : Instr} {op : Byte} (h : opcodeOf i = some op) : op.toNat ∈ legalOpcodes := by
  have hrows : ∀ row ∈ commandTable, row.1.toNat ∈ legalOpcodes := by decide
  exact hrows _ (mem_of_lookupByte (lookup_commandTable_iff.mpr h))

/-- A command carries no operand, so there is none out of range. -/
theorem wellFormed_of_opcodeOf {i : Instr} {op : Byte} (h : opcodeOf i = some op) : i.wellFormed = true := by
  cases i with
  | lz77Lit | lz77Esc | lz77Short | lz77Long => cases h
  | _ => rfl

/-- R93: a word with a bit of RSV set or an opcode byte outside the table names no command. -/
theorem decodeCommand_illegal {w : Word} (h : w.toNat / 2 ^ 8 ≠ 0 ∨ w.toNat % 2 ^ 8 ∉ legalOpcodes) :
    ∃ e, decodeCommand w = .error e := by
  cases hdec : decodeCommand w with
  | error e => exact ⟨e, rfl⟩
  | ok i =>
    obtain ⟨op, hop, rfl⟩ := decodeCommand_eq_ok_iff.mp hdec
    have hlt := op.isLt
    have hnat : (op.setWidth 32).toNat = op.toNat := BitVec.toNat_setWidth_of_le (by decide)
    rw [hnat, Nat.div_eq_of_lt hlt, Nat.mod_eq_of_lt hlt] at h
    exact absurd (opcode_mem_legalOpcodes hop) (h.resolve_left fun hne => hne rfl)

/-! ## The three formats -/

theorem encode_command {i : Instr} {op : Byte} (h : opcodeOf i = some op) : encode i = .cmd (op.setWidth 32) := by
  rw [encode, h]

theorem encode_tag {i : Instr} {st : Byte} (h : stageByte i = some st) : encode i = .tag (Config.hcMagic ++ [st]) := by
  cases i with
  | hcTagHuff | hcTagBmh | hcTagRc => cases h; rfl
  | _ => cases h

theorem encode_token {i : Instr} (htok : tokenBytes i ≠ []) : encode i = .token (tokenBytes i) := by
  cases i with
  | lz77Lit | lz77Esc | lz77Short | lz77Long => rfl
  | _ => exact absurd rfl htok

/-- Every row has an opcode, a stage byte or token bytes: the three formats of the opcode table. -/
theorem format_cases (i : Instr) : (∃ op, opcodeOf i = some op) ∨ (∃ st, stageByte i = some st) ∨ tokenBytes i ≠ [] := by
  cases i with
  | lz77Lit | lz77Esc | lz77Short | lz77Long => exact .inr (.inr (List.cons_ne_nil _ _))
  | hcTagHuff | hcTagBmh | hcTagRc => exact .inr (.inl ⟨_, rfl⟩)
  | _ => exact .inl ⟨_, rfl⟩

/-- The stage byte names its tag row (R108). -/
theorem decodeStage_stageByte {i : Instr} {st : Byte} (h : stageByte i = some st) : decodeStage st = .ok i := by
  cases i with
  | hcTagHuff | hcTagBmh | hcTagRc => cases h; rfl
  | _ => cases h

/-- After the magic the tag is its stage byte's (R107). -/
theorem decodeTag_magic (st : Byte) : decodeTag (Config.hcMagic ++ [st]) = decodeStage st := rfl

/-- Settles O1, format by format: a command through the table, a tag through its stage byte, a token at the front of its own bytes. -/
theorem decodeInvertsEncode : Obligations.DecodeInvertsEncode := by
  intro i hwf
  rcases format_cases i with ⟨op, hop⟩ | ⟨st, hst⟩ | htok
  · rw [encode_command hop]
    exact decodeCommand_eq_ok_iff.mpr ⟨op, hop, rfl⟩
  · rw [encode_tag hst]
    exact (decodeTag_magic st).trans (decodeStage_stageByte hst)
  · have hdec := decodeToken_tokenBytes htok hwf []
    rw [List.append_nil] at hdec
    rw [encode_token htok, decode, hdec]
    rfl

/-- Settles O2: the one word that names a command is the encoder's. -/
theorem commandWordsAreUnique : Obligations.CommandWordsAreUnique := by
  intro w i hdec
  obtain ⟨op, hop, rfl⟩ := decodeCommand_eq_ok_iff.mp hdec
  exact ⟨wellFormed_of_opcodeOf hop, by rw [isCommand, hop]; rfl, encode_command hop⟩

/-- Settles O5: each code is the encoding of its row. -/
theorem sampleCodesDecode : Obligations.SampleCodesDecode := by
  have row := decodeInvertsEncode
  exact ⟨row .nop rfl, row .brReadBits rfl, row .bwFlush rfl, row .crcDestroy rfl, row .huffCompress rfl, row .huffDecompress rfl,
    row .lz77Compress rfl, row .lz77Decompress rfl, row .bwtFwd rfl, row .bwtInv rfl, row .mtfEnc rfl, row .mtfDec rfl,
    row .bmhCompress rfl, row .bmhDecompress rfl, row .rcCompress rfl, row .rcDecompress rfl, row .hcCompress rfl,
    row .hcDecompress rfl, row (.lz77Lit 0x61#8) rfl, row (.lz77Esc 0xFF#8) rfl, row (.lz77Short 6 0x03#8) rfl,
    row (.lz77Long 0x12#8 0x1000#16) rfl, row .hcTagHuff rfl, row .hcTagBmh rfl, row .hcTagRc rfl⟩

/-! ## Tokens (R99 to R104) -/

/-- The decoder reads no operand outside the ranges of R99 and R101: it takes LIT below 0x80 only, and SHORT's byte carries 3 to 18. -/
theorem decodeToken_wellFormed {bs rest : List Byte} {i : Instr} (h : decodeToken bs = .ok (i, rest)) : i.wellFormed = true := by
  cases bs with
  | nil => cases h
  | cons t bs =>
    simp only [decodeToken] at h
    split at h
    case isTrue hlow =>
      cases h
      exact decide_eq_true hlow
    split at h
    case isTrue => split at h <;> cases h; rfl
    split at h
    case isTrue hshort =>
      split at h <;> cases h
      exact (shortByte_shortLen hshort).1
    split at h
    case isTrue => split at h <;> cases h; rfl
    case isFalse => cases h

/-- Settles O3, from what the decoder reads: a token row, with its bytes at the front. -/
theorem tokenBytesReadBack : Obligations.TokenBytesReadBack := by
  intro bs rest i hdec
  obtain ⟨htok, hbytes⟩ := decodeToken_eq_ok hdec
  exact ⟨decodeToken_wellFormed hdec, encode_token htok, hbytes⟩

/-- R103: the first bytes outside every token's range. -/
theorem decodeToken_reserved {t : Byte} (h : (0x81 ≤ t.toNat ∧ t.toNat ≤ 0xBF) ∨ (0xD0 ≤ t.toNat ∧ t.toNat ≤ 0xFE))
    (rest : List Byte) : decodeToken (t :: rest) = .error .reservedToken := by
  have hlit : ¬ t.toNat < 0x80 := by omega
  have hesc : t ≠ Config.lzEscape := by
    rintro rfl
    revert h
    decide
  have hshort : ¬ isShortByte t = true := by
    rw [isShortByte_iff]
    omega
  have hlong : t ≠ Config.lzLong := by
    rintro rfl
    revert h
    decide
  simp only [decodeToken, if_neg hlit, if_neg hesc, if_neg hshort, if_neg hlong]

/-- Settles O4: the byte starts no token, and the replay's error for such a byte is DecompressionFailed. -/
theorem reservedTokenBytesFail : Obligations.ReservedTokenBytesFail := fun _ rest h =>
  ⟨decodeToken_reserved h rest, fun _ _ _ => replayTokens_badToken (decodeToken_reserved h rest)⟩

/-! ## Illegal words (R93, R333) -/

theorem fetchInstr_illegal {s : State} (hf : s.fetch = .command) {e : DecodeError} (h : decodeCommand s.cmd = .error e) :
    fetchInstr s = .error (failWith s .invalidParameter) := by
  rw [fetchInstr, hf, h]

/-- Settles O8: the turn fetches no command and fails on the state as it is. -/
theorem illegalWordsChangeNothingElse : Obligations.IllegalWordsChangeNothingElse := by
  intro s hb hf hsched hillegal
  obtain ⟨e, hdec⟩ := decodeCommand_illegal hillegal
  exact failsOnly_of_failWith
    ((step_noSchedule hsched).trans (engineTurn_notFetched hb (fetchInstr_illegal hf hdec)))

end Sys2Proof.Machine
end

section
/-! SUPPORT. The byte-by-byte copy of a match (44 R228) read by index, and the tokens that succeed (R227). -/

namespace Sys2Proof.Machine

-- As in the tests: one thread, so that the check stays inside its memory limit.
set_option Elab.async false

/-! ## The copy (R228), newest byte first -/

/-- The copy puts `n` bytes before what was there. -/
theorem copyMatch_eq_append (o n : Nat) (outRev : List Byte) :
    ∃ copied : List Byte, copied.length = n ∧ copyMatch o n outRev = copied ++ outRev := by
  induction n generalizing outRev with
  | zero => exact ⟨[], rfl, rfl⟩
  | succ n ih =>
    obtain ⟨copied, hlen, happend⟩ := ih (outRev.getD (o - 1) 0#8 :: outRev)
    exact ⟨copied ++ [outRev.getD (o - 1) 0#8], by simp [hlen], by rw [copyMatch, happend, List.append_assoc, List.singleton_append]⟩

theorem length_copyMatch (o n : Nat) (outRev : List Byte) : (copyMatch o n outRev).length = n + outRev.length := by
  obtain ⟨copied, hlen, happend⟩ := copyMatch_eq_append o n outRev
  rw [happend, List.length_append, hlen]

/-- What was there before the copy stands after the `n` new bytes. -/
theorem getElem?_copyMatch_add (o n k : Nat) (outRev : List Byte) : (copyMatch o n outRev)[n + k]? = outRev[k]? := by
  obtain ⟨copied, hlen, happend⟩ := copyMatch_eq_append o n outRev
  rw [happend, List.getElem?_append_right (by omega), hlen, Nat.add_sub_cancel_left]

/-- Each new byte equals the byte `o` places back, be that an old byte or a new one. -/
theorem getElem?_copyMatch_back {o n k : Nat} (h1 : 1 ≤ o) (hk : k < n) {outRev : List Byte} (ho : o ≤ outRev.length) :
    (copyMatch o n outRev)[k]? = (copyMatch o n outRev)[k + o]? := by
  induction n generalizing outRev with
  | zero => exact absurd hk (Nat.not_lt_zero k)
  | succ n ih =>
    rw [copyMatch]
    rcases Nat.lt_succ_iff_lt_or_eq.mp hk with hlater | rfl
    · exact ih hlater (Nat.le_succ_of_le ho)
    · have hcopied := getElem?_copyMatch_add o k 0 (outRev.getD (o - 1) 0#8 :: outRev)
      rw [Nat.add_zero, List.getElem?_cons_zero] at hcopied
      obtain ⟨p, rfl⟩ : ∃ p, o = p + 1 := Nat.exists_eq_add_one.mpr h1
      rw [hcopied, getElem?_copyMatch_add, List.getElem?_cons_succ, Nat.add_sub_cancel, List.getD_eq_getElem?_getD,
        List.getElem?_eq_getElem ho, Option.getD_some]

/-! ## The copy in the order of the output -/

section
variable {o n k : Nat} {outRev : List Byte}

theorem getElem?_reverse_copyMatch_old (hk : k < outRev.length) : (copyMatch o n outRev).reverse[k]? = outRev.reverse[k]? := by
  obtain ⟨copied, -, happend⟩ := copyMatch_eq_append o n outRev
  rw [happend, List.reverse_append, List.getElem?_append_left (by rwa [List.length_reverse])]

theorem getElem?_reverse_copyMatch_new (h1 : 1 ≤ o) (ho : o ≤ outRev.length) (hk : k < n) :
    (copyMatch o n outRev).reverse[outRev.length + k]? = (copyMatch o n outRev).reverse[outRev.length + k - o]? := by
  have hlen := length_copyMatch o n outRev
  rw [List.getElem?_reverse (by omega), List.getElem?_reverse (by omega), hlen,
    getElem?_copyMatch_back h1 (by omega) ho]
  congr 1
  omega

end

/-! ## The tokens that succeed -/

/-- A token whose effect is an output moves the replay to it and the cursor past the token's bytes. -/
theorem exec_token_ok {i : Instr} {s : State} {outRev : List Byte} (htok : tokenBytes i ≠ [])
    (h : tokenEffect s.lz.declared s.lz.outRev i = .ok outRev) :
    exec i s = .next { s with
      lz := { declared := s.lz.declared, pos := s.lz.pos + (tokenBytes i).length, outRev := outRev } } :=
  (exec_token htok s).trans (runToken_ok h _)

/-- Settles O47: the output a match makes is the copy of R228, read by index. -/
theorem tokensExtendTheReplay : Obligations.TokensExtendTheReplay := by
  intro s
  refine ⟨fun b hroom => ⟨?lit, ?esc⟩, fun len off h3 h18 h1 hwin hback hfit =>
    ⟨(copyMatch off len s.lz.outRev).reverse, ?length, fun k hk => getElem?_reverse_copyMatch_old hk,
      fun k hk => getElem?_reverse_copyMatch_new h1 hback hk, fun hshort => ?short, ?long⟩⟩
  case lit => exact exec_token_ok (List.cons_ne_nil _ _) (putLiteral_room hroom b)
  case esc => exact exec_token_ok (List.cons_ne_nil _ _) (putLiteral_room hroom b)
  case length => rw [List.length_reverse, length_copyMatch, Nat.add_comm]
  all_goals
    rw [List.reverse_reverse]
    refine exec_token_ok (List.cons_ne_nil _ _) ?_
  case short =>
    have hoff : (BitVec.ofNat 8 off).toNat = off := Nat.mod_eq_of_lt (by omega)
    rw [tokenEffect, hoff, putMatch_fits h1 hwin hback hfit]
  case long =>
    have hlen : (BitVec.ofNat 8 len).toNat = len := Nat.mod_eq_of_lt (by omega)
    have hoff : (BitVec.ofNat 16 off).toNat = off := Nat.mod_eq_of_lt (by omega)
    rw [tokenEffect_long (by omega) (by omega), hlen, hoff, putMatch_fits h1 hwin hback hfit]

end Sys2Proof.Machine
end
